-- ==== Sys2Proof/Word.lean ====
section
/-! DEFINITION. The word types of the port and of the registers (spec 00_scope.md R10, R11, R15; 20_memory.md R206). -/

namespace Sys2Proof

/-- One byte, as a serial transport would carry it (R206). -/
abbrev Byte := BitVec 8

/-- One 32-bit word of the port: a command word, an operand word or a response word (R206). -/
abbrev Word := BitVec 32

/-- A register value of type F: an IEEE 754 binary32 value, held as its bit pattern, so that `bits32` and `asF`
(R15) are the identity and the payload of a stored NaN is kept. -/
abbrev F32 := BitVec 32

/-- The four binary32 operations of R12. -/
inductive FpOp where
  | add
  | sub
  | mul
  | div
  deriving DecidableEq, Repr

/-- The bits from which the NaN that an operation PRODUCES is formed, given the operation and its operands
(93_implementation_defined.md U1: any NaN). -/
abbrev NanRule := FpOp → F32 → F32 → Word

/-- One command as the host presents it: the command word and the operand word (30_encoding.md R300). -/
structure Command where
  cmd : Word
  data : Word
  deriving DecidableEq, Repr

end Sys2Proof
end

