-- ==== Sys2Proof/Syntax.lean ====
section
/-! DEFINITION. The 19 commands, one constructor per row of spec/opcode_table.json (spec 30_encoding.md R306). -/

namespace Sys2Proof

/-- A command with its operands. An operand that the format ignores (`data` in F0 and FA, `data[31:1]` in FAB; R309) is not
held. An ARG operand is held raw: its range is checked by `Instr.wellFormed` and by the decoder (R305). -/
inductive Instr where
  /-- NOP, format F0 (44_host_commands.md R700). -/
  | nop
  /-- SAMPLE, format FD: the input sample (45_sample_pipeline.md R800). -/
  | sample (x : F32)
  /-- SET_DELAY_TIME, format FD: seconds (41_delay_line.md R410). -/
  | setDelayTime (t : F32)
  /-- SET_FEEDBACK, format FD: a gain (41_delay_line.md R411). -/
  | setFeedback (g : F32)
  /-- SET_LFO_RATE, format FD: Hz (41_delay_line.md R412). -/
  | setLfoRate (r : F32)
  /-- SET_LFO_DEPTH, format FD (41_delay_line.md R413). -/
  | setLfoDepth (d : F32)
  /-- SET_MIX, format FD (41_delay_line.md R414). -/
  | setMix (m : F32)
  /-- KNOB_TEMPO, format FD (44_host_commands.md R705). -/
  | knobTempo (k : F32)
  /-- KNOB_VOLUME, format FD (44_host_commands.md R706). -/
  | knobVolume (k : F32)
  /-- KNOB_DELAY, format FD (44_host_commands.md R707). -/
  | knobDelay (k : F32)
  /-- KNOB_FEEDBACK, format FD (44_host_commands.md R708). -/
  | knobFeedback (k : F32)
  /-- ENC_INC, format FI: the signed increment's 32 bits (43_clock_sequencer.md R621). -/
  | encInc (inc : Word)
  /-- BUTTON, format FAB: the button id and the level data[0] (43_clock_sequencer.md R620). -/
  | button (b : BitVec 8) (lvl : Bool)
  /-- TRIGGER, format FA: the voice number (42_drum_voices.md R520). -/
  | trigger (v : BitVec 8)
  /-- SET_DRUMSET, format FA: the drum-set index (42_drum_voices.md R521). -/
  | setDrumset (i : BitVec 8)
  /-- READ_STATUS, format F0 (44_host_commands.md R712). -/
  | readStatus
  /-- READ_PARAM, format FA: the register number (44_host_commands.md R713). -/
  | readParam (n : BitVec 8)
  /-- WRITE_CTRL, format FU: the 32 unsigned bits (44_host_commands.md R714). -/
  | writeCtrl (u : Word)
  /-- RESET, format F0 (44_host_commands.md R715). -/
  | reset
  deriving DecidableEq, Repr

/-- The causes of CommandError (60_exceptions.md R901). -/
inductive ErrCause where
  | illegalOpcode
  | reservedBits
  | argRange
  deriving DecidableEq, Repr

end Sys2Proof
end

