-- ==== Sys2Proof/Machine/Operands.lean ====
section
/-! DEFINITION. The fields of a command word and the assembly of its operands (spec 30_encoding.md R301 to R303), the
ARG ranges (R306) and the reserved register numbers (10_state.md R118). -/

namespace Sys2Proof

/-- OPC, cmd[31:24] (R301). -/
def Operand.opc (cmd : Word) : BitVec 8 := cmd.extractLsb' 24 8

/-- ARG, cmd[23:16] (R301). -/
def Operand.arg (cmd : Word) : BitVec 8 := cmd.extractLsb' 16 8

/-- RSV, cmd[15:0] (R301). -/
def Operand.rsv (cmd : Word) : BitVec 16 := cmd.extractLsb' 0 16

/-- An F operand: the 32 bits as they stand (R303). -/
def Operand.asF (data : Word) : F32 := data

/-- An FI operand: `s32(data)`, two's complement (R303, 00_scope.md R10). -/
def Operand.s32 (data : Word) : Int := data.toInt

/-- The FAB level, data[0] (R303). -/
def Operand.level (data : Word) : Bool := data.getLsbD 0

/-- The register numbers that R118 reserves. -/
def Operand.regReserved (n : BitVec 8) : Bool :=
  let k := n.toNat
  (0x0E ≤ k && k ≤ 0x0F) || (0x15 ≤ k && k ≤ 0x1F) || (0x20 ≤ k && k ≤ 0x5F && 0xD ≤ k % 16) || 0x6A ≤ k

/-- TRIGGER's ARG range, 0 to 3 (R306). -/
def Operand.voiceOk (v : BitVec 8) : Bool := v.toNat ≤ 3

/-- SET_DRUMSET's ARG range, 0 to 5 (R306). -/
def Operand.drumsetOk (i : BitVec 8) : Bool := i.toNat ≤ 5

/-- BUTTON's ARG range, 0 to 2 (R306). -/
def Operand.buttonOk (b : BitVec 8) : Bool := b.toNat ≤ 2

/-- READ_PARAM's ARG range: a number that R118 does not reserve (R306). -/
def Operand.regOk (n : BitVec 8) : Bool := !Operand.regReserved n

end Sys2Proof
end

