-- ==== Sys2Proof/WellFormed.lean ====
section
/-! DEFINITION. The commands whose ARG lies in its row's range (spec 30_encoding.md R305, R306): the ones a command word can
carry without an ARG_RANGE error. -/

namespace Sys2Proof

/-- The range check of R305, for each format with an ARG. -/
def Instr.wellFormed : Instr → Bool
  | .nop => true
  | .sample _ => true
  | .setDelayTime _ => true
  | .setFeedback _ => true
  | .setLfoRate _ => true
  | .setLfoDepth _ => true
  | .setMix _ => true
  | .knobTempo _ => true
  | .knobVolume _ => true
  | .knobDelay _ => true
  | .knobFeedback _ => true
  | .encInc _ => true
  | .button b _ => Operand.buttonOk b
  | .trigger v => Operand.voiceOk v
  | .setDrumset i => Operand.drumsetOk i
  | .readStatus => true
  | .readParam n => Operand.regOk n
  | .writeCtrl _ => true
  | .reset => true

end Sys2Proof
end

