-- ==== Sys2Proof/Decode.lean ====
section
/-! DEFINITION. The opcode map, the decoder and the encoder (spec 30_encoding.md R300 to R309), and the byte order of a serial
transport (20_memory.md R206). -/

namespace Sys2Proof

/-- A row of the opcode map (R306): a command word matches it when `cmd AND mask = matchBits`. -/
structure OpRow where
  opc : BitVec 8
  matchBits : Word
  mask : Word
  argOk : BitVec 8 → Bool
  build : BitVec 8 → Word → Instr

/-- A row of a format without ARG: F0, FD, FI or FU (R305). -/
def plainRow (opc : BitVec 8) (matchBits : Word) (build : Word → Instr) : OpRow :=
  { opc, matchBits, mask := 0xFFFFFFFF#32, argOk := fun _ => true, build := fun _ => build }

/-- A row of a format with ARG: FA or FAB (R305). -/
def argRow (opc : BitVec 8) (matchBits : Word) (argOk : BitVec 8 → Bool) (build : BitVec 8 → Word → Instr) : OpRow :=
  { opc, matchBits, mask := 0xFF00FFFF#32, argOk, build }

/-- The opcode map of R306, in its order. -/
def opTable : List OpRow := [
  plainRow 0x00#8 0x00000000#32 (fun _ => .nop),
  plainRow 0x01#8 0x01000000#32 (fun d => .sample (Operand.asF d)),
  plainRow 0x10#8 0x10000000#32 (fun d => .setDelayTime (Operand.asF d)),
  plainRow 0x11#8 0x11000000#32 (fun d => .setFeedback (Operand.asF d)),
  plainRow 0x12#8 0x12000000#32 (fun d => .setLfoRate (Operand.asF d)),
  plainRow 0x13#8 0x13000000#32 (fun d => .setLfoDepth (Operand.asF d)),
  plainRow 0x14#8 0x14000000#32 (fun d => .setMix (Operand.asF d)),
  plainRow 0x20#8 0x20000000#32 (fun d => .knobTempo (Operand.asF d)),
  plainRow 0x21#8 0x21000000#32 (fun d => .knobVolume (Operand.asF d)),
  plainRow 0x22#8 0x22000000#32 (fun d => .knobDelay (Operand.asF d)),
  plainRow 0x23#8 0x23000000#32 (fun d => .knobFeedback (Operand.asF d)),
  plainRow 0x30#8 0x30000000#32 (fun d => .encInc d),
  argRow 0x31#8 0x31000000#32 Operand.buttonOk (fun a d => .button a (Operand.level d)),
  argRow 0x40#8 0x40000000#32 Operand.voiceOk (fun a _ => .trigger a),
  argRow 0x41#8 0x41000000#32 Operand.drumsetOk (fun a _ => .setDrumset a),
  plainRow 0x50#8 0x50000000#32 (fun _ => .readStatus),
  argRow 0x51#8 0x51000000#32 Operand.regOk (fun a _ => .readParam a),
  plainRow 0x52#8 0x52000000#32 (fun d => .writeCtrl d),
  plainRow 0xFF#8 0xFF000000#32 (fun _ => .reset)]

/-- The decoder of R305: the opcode, then the reserved bits, then the ARG range; `data` is never checked (R309). -/
def decode (cmd data : Word) : Except ErrCause Instr :=
  match opTable.find? (fun r => r.opc == Operand.opc cmd) with
  | none => .error .illegalOpcode
  | some r =>
    if cmd &&& r.mask ≠ r.matchBits then .error .reservedBits
    else if r.argOk (Operand.arg cmd) then .ok (r.build (Operand.arg cmd) data)
    else .error .argRange

/-- The command word of R301: OPC, ARG, and a zero RSV. -/
def cmdWord (opc arg : BitVec 8) : Word := opc ++ arg ++ 0x0000#16

/-- The words of a command (R301, R302); a `data` that the format ignores is 0 (R310). -/
def encode : Instr → Command
  | .nop => ⟨cmdWord 0x00#8 0#8, 0#32⟩
  | .sample x => ⟨cmdWord 0x01#8 0#8, x⟩
  | .setDelayTime t => ⟨cmdWord 0x10#8 0#8, t⟩
  | .setFeedback g => ⟨cmdWord 0x11#8 0#8, g⟩
  | .setLfoRate r => ⟨cmdWord 0x12#8 0#8, r⟩
  | .setLfoDepth d => ⟨cmdWord 0x13#8 0#8, d⟩
  | .setMix m => ⟨cmdWord 0x14#8 0#8, m⟩
  | .knobTempo k => ⟨cmdWord 0x20#8 0#8, k⟩
  | .knobVolume k => ⟨cmdWord 0x21#8 0#8, k⟩
  | .knobDelay k => ⟨cmdWord 0x22#8 0#8, k⟩
  | .knobFeedback k => ⟨cmdWord 0x23#8 0#8, k⟩
  | .encInc inc => ⟨cmdWord 0x30#8 0#8, inc⟩
  | .button b lvl => ⟨cmdWord 0x31#8 b, if lvl then 1#32 else 0#32⟩
  | .trigger v => ⟨cmdWord 0x40#8 v, 0#32⟩
  | .setDrumset i => ⟨cmdWord 0x41#8 i, 0#32⟩
  | .readStatus => ⟨cmdWord 0x50#8 0#8, 0#32⟩
  | .readParam n => ⟨cmdWord 0x51#8 n, 0#32⟩
  | .writeCtrl u => ⟨cmdWord 0x52#8 0#8, u⟩
  | .reset => ⟨cmdWord 0xFF#8 0#8, 0#32⟩

/-- Why a byte stream gives no command. -/
inductive DecodeError where
  /-- Fewer than the eight bytes of a command (R300). -/
  | truncated
  /-- The command word raises CommandError (R305). -/
  | command (cause : ErrCause)
  deriving DecidableEq, Repr

/-- The word whose bytes, least significant first, are `b0` to `b3` (20_memory.md R206). -/
def wordOfBytes (b0 b1 b2 b3 : Byte) : Word := b3 ++ b2 ++ b1 ++ b0

/-- A word's four bytes, least significant first (20_memory.md R206). -/
def bytesOfWord (w : Word) : List Byte :=
  [w.extractLsb' 0 8, w.extractLsb' 8 8, w.extractLsb' 16 8, w.extractLsb' 24 8]

/-- The first command of a byte stream, and the rest of it: command word, then operand word (R300, R206). -/
def decodeBytes : List Byte → Except DecodeError (Instr × List Byte)
  | b0 :: b1 :: b2 :: b3 :: d0 :: d1 :: d2 :: d3 :: rest =>
    match decode (wordOfBytes b0 b1 b2 b3) (wordOfBytes d0 d1 d2 d3) with
    | .ok i => .ok (i, rest)
    | .error c => .error (.command c)
  | _ => .error .truncated

/-- The eight bytes of a command (R300, R206). -/
def encodeBytes (i : Instr) : List Byte := bytesOfWord (encode i).cmd ++ bytesOfWord (encode i).data

/-- The command whose `nbits` low bits are `w`'s and whose other bits are 0: bits 31:0 are the command word, bits 63:32 the
operand word. -/
def commandOfBits (nbits w : Nat) : Command :=
  let v := w % 2 ^ nbits
  ⟨BitVec.ofNat 32 v, BitVec.ofNat 32 (v / 2 ^ 32)⟩

/-- What the decoder reads from the command whose bits are `w`, laid out as a transport sends it. -/
def decodeTableWord (nbits w : Nat) : Option Instr :=
  let c := commandOfBits nbits w
  match decodeBytes (bytesOfWord c.cmd ++ bytesOfWord c.data) with
  | .ok (i, _) => some i
  | .error _ => none

end Sys2Proof
end

