-- ==== Sys2Proof/Machine/Float.lean ====
section
/-! DEFINITION. IEEE 754 binary32 arithmetic, round to nearest, ties to even (spec 00_scope.md R12, R13, R14).
A finite value is `±mag` units, one unit being 2^-149, the least subnormal; every operation computes the exact result as a
ratio of naturals and rounds once, in `roundMag`. The rules of IEEE 754 are PRESUMED from the standard (log entry 17). -/

namespace Sys2Proof

/-- Bit 31, set when the value is negative. -/
def F32.sign (a : F32) : Bool := a.msb

/-- The biased exponent, bits 30:23. -/
def F32.expo (a : F32) : Nat := a.toNat / 2 ^ 23 % 256

/-- The fraction, bits 22:0. -/
def F32.frac (a : F32) : Nat := a.toNat % 2 ^ 23

def F32.isNaN (a : F32) : Bool := F32.expo a == 255 && F32.frac a != 0

def F32.isInf (a : F32) : Bool := F32.expo a == 255 && F32.frac a == 0

def F32.isFinite (a : F32) : Bool := F32.expo a != 255

/-- The magnitude in units of 2^-149. On an infinity it is 2^277, above every finite magnitude. -/
def F32.mag (a : F32) : Nat :=
  if F32.expo a = 0 then F32.frac a else (2 ^ 23 + F32.frac a) * 2 ^ (F32.expo a - 1)

/-- The signed value in units of 2^-149. -/
def F32.units (a : F32) : Int := if F32.sign a then -(F32.mag a : Int) else (F32.mag a : Int)

/-- The pattern with bits 30:0 given by `m` and bit 31 by `neg`. -/
def F32.ofBits (neg : Bool) (m : Nat) : F32 := BitVec.ofNat 32 (if neg then 2 ^ 31 + m else m)

/-- The bits 30:0 of infinity. -/
def F32.infBits : Nat := 255 * 2 ^ 23

/-- The rounding of R12: bits 30:0 of the binary32 nearest to `n / d` units (d > 0), ties to the even
significand; a value that rounds past the largest finite one gives infinity. -/
def F32.roundMag (n d : Nat) : Nat :=
  let k := (n / d).log2 - 23
  let q := d * 2 ^ k
  let m := n / q
  let r := n % q
  let m' := if q < 2 * r ∨ (2 * r = q ∧ m % 2 = 1) then m + 1 else m
  min (k * 2 ^ 23 + m') F32.infBits

/-- A NaN formed from the free word `w`: its sign and its fraction are `w`'s, the fraction made nonzero. Every NaN is
the image of some `w`. -/
def F32.nanOf (w : Word) : F32 :=
  F32.ofBits w.msb (F32.infBits + (if F32.frac w = 0 then 2 ^ 22 else F32.frac w))

/-- Infinity with the given sign. -/
def F32.inf (neg : Bool) : F32 := F32.ofBits neg F32.infBits

/-- The operand with its sign bit flipped. -/
def F32.neg (a : F32) : F32 := F32.ofBits (!F32.sign a) (a.toNat % 2 ^ 31)

/-- Addition, with `nan` the NaN to answer with where IEEE 754 says the result is one. An exact zero sum is +0, but for the
sum of two negative zeros. -/
def F32.addWith (nan : F32) (a b : F32) : F32 :=
  if F32.isNaN a || F32.isNaN b then nan
  else if F32.isInf a then (if F32.isInf b && F32.sign a != F32.sign b then nan else a)
  else if F32.isInf b then b
  else
    let z := F32.units a + F32.units b
    if z = 0 then F32.ofBits (F32.sign a && F32.sign b) 0
    else F32.ofBits (decide (z < 0)) (F32.roundMag z.natAbs 1)

/-- `a + b` (R12). -/
def F32.add (nu : NanRule) (a b : F32) : F32 := F32.addWith (F32.nanOf (nu .add a b)) a b

/-- `a - b` (R12): the sum of `a` and `b` with its sign flipped. -/
def F32.sub (nu : NanRule) (a b : F32) : F32 := F32.addWith (F32.nanOf (nu .sub a b)) a (F32.neg b)

/-- `a * b` (R12). -/
def F32.mul (nu : NanRule) (a b : F32) : F32 :=
  let s := F32.sign a != F32.sign b
  if F32.isNaN a || F32.isNaN b then F32.nanOf (nu .mul a b)
  else if F32.isInf a || F32.isInf b then
    (if F32.mag a = 0 ∨ F32.mag b = 0 then F32.nanOf (nu .mul a b) else F32.inf s)
  else F32.ofBits s (F32.roundMag (F32.mag a * F32.mag b) (2 ^ 149))

/-- `a / b` (R12). -/
def F32.div (nu : NanRule) (a b : F32) : F32 :=
  let s := F32.sign a != F32.sign b
  if F32.isNaN a || F32.isNaN b then F32.nanOf (nu .div a b)
  else if F32.isInf a then (if F32.isInf b then F32.nanOf (nu .div a b) else F32.inf s)
  else if F32.isInf b then F32.ofBits s 0
  else if F32.mag b = 0 then (if F32.mag a = 0 then F32.nanOf (nu .div a b) else F32.inf s)
  else F32.ofBits s (F32.roundMag (F32.mag a * 2 ^ 149) (F32.mag b))

/-- `f32(n)`: the integer converted, rounded to nearest even (R12). -/
def F32.ofInt (n : Int) : F32 := F32.ofBits (decide (n < 0)) (F32.roundMag (n.natAbs * 2 ^ 149) 1)

/-- `f32(n)` of a natural number. -/
def F32.ofNat (n : Nat) : F32 := F32.ofInt n

/-- The binary32 nearest to `num / den` (den > 0): the value an F literal denotes (R12). -/
def F32.ofRat (num den : Nat) : F32 := F32.ofBits false (F32.roundMag (num * 2 ^ 149) den)

/-- `a < b`, ordered: false when an operand is a NaN (R12). -/
def F32.lt (a b : F32) : Bool := !F32.isNaN a && !F32.isNaN b && decide (F32.units a < F32.units b)

/-- `a <= b`, ordered (R12). -/
def F32.le (a b : F32) : Bool := !F32.isNaN a && !F32.isNaN b && decide (F32.units a ≤ F32.units b)

/-- `a > b`, ordered (R12). -/
def F32.gt (a b : F32) : Bool := F32.lt b a

/-- `a >= b`, ordered (R12). -/
def F32.ge (a b : F32) : Bool := F32.le b a

/-- `clamp(x, lo, hi)` of R13: a NaN saturates to `lo`. -/
def F32.clamp (x lo hi : F32) : F32 :=
  if F32.isNaN x || F32.lt x lo then lo
  else if F32.gt x hi then hi
  else x

/-- `min(a, b)` of R13. -/
def F32.min (a b : F32) : F32 := if F32.le a b then a else b

/-- `floor_int(x)` of R14, for a finite `x >= 0` below 2^24, where it is the integer part. On any other argument, which no
rule gives it, it is the integer part of the magnitude (log entry 13). -/
def F32.floorInt (x : F32) : Nat := F32.mag x / 2 ^ 149

end Sys2Proof
end

