-- ==== Sys2Proof/Config.lean ====
section
/-! DEFINITION. The configuration record `cfg`, fixed at build time (spec 00_scope.md R7, R8), and the fixed constants of the
block (R9). The fields the spec leaves OPEN are opaque here: no proof can see their value, so a theorem about the machine
holds whatever they are. -/

namespace Sys2Proof

/-- The four voices, numbered 0 to 3 in this order (10_state.md R112). -/
inductive Voice where
  | kick
  | snare
  | hat
  | click
  deriving DecidableEq, Repr

/-- The voices that have a pattern row (R203, 43_clock_sequencer.md R603). -/
inductive PatVoice where
  | kick
  | snare
  | hat
  deriving DecidableEq, Repr

/-- One row of DRUMSET_TABLE: frequencies in Hz, decay times in seconds (R8, 20_memory.md R203). -/
structure DrumRow where
  kickF : F32
  kickDec : F32
  snareF : F32
  snareDec : F32
  hatF : F32
  hatDec : F32
  deriving DecidableEq, Repr, Inhabited

/-- The configuration parameters of R8. NUM_SETS is 6, the bound of `drumset`'s argument. -/
structure Cfg where
  /-- FS, in Hz. -/
  fs : Nat
  /-- CAP, in cells. -/
  cap : Nat
  /-- PATTERN_LEN. -/
  patternLen : Nat
  subdivFrac : F32
  fbKnobScale : F32
  dkOff : F32
  dkSpan : F32
  /-- DRUMSET_TABLE. -/
  drumset : Fin 6 → DrumRow
  /-- PATTERN: the entry of a voice at a step. -/
  pattern : PatVoice → Nat → Bool
  voiceGain : Voice → F32
  drumsIntoDelay : Bool
  mixStep : F32
  sin : F32 → F32
  tan : F32 → F32
  tanh : F32 → F32
  /-- CMD_LATENCY, in cycles: no rule reads it (70_reset_and_hazards.md R1011). -/
  cmdLatency : Nat
  /-- The bits of the NaNs that operations produce, for each value of the model's counter
  (93_implementation_defined.md U1; log entries 5 and 6). -/
  nan : Nat → NanRule

namespace Config

/-! The literals that the rules write as decimals. -/

def zero : F32 := 0x00000000#32
def one : F32 := 0x3F800000#32
def two : F32 := 0x40000000#32
def negOne : F32 := 0xBF800000#32
/-- 2^-31, the noise scale (42_drum_voices.md R509). -/
def noiseScale : F32 := 0x30000000#32

/-! The fixed constants of R9, each the binary32 nearest to its decimal. -/

/-- C_DC = 0.001. -/
def cDc : F32 := 0x3A83126F#32
/-- DC_R = 1 - C_DC in binary32 = binary32 0.999. -/
def dcR : F32 := 0x3F7FBE77#32
/-- C_FB = 0.3. -/
def cFb : F32 := 0x3E99999A#32
/-- RES_SNARE = 0.7. -/
def resSnare : F32 := 0x3F333333#32
/-- RES_HAT = 0.7. -/
def resHat : F32 := 0x3F333333#32
/-- ATK_KICK = 0.001 s. -/
def atkKick : F32 := 0x3A83126F#32
/-- ATK_SNARE = 0.001 s. -/
def atkSnare : F32 := 0x3A83126F#32
/-- ATK_HAT = 0.0005 s. -/
def atkHat : F32 := 0x3A03126F#32
/-- ATK_CLICK = 0.0005 s. -/
def atkClick : F32 := 0x3A03126F#32
/-- DEC_CLICK = 0.010 s. -/
def decClick : F32 := 0x3C23D70A#32
/-- F_CLICK = 1000.0 Hz. -/
def fClick : F32 := 0x447A0000#32
/-- DELAY_MIN = 0.010 s. -/
def delayMin : F32 := 0x3C23D70A#32
/-- DELAY_MAX = 0.900 s. -/
def delayMax : F32 := 0x3F666666#32
/-- FB_MAX = 0.85. -/
def fbMax : F32 := 0x3F59999A#32
/-- LFO_MIN = 0.01 Hz. -/
def lfoMin : F32 := 0x3C23D70A#32
/-- LFO_MAX = 10.0 Hz (90_conflicts.md C1). -/
def lfoMax : F32 := 0x41200000#32
/-- DEPTH_MAX = 0.8. -/
def depthMax : F32 := 0x3F4CCCCD#32
/-- BPM_BASE = 60.0. -/
def bpmBase : F32 := 0x42700000#32
/-- BPM_SPAN = 120.0. -/
def bpmSpan : F32 := 0x42F00000#32
/-- FC_MIN = 20.0 Hz. -/
def fcMin : F32 := 0x41A00000#32
/-- FC_MAX_FRAC = 0.45. -/
def fcMaxFrac : F32 := 0x3EE66666#32
/-- TWO_PI (93_implementation_defined.md G5). -/
def twoPi : F32 := 0x40C90FDB#32
/-- PI_F (93_implementation_defined.md G5). -/
def piF : F32 := 0x40490FDB#32

/-! The OPEN parameters of R8. -/

/-- SIN: a total function of its argument, nothing more is known of it (R16). -/
opaque sin : F32 → F32
/-- TAN: a total function of its argument, nothing more is known of it (R16). -/
opaque tan : F32 → F32
/-- The free part of TANH (R16). -/
opaque tanhFree : F32 → F32
/-- The free rows from which DRUMSET_TABLE is formed (92_eei_decisions.md D22). -/
opaque drumRowFree : Fin 6 → DrumRow
/-- PATTERN (92_eei_decisions.md D23). -/
opaque pattern : PatVoice → Nat → Bool
/-- VOICE_GAIN (92_eei_decisions.md D21). -/
opaque voiceGain : Voice → F32
/-- CMD_LATENCY (92_eei_decisions.md D43). -/
opaque cmdLatency : Nat
/-- The free bits of produced NaNs (93_implementation_defined.md U1). -/
opaque freeNan : Nat → FpOp → F32 → F32 → Word

/-- TANH: total (R16); a NaN gives a NaN and an infinity gives 1.0 with its sign (45_sample_pipeline.md R809); a zero gives
that zero (45_sample_pipeline.md R810); everything else is free (DEDUCED, log entry 2). -/
def tanh (x : F32) : F32 :=
  if F32.isNaN x then F32.nanOf (tanhFree x)
  else if F32.isInf x then (if F32.sign x then negOne else one)
  else if F32.mag x = 0 then x
  else tanhFree x

end Config

/-- A row that the spec admits (93_implementation_defined.md U4, 92_eei_decisions.md D22): every value finite, 0 < kick_f < FS
and the filter frequencies above 0. A decay time of 0 or less is legal (U4; log entry 3). -/
def DrumRow.legal (fs : Nat) (r : DrumRow) : Bool :=
  F32.lt Config.zero r.kickF && F32.lt r.kickF (F32.ofNat fs) &&
  F32.lt Config.zero r.snareF && F32.isFinite r.snareF &&
  F32.lt Config.zero r.hatF && F32.isFinite r.hatF &&
  F32.isFinite r.kickDec && F32.isFinite r.snareDec && F32.isFinite r.hatDec

/-- The configurations that the spec admits (R8, R16; 45_sample_pipeline.md R809, R810; 93_implementation_defined.md U4, U7, U11). -/
structure Cfg.Legal (c : Cfg) : Prop where
  fs_ge : 1000 ≤ c.fs
  fs_le : c.fs ≤ 279620
  cap_ge : 2 ≤ c.cap
  cap_le : c.cap ≤ 16777216
  patternLen : c.patternLen = 32 ∨ c.patternLen = 64
  subdivFrac : c.subdivFrac = 0x3E800000#32 ∨ c.subdivFrac = 0x3F000000#32
  fbKnobScale : c.fbKnobScale = 0x3F400000#32 ∨ c.fbKnobScale = 0x3F59999A#32
  drumset : ∀ i, (c.drumset i).legal c.fs = true
  tanh_nan : ∀ x, F32.isNaN x = true → F32.isNaN (c.tanh x) = true
  tanh_inf : ∀ neg, c.tanh (F32.inf neg) = if neg then Config.negOne else Config.one
  tanh_zero : ∀ neg, c.tanh (F32.ofBits neg 0) = F32.ofBits neg 0

namespace Config

/-- A legal row, used only where the free row is not one. -/
def someLegalRow : DrumRow :=
  { kickF := 0x42480000#32, kickDec := one, snareF := fClick, snareDec := one, hatF := fClick, hatDec := one }

/-- DRUMSET_TABLE at the sample rate `fs`: free, but for the legality the spec asks of a row (log entry 3). -/
def drumset (fs : Nat) (i : Fin 6) : DrumRow :=
  if (drumRowFree i).legal fs then drumRowFree i else someLegalRow

/-- The machine's configuration: the value that R8 takes by default for every field that has one, the free constants for
the OPEN fields (DESIGN CHOICE, log entry 1). -/
def cfg : Cfg where
  fs := 48000
  cap := 48000
  patternLen := 32
  subdivFrac := 0x3E800000#32
  fbKnobScale := 0x3F59999A#32
  dkOff := 0x3C23D70A#32
  dkSpan := 0x3EFAE148#32
  drumset := drumset 48000
  pattern := pattern
  voiceGain := voiceGain
  drumsIntoDelay := true
  mixStep := 0x3D4CCCCD#32
  sin := sin
  tan := tan
  tanh := tanh
  cmdLatency := cmdLatency
  nan := freeNan

end Config
end Sys2Proof
end

