-- ==== Sys2Proof/Machine/Derived.lean ====
section
/-! DEFINITION. The values computed from configuration and parameters, which reset and the commands both store
(spec 10_state.md R105; 42_drum_voices.md R503, R505, R507, R508; 43_clock_sequencer.md R600; 70_reset_and_hazards.md R1002).
Their arithmetic forms NaNs at index 0 of the free payloads, so that each is a function of its operands alone (R105, R521;
log entry 5). -/

namespace Sys2Proof.Machine

/-- The payloads of arithmetic outside SAMPLE. -/
def setupNan (cfg : Cfg) : NanRule := cfg.nan 0

/-- f32(FS). -/
def fsF (cfg : Cfg) : F32 := F32.ofNat cfg.fs

/-- f32(CAP). -/
def capF (cfg : Cfg) : F32 := F32.ofNat cfg.cap

/-- BPM of a tempo knob value (R105). -/
def bpmOf (cfg : Cfg) (knob : F32) : F32 :=
  F32.add (setupNan cfg) Config.bpmBase (F32.mul (setupNan cfg) Config.bpmSpan knob)

/-- BASE_DELAY of a delay time (R105). -/
def baseDelayOf (cfg : Cfg) (t : F32) : F32 := F32.mul (setupNan cfg) t (fsF cfg)

/-- LFO_INC, or an OSC_INC, of a frequency: cycles per sample (R105, R505). -/
def phaseIncOf (cfg : Cfg) (f : F32) : F32 := F32.div (setupNan cfg) f (fsF cfg)

/-- EnvInc(t) of R503. -/
def envInc (cfg : Cfg) (t : F32) : F32 :=
  let s := F32.mul (setupNan cfg) t (fsF cfg)
  if F32.gt s Config.one then F32.div (setupNan cfg) Config.one s else Config.one

/-- The SVF damping of a resonance, R508. -/
def svfK (cfg : Cfg) (res : F32) : F32 :=
  F32.sub (setupNan cfg) Config.two (F32.mul (setupNan cfg) Config.two res)

/-- The clamped cutoff `fc` of R507. -/
def svfCutoff (cfg : Cfg) (freq : F32) : F32 :=
  F32.clamp freq Config.fcMin (F32.mul (setupNan cfg) Config.fcMaxFrac (fsF cfg))

/-- The coefficient `g` of R507. -/
def svfG (cfg : Cfg) (freq : F32) : F32 :=
  cfg.tan (F32.div (setupNan cfg) (F32.mul (setupNan cfg) Config.piF (svfCutoff cfg freq)) (fsF cfg))

/-- SVF_A1 of R507. -/
def svfA1 (cfg : Cfg) (freq k : F32) : F32 :=
  let g := svfG cfg freq
  F32.div (setupNan cfg) Config.one
    (F32.add (setupNan cfg) Config.one (F32.mul (setupNan cfg) g (F32.add (setupNan cfg) g k)))

/-- SVF_A2 of R507. -/
def svfA2 (cfg : Cfg) (freq k : F32) : F32 := F32.mul (setupNan cfg) (svfG cfg freq) (svfA1 cfg freq k)

/-- SVF_A3 of R507. -/
def svfA3 (cfg : Cfg) (freq k : F32) : F32 := F32.mul (setupNan cfg) (svfG cfg freq) (svfA2 cfg freq k)

end Sys2Proof.Machine
end

