-- ==== Sys2Proof/Machine/State.lean ====
section
/-! DEFINITION. The state of the block (spec 10_state.md, 20_memory.md R200), plain data, and the state after reset
(70_reset_and_hazards.md R1000 to R1004). -/

namespace Sys2Proof.Machine

/-- ENV_STAGE: the only three values it takes (10_state.md R112, R113). -/
inductive EnvStage where
  | idle
  | attack
  | decay
  deriving DecidableEq, Repr

/-- SEQ_STATE (10_state.md R114). -/
inductive SeqState where
  | manual
  | armed
  | playing
  deriving DecidableEq, Repr

/-- The envelope registers of a voice, offsets +0x0 to +0x3 (10_state.md R112). -/
structure Envelope where
  stage : EnvStage
  level : F32
  ainc : F32
  dinc : F32
  deriving DecidableEq, Repr

/-- An oscillator voice, kick or click: ENV_*, FREQ, OSC_PHASE, OSC_INC (10_state.md R112). -/
structure OscVoice where
  env : Envelope
  freq : F32
  phase : F32
  inc : F32
  deriving DecidableEq, Repr

/-- A filtered-noise voice, snare or hat: ENV_*, FREQ, SVF_* (10_state.md R112). -/
structure FilterVoice where
  env : Envelope
  freq : F32
  ic1 : F32
  ic2 : F32
  a1 : F32
  a2 : F32
  a3 : F32
  k : F32
  deriving DecidableEq, Repr

/-- A memory of binary32 cells: (index, value) pairs, indices strictly rising, no value equal to what an unlisted cell reads
as (20_memory.md R200; log entry 10). -/
abbrev Memory := List (Nat × F32)

/-- Everything the block holds. -/
structure State where
  /-- 0x00 DELAY_TIME (R103). -/
  delayTime : F32
  /-- 0x01 FEEDBACK (R103). -/
  feedback : F32
  /-- 0x02 LFO_RATE (R103). -/
  lfoRate : F32
  /-- 0x03 LFO_DEPTH (R103). -/
  lfoDepth : F32
  /-- 0x04 MIX (R103). -/
  mix : F32
  /-- 0x05 TEMPO_KNOB (R103). -/
  tempoKnob : F32
  /-- 0x06 BPM (R105). -/
  bpm : F32
  /-- 0x07 VOLUME (R103). -/
  volume : F32
  /-- 0x08 BASE_DELAY (R105). -/
  baseDelay : F32
  /-- 0x09 LFO_INC (R105). -/
  lfoInc : F32
  /-- 0x0A DRUMSET (R106). -/
  drumset : Fin 6
  /-- 0x0B CTRL (R107). -/
  ctrl : Word
  /-- STATUS.CHG (R108). -/
  chg : Bool
  /-- STATUS.ERR (R108). -/
  err : Bool
  /-- STATUS.OVF (R108). -/
  ovf : Bool
  /-- 0x0D ERRINFO (R110). -/
  errInfo : Word
  /-- 0x10 WRITE_INDEX (R111). -/
  writeIndex : Nat
  /-- 0x11 DC_X1 (R111). -/
  dcX1 : F32
  /-- 0x12 DC_Y1 (R111). -/
  dcY1 : F32
  /-- 0x13 FB_STATE (R111). -/
  fbState : F32
  /-- 0x14 LFO_PHASE (R111). -/
  lfoPhase : F32
  /-- 0x20 to 0x2C, voice 0 (R112). -/
  kick : OscVoice
  /-- 0x30 to 0x3C, voice 1 (R112). -/
  snare : FilterVoice
  /-- 0x40 to 0x4C, voice 2 (R112). -/
  hat : FilterVoice
  /-- 0x50 to 0x5C, voice 3 (R112). -/
  click : OscVoice
  /-- 0x60 SEQ_STATE (R114). -/
  seqState : SeqState
  /-- 0x61 STEP (R114). -/
  stepIdx : Nat
  /-- 0x62 SUBDIV_COUNT (R114). -/
  subdivCount : F32
  /-- 0x63 BEAT_COUNT (R114). -/
  beatCount : F32
  /-- 0x64 BTN_PREV (R114). -/
  btnPrev : BitVec 3
  /-- 0x65 LFSR (R117). -/
  lfsr : Word
  /-- 0x66 LAST_PRE (R117). -/
  lastPre : F32
  /-- 0x67 LAST_L (R117). -/
  lastL : F32
  /-- 0x68 LAST_WET (R117). -/
  lastWet : F32
  /-- 0x69 LAST_DRUM_BUS (R117). -/
  lastDrumBus : F32
  /-- DBUF (20_memory.md R200). -/
  dbuf : Memory
  /-- The commands that the host has presented and the block has not executed, oldest first (20_memory.md R210; log entry 7). -/
  inbox : List Command
  /-- The response word of the last command (30_encoding.md R300, R304; log entry 8). -/
  rsp : Word
  /-- The model's own counter, the index of the free payloads (log entry 6). -/
  nanTick : Nat
  deriving DecidableEq, Repr

/-- The block never stops: CommandError is recorded and the block goes on (60_exceptions.md R900), and no access can fault
(20_memory.md R202). So no fault exists; having none is safe, for the spec gives each case its effect. -/
inductive Fault where
  deriving DecidableEq, Repr

/-- The reasons a command has no meaning. -/
inductive Refusal where
  /-- The dispatcher raises it for a command without a meaning in the model; safe. No arm does. -/
  | notModelled (mnemonic : String)
  deriving DecidableEq, Repr

/-- The envelope that reset leaves, IDLE at level 0.0 (R1000, R1002). -/
def resetEnvelope (cfg : Cfg) (attack decay : F32) : Envelope :=
  { stage := .idle, level := Config.zero, ainc := envInc cfg attack, dinc := envInc cfg decay }

/-- An oscillator voice after reset (R1000, R1002, 42_drum_voices.md R515). -/
def resetOscVoice (cfg : Cfg) (attack decay freq : F32) : OscVoice :=
  { env := resetEnvelope cfg attack decay, freq, phase := Config.zero, inc := phaseIncOf cfg freq }

/-- A filtered-noise voice after reset (R1000, R1002, 42_drum_voices.md R507, R515). -/
def resetFilterVoice (cfg : Cfg) (attack decay freq res : F32) : FilterVoice :=
  let k := svfK cfg res
  { env := resetEnvelope cfg attack decay, freq, ic1 := Config.zero, ic2 := Config.zero,
    a1 := svfA1 cfg freq k, a2 := svfA2 cfg freq k, a3 := svfA3 cfg freq k, k }

/-- The state that ResetAll leaves in the configuration `cfg` (R1000 to R1002), with no command presented. -/
def State.resetFor (cfg : Cfg) : State where
  delayTime := Config.delayMin
  feedback := Config.zero
  lfoRate := Config.lfoMin
  lfoDepth := Config.zero
  mix := Config.zero
  tempoKnob := Config.zero
  bpm := bpmOf cfg Config.zero
  volume := Config.zero
  baseDelay := baseDelayOf cfg Config.delayMin
  lfoInc := phaseIncOf cfg Config.lfoMin
  drumset := 0
  ctrl := 0#32
  chg := false
  err := false
  ovf := false
  errInfo := 0#32
  writeIndex := 0
  dcX1 := Config.zero
  dcY1 := Config.zero
  fbState := Config.zero
  lfoPhase := Config.zero
  kick := resetOscVoice cfg Config.atkKick (cfg.drumset 0).kickDec (cfg.drumset 0).kickF
  snare := resetFilterVoice cfg Config.atkSnare (cfg.drumset 0).snareDec (cfg.drumset 0).snareF Config.resSnare
  hat := resetFilterVoice cfg Config.atkHat (cfg.drumset 0).hatDec (cfg.drumset 0).hatF Config.resHat
  click := resetOscVoice cfg Config.atkClick Config.decClick Config.fClick
  seqState := .manual
  stepIdx := 0
  subdivCount := Config.zero
  beatCount := Config.zero
  btnPrev := 0#3
  lfsr := 0x00000001#32
  lastPre := Config.zero
  lastL := Config.zero
  lastWet := Config.zero
  lastDrumBus := Config.zero
  dbuf := []
  inbox := []
  rsp := 0#32
  nanTick := 0

/-- The machine after reset (R1000). -/
def State.reset : State := State.resetFor Config.cfg

end Sys2Proof.Machine
end

