-- ==== Sys2Proof/Machine/Flags.lean ====
section
/-! DEFINITION. The status and control bits and the interrupt output (spec 10_state.md R107 to R109, 60_exceptions.md R920). -/

namespace Sys2Proof.Machine

/-- ENV_STAGE as READ_PARAM shows it (10_state.md R112). -/
def EnvStage.code : EnvStage → Word
  | .idle => 0#32
  | .attack => 1#32
  | .decay => 2#32

/-- SEQ_STATE as READ_PARAM shows it (10_state.md R114). -/
def SeqState.code : SeqState → Word
  | .manual => 0#32
  | .armed => 1#32
  | .playing => 2#32

/-- STATUS.MODE: 0 in MANUAL, else 1 (R108). -/
def State.mode (s : State) : Bool := s.seqState != .manual

/-- STATUS.PLAYING (R108). -/
def State.playing (s : State) : Bool := s.seqState == .playing

/-- A flag at its bit of a word. -/
def flagAt (b : Bool) (i : Nat) : Word := if b then 1#32 <<< i else 0#32

/-- The STATUS word: DRUMSET in 2:0, MODE 4, PLAYING 5, CHG 8, ERR 9, OVF 10, the rest 0 (R108). -/
def State.status (s : State) : Word :=
  BitVec.ofNat 32 s.drumset.val ||| flagAt s.mode 4 ||| flagAt s.playing 5 |||
  flagAt s.chg 8 ||| flagAt s.err 9 ||| flagAt s.ovf 10

/-- CTRL.IRQ_EN (R107). -/
def State.irqEn (s : State) : Bool := s.ctrl.getLsbD 0

/-- The IRQ output (R920). -/
def State.irq (s : State) : Bool := s.irqEn && (s.chg || s.err)

/-- CTRL's writable bits: IRQ_EN alone (R107). -/
def ctrlMask : Word := 0x00000001#32

/-- The sticky flags cleared (44_host_commands.md R712). -/
def State.clearSticky (s : State) : State := { s with chg := false, err := false, ovf := false }

end Sys2Proof.Machine
end

