-- ==== Sys2Proof/Machine/Ops.lean ====
section
/-! DEFINITION. The operations that the meanings share: the delay memory (spec 20_memory.md R200, R202), the register space
(R204), the port (30_encoding.md R300, R304), taking the one exception (60_exceptions.md R904, R905), triggering an envelope
(42_drum_voices.md R504) and loading a drum set (R515, R516). -/

namespace Sys2Proof.Machine

/-! Delay memory. -/

/-- What a cell that is not listed reads as: +0.0, which reset writes to every cell (70_reset_and_hazards.md R1001). -/
def Memory.blank : F32 := 0x00000000#32

/-- The cell at an index. -/
def Memory.read : Memory → Nat → F32
  | [], _ => Memory.blank
  | (j, w) :: m, i => if i = j then w else Memory.read m i

/-- The memory with the cell at index `i` holding `v`, in canonical form. -/
def Memory.write : Memory → Nat → F32 → Memory
  | [], i, v => if v = Memory.blank then [] else [(i, v)]
  | (j, w) :: m, i, v =>
    if i < j then (if v = Memory.blank then (j, w) :: m else (i, v) :: (j, w) :: m)
    else if i = j then (if v = Memory.blank then m else (i, v) :: m)
    else (j, w) :: Memory.write m i v

/-- The canonical form: indices strictly rising, no cell listed that reads as an unlisted one. -/
abbrev Memory.wf (m : Memory) : Prop :=
  m.Pairwise (fun a b => a.1 < b.1) ∧ ∀ c ∈ m, c.2 ≠ Memory.blank

/-- `DBUF[i]` of a memory, the index reduced modulo CAP before use (R202). -/
def Memory.cell (cfg : Cfg) (m : Memory) (i : Nat) : F32 := Memory.read m (i % cfg.cap)

/-- `DBUF[i]` (R202). -/
def State.cell (cfg : Cfg) (s : State) (i : Nat) : F32 := Memory.cell cfg s.dbuf i

/-! The port. -/

/-- `rsp <- v` (30_encoding.md R304). -/
def respond (v : Word) (s : State) : State := { s with rsp := v }

/-- The oldest command presented, taken from the port; none when the host has presented none (20_memory.md R210). -/
def fetch (s : State) : Option (Command × State) :=
  match s.inbox with
  | [] => none
  | c :: rest => some (c, { s with inbox := rest })

/-! The exception. -/

/-- The code of a cause (60_exceptions.md R901). -/
def ErrCause.code : ErrCause → Word
  | .illegalOpcode => 1#32
  | .reservedBits => 2#32
  | .argRange => 3#32

/-- The ERRINFO word of a cause on a command word (R905; 10_state.md R110). -/
def errInfoWord (c : ErrCause) (cmd : Word) : Word :=
  ErrCause.code c ||| ((Operand.opc cmd).setWidth 32 <<< 8) ||| ((Operand.arg cmd).setWidth 32 <<< 16)

/-- RecordError of R905, R906: the first error since ERR was cleared is kept, a later one sets OVF. -/
def recordError (c : ErrCause) (cmd : Word) (s : State) : State :=
  { s with
    errInfo := if s.err then s.errInfo else errInfoWord c cmd
    err := true
    ovf := s.ovf || s.err }

/-- Taking CommandError: the recording, a response of 0, and no other effect (R904). -/
def takeError (c : ErrCause) (cmd : Word) (s : State) : State := respond 0#32 (recordError c cmd s)

/-- A command whose ARG lies outside its row's range raises ARG_RANGE (R901). The decoder raises it first; this is the
meaning of such a command given to `exec` directly (log entry 12). -/
def argRangeError (i : Instr) (s : State) : State := takeError .argRange (encode i).cmd s

/-! The voices. -/

/-- EnvTrigger on an envelope: ATTACK from level 0.0 (42_drum_voices.md R504). -/
def Envelope.trigger (e : Envelope) : Envelope := { e with stage := .attack, level := Config.zero }

/-- EnvTrigger if a condition holds. -/
def Envelope.triggerIf (b : Bool) (e : Envelope) : Envelope :=
  { e with stage := if b then .attack else e.stage, level := if b then Config.zero else e.level }

/-- EnvTrigger(v) of R504: the phase, the filter state and the increments stay. -/
def trigger (v : Voice) (s : State) : State :=
  match v with
  | .kick => { s with kick := { s.kick with env := s.kick.env.trigger } }
  | .snare => { s with snare := { s.snare with env := s.snare.env.trigger } }
  | .hat => { s with hat := { s.hat with env := s.hat.env.trigger } }
  | .click => { s with click := { s.click with env := s.click.env.trigger } }

/-- The kick's part of ApplyDrumSet (R515). -/
def OscVoice.load (cfg : Cfg) (freq decay : F32) (v : OscVoice) : OscVoice :=
  { v with freq, inc := phaseIncOf cfg freq, env := { v.env with dinc := envInc cfg decay } }

/-- The snare's and the hat's part of ApplyDrumSet, SvfCoef among it (R507, R515). -/
def FilterVoice.load (cfg : Cfg) (freq decay : F32) (v : FilterVoice) : FilterVoice :=
  { v with
    freq, a1 := svfA1 cfg freq v.k, a2 := svfA2 cfg freq v.k, a3 := svfA3 cfg freq v.k,
    env := { v.env with dinc := envInc cfg decay } }

/-- ApplyDrumSet(i) of R515. -/
def applyDrumSet (cfg : Cfg) (i : Fin 6) (s : State) : State :=
  { s with
    kick := s.kick.load cfg (cfg.drumset i).kickF (cfg.drumset i).kickDec
    snare := s.snare.load cfg (cfg.drumset i).snareF (cfg.drumset i).snareDec
    hat := s.hat.load cfg (cfg.drumset i).hatF (cfg.drumset i).hatDec }

/-- SelectDrumSet(i) of R516: CHG is set when the index changes (10_state.md R109). -/
def selectDrumSet (cfg : Cfg) (i : Fin 6) (s : State) : State :=
  applyDrumSet cfg i { s with chg := s.chg || decide (i ≠ s.drumset), drumset := i }

/-! The register space. -/

/-- An oscillator voice's register at an offset of its block; the filter offsets are n/a and read as 0 (10_state.md R112). -/
def OscVoice.readReg (v : OscVoice) : Nat → Option Word
  | 0x0 => some v.env.stage.code
  | 0x1 => some v.env.level
  | 0x2 => some v.env.ainc
  | 0x3 => some v.env.dinc
  | 0x4 => some v.freq
  | 0x5 => some v.phase
  | 0x6 => some v.inc
  | 0x7 => some 0#32
  | 0x8 => some 0#32
  | 0x9 => some 0#32
  | 0xA => some 0#32
  | 0xB => some 0#32
  | 0xC => some 0#32
  | _ => none

/-- A filtered-noise voice's register at an offset of its block; the oscillator offsets are n/a and read as 0 (R112). -/
def FilterVoice.readReg (v : FilterVoice) : Nat → Option Word
  | 0x0 => some v.env.stage.code
  | 0x1 => some v.env.level
  | 0x2 => some v.env.ainc
  | 0x3 => some v.env.dinc
  | 0x4 => some v.freq
  | 0x5 => some 0#32
  | 0x6 => some 0#32
  | 0x7 => some v.ic1
  | 0x8 => some v.ic2
  | 0x9 => some v.a1
  | 0xA => some v.a2
  | 0xB => some v.a3
  | 0xC => some v.k
  | _ => none

/-- Registers 0x00 to 0x0F (10_state.md R103 to R110). -/
def State.readControlReg (s : State) : Nat → Option Word
  | 0x0 => some s.delayTime
  | 0x1 => some s.feedback
  | 0x2 => some s.lfoRate
  | 0x3 => some s.lfoDepth
  | 0x4 => some s.mix
  | 0x5 => some s.tempoKnob
  | 0x6 => some s.bpm
  | 0x7 => some s.volume
  | 0x8 => some s.baseDelay
  | 0x9 => some s.lfoInc
  | 0xA => some (BitVec.ofNat 32 s.drumset.val)
  | 0xB => some s.ctrl
  | 0xC => some s.status
  | 0xD => some s.errInfo
  | _ => none

/-- Registers 0x10 to 0x1F (10_state.md R111). -/
def State.readDelayReg (s : State) : Nat → Option Word
  | 0x0 => some (BitVec.ofNat 32 s.writeIndex)
  | 0x1 => some s.dcX1
  | 0x2 => some s.dcY1
  | 0x3 => some s.fbState
  | 0x4 => some s.lfoPhase
  | _ => none

/-- Registers 0x60 to 0x6F (10_state.md R114, R117). -/
def State.readSeqReg (s : State) : Nat → Option Word
  | 0x0 => some s.seqState.code
  | 0x1 => some (BitVec.ofNat 32 s.stepIdx)
  | 0x2 => some s.subdivCount
  | 0x3 => some s.beatCount
  | 0x4 => some (s.btnPrev.setWidth 32)
  | 0x5 => some s.lfsr
  | 0x6 => some s.lastPre
  | 0x7 => some s.lastL
  | 0x8 => some s.lastWet
  | 0x9 => some s.lastDrumBus
  | _ => none

/-- The register with a number, or none where R118 reserves the number (20_memory.md R204; 44_host_commands.md R713). -/
def readReg (s : State) (n : BitVec 8) : Option Word :=
  match n.toNat / 16 with
  | 0 => s.readControlReg (n.toNat % 16)
  | 1 => s.readDelayReg (n.toNat % 16)
  | 2 => s.kick.readReg (n.toNat % 16)
  | 3 => s.snare.readReg (n.toNat % 16)
  | 4 => s.hat.readReg (n.toNat % 16)
  | 5 => s.click.readReg (n.toNat % 16)
  | 6 => s.readSeqReg (n.toNat % 16)
  | _ => none

end Sys2Proof.Machine
end

