-- ==== Sys2Proof/Machine/DelayLine.lean ====
section
/-! DEFINITION. DelayProcess (spec 41_delay_line.md R400 to R409), one definition a step, and the five setter commands
(R410 to R414, R418). `nu` gives the payloads of produced NaNs. -/

namespace Sys2Proof.Machine

/-- A phase accumulator's advance: one increment, and one subtraction of 1.0 when it reaches 1.0 (R402;
42_drum_voices.md R505). -/
def phaseNext (nu : NanRule) (phase inc : F32) : F32 :=
  let p := F32.add nu phase inc
  if F32.ge p Config.one then F32.sub nu p Config.one else p

/-- The sine of a phase in cycles: SIN(TWO_PI * phase) (R402; 42_drum_voices.md R505). -/
def sineAt (cfg : Cfg) (nu : NanRule) (phase : F32) : F32 := cfg.sin (F32.mul nu Config.twoPi phase)

/-- Step 1, the DC blocker: its output `xf`, the dry signal, which DC_Y1 keeps (R401). -/
def dcBlock (nu : NanRule) (xin x1 y1 : F32) : F32 := F32.add nu (F32.sub nu xin x1) (F32.mul nu Config.dcR y1)

/-- Step 3, the modulated delay length at an LFO value (R403). -/
def delayLength (cfg : Cfg) (nu : NanRule) (baseDelay depth lfo : F32) : F32 :=
  F32.clamp (F32.mul nu baseDelay (F32.add nu Config.one (F32.mul nu depth lfo)))
    Config.one (F32.ofNat (cfg.cap - 1))

/-- Step 4, the fractional read position at a delay length, wrapped into [0, CAP) (R404). -/
def readPos (cfg : Cfg) (nu : NanRule) (writeIndex : Nat) (len : F32) : F32 :=
  let rp := F32.sub nu (F32.ofNat writeIndex) len
  let rp := if F32.lt rp Config.zero then F32.add nu rp (capF cfg) else rp
  if F32.ge rp (capF cfg) then F32.sub nu rp (capF cfg) else rp

/-- Step 5, the linear interpolation at a read position over the cells of `m`: the delayed sample `d` (R405). -/
def interpolate (cfg : Cfg) (nu : NanRule) (m : Memory) (rp : F32) : F32 :=
  let i0 := F32.floorInt rp
  let frac := F32.sub nu rp (F32.ofNat i0)
  let i1 := (i0 + 1) % cfg.cap
  let b0 := Memory.cell cfg m i0
  let b1 := Memory.cell cfg m i1
  F32.add nu b0 (F32.mul nu frac (F32.sub nu b1 b0))

/-- Step 6, the feedback filter's new state (R406). -/
def feedbackFilter (nu : NanRule) (fbState feedback d : F32) : F32 :=
  F32.add nu fbState (F32.mul nu Config.cFb (F32.sub nu (F32.mul nu feedback d) fbState))

/-- Step 8, the mix of the dry signal `xf` and the wet signal `d` (R408). -/
def wetDryMix (nu : NanRule) (mix xf d : F32) : F32 :=
  F32.add nu (F32.mul nu xf (F32.sub nu Config.one mix)) (F32.mul nu d mix)

/-- DelayProcess(xin) of R409 on the registers and the memory. Its output is `wetDryMix` of MIX, DC_Y1 and LAST_WET as it
leaves them. -/
def delayProcess (cfg : Cfg) (nu : NanRule) (xin : F32) (s : State) : State :=
  let xf := dcBlock nu xin s.dcX1 s.dcY1
  let len := delayLength cfg nu s.baseDelay s.lfoDepth (sineAt cfg nu s.lfoPhase)
  let d := interpolate cfg nu s.dbuf (readPos cfg nu s.writeIndex len)
  let fb := feedbackFilter nu s.fbState s.feedback d
  { s with
    dcX1 := xin
    dcY1 := xf
    lfoPhase := phaseNext nu s.lfoPhase s.lfoInc
    lastL := len
    lastWet := d
    fbState := fb
    dbuf := Memory.write s.dbuf (s.writeIndex % cfg.cap) (F32.add nu xf fb)
    writeIndex := (s.writeIndex + 1) % cfg.cap }

/-- SetDelayTime(t) of R410. -/
def setDelayTime (cfg : Cfg) (t : F32) (s : State) : State :=
  let d := F32.clamp t Config.delayMin Config.delayMax
  { s with delayTime := d, baseDelay := baseDelayOf cfg d }

/-- SetFeedback(g) of R411. -/
def setFeedback (g : F32) (s : State) : State :=
  { s with feedback := F32.clamp g Config.zero Config.fbMax }

/-- SET_DELAY_TIME (R410). -/
def execSetDelayTime (t : F32) (s : State) : Host.Outcome State Fault Refusal :=
  .next (respond 0#32 (setDelayTime Config.cfg t s))

/-- SET_FEEDBACK (R411). -/
def execSetFeedback (g : F32) (s : State) : Host.Outcome State Fault Refusal :=
  .next (respond 0#32 (setFeedback g s))

/-- The registers that SET_LFO_RATE writes (R412). -/
def setLfoRate (cfg : Cfg) (r : F32) (s : State) : State :=
  let f := F32.clamp r Config.lfoMin Config.lfoMax
  { s with lfoRate := f, lfoInc := phaseIncOf cfg f }

/-- SET_LFO_RATE (R412). -/
def execSetLfoRate (r : F32) (s : State) : Host.Outcome State Fault Refusal :=
  .next (respond 0#32 (setLfoRate Config.cfg r s))

/-- SET_LFO_DEPTH (R413). -/
def execSetLfoDepth (d : F32) (s : State) : Host.Outcome State Fault Refusal :=
  .next (respond 0#32 { s with lfoDepth := F32.clamp d Config.zero Config.depthMax })

/-- SET_MIX (R414). -/
def execSetMix (m : F32) (s : State) : Host.Outcome State Fault Refusal :=
  .next (respond 0#32 { s with mix := F32.clamp m Config.zero Config.one })

end Sys2Proof.Machine
end

