-- ==== Sys2Proof/Machine/HostCommands.lean ====
section
/-! DEFINITION. The commands of spec 44_host_commands.md: NOP, the four knobs, READ_STATUS, READ_PARAM, WRITE_CTRL and RESET. -/

namespace Sys2Proof.Machine

/-- A knob operand clamped to [0, 1] (R701). -/
def knobValue (k : F32) : F32 := F32.clamp k Config.zero Config.one

/-- NOP (R700). -/
def execNop (s : State) : Host.Outcome State Fault Refusal := .next (respond 0#32 s)

/-- The registers that KNOB_TEMPO writes (R705). -/
def setTempo (cfg : Cfg) (k : F32) (s : State) : State :=
  { s with tempoKnob := knobValue k, bpm := bpmOf cfg (knobValue k) }

/-- KNOB_TEMPO (R705). -/
def execKnobTempo (k : F32) (s : State) : Host.Outcome State Fault Refusal :=
  .next (respond 0#32 (setTempo Config.cfg k s))

/-- KNOB_VOLUME (R706). -/
def execKnobVolume (k : F32) (s : State) : Host.Outcome State Fault Refusal :=
  .next (respond 0#32 { s with volume := knobValue k })

/-- The delay time of a delay knob value, before SetDelayTime clamps it (R707). -/
def knobDelayTime (cfg : Cfg) (k : F32) : F32 :=
  F32.add (setupNan cfg) cfg.dkOff (F32.mul (setupNan cfg) cfg.dkSpan (knobValue k))

/-- KNOB_DELAY (R707). -/
def execKnobDelay (k : F32) (s : State) : Host.Outcome State Fault Refusal :=
  .next (respond 0#32 (setDelayTime Config.cfg (knobDelayTime Config.cfg k) s))

/-- The feedback gain of a feedback knob value, before SetFeedback clamps it (R708). -/
def knobFeedbackGain (cfg : Cfg) (k : F32) : F32 := F32.mul (setupNan cfg) (knobValue k) cfg.fbKnobScale

/-- KNOB_FEEDBACK (R708). -/
def execKnobFeedback (k : F32) (s : State) : Host.Outcome State Fault Refusal :=
  .next (respond 0#32 (setFeedback (knobFeedbackGain Config.cfg k) s))

/-- READ_STATUS (R712): STATUS as before the command, then CHG, ERR and OVF cleared. -/
def execReadStatus (s : State) : Host.Outcome State Fault Refusal := .next (respond s.status s.clearSticky)

/-- READ_PARAM (R713). -/
def execReadParam (n : BitVec 8) (s : State) : Host.Outcome State Fault Refusal :=
  .next (match readReg s n with
    | some v => respond v s
    | none => argRangeError (.readParam n) s)

/-- WRITE_CTRL (R714). -/
def execWriteCtrl (u : Word) (s : State) : Host.Outcome State Fault Refusal :=
  .next (respond 0#32 { s with ctrl := u &&& ctrlMask })

/-- ResetAll() of 70_reset_and_hazards.md R1000, run as a command: every register and every cell as after power-on. The
commands already presented stay presented, and the model's counter goes on (log entry 16). -/
def resetAll (cfg : Cfg) (s : State) : State :=
  { State.resetFor cfg with inbox := s.inbox, nanTick := s.nanTick }

/-- RESET (R715). -/
def execReset (s : State) : Host.Outcome State Fault Refusal := .next (respond 0#32 (resetAll Config.cfg s))

end Sys2Proof.Machine
end

