-- ==== Sys2Proof/Machine/Sequencer.lean ====
section
/-! DEFINITION. The tempo clock and the step sequencer (spec 43_clock_sequencer.md R600 to R606), and the commands BUTTON
(R620) and ENC_INC (R621). -/

namespace Sys2Proof.Machine

/-- `beat_iv`, samples per beat (R600). -/
def beatInterval (cfg : Cfg) (nu : NanRule) (bpm : F32) : F32 := F32.div nu (F32.ofNat (cfg.fs * 60)) bpm

/-- `sub_iv`, samples per sequencer step (R600). -/
def subInterval (cfg : Cfg) (nu : NanRule) (bpm : F32) : F32 := F32.mul nu (beatInterval cfg nu bpm) cfg.subdivFrac

/-- A counter of R601 or R602 has reached its interval once incremented. -/
def counterWraps (nu : NanRule) (count iv : F32) : Bool := F32.ge (F32.add nu count Config.one) iv

/-- A counter of R601 or R602 after one SAMPLE: incremented, and less one interval if it reached it. -/
def counterNext (nu : NanRule) (count iv : F32) : F32 :=
  let c := F32.add nu count Config.one
  if counterWraps nu count iv then F32.sub nu c iv else c

/-- The beat counter wraps in this SAMPLE, and triggers the click (R601). -/
def beatWraps (cfg : Cfg) (nu : NanRule) (s : State) : Bool :=
  counterWraps nu s.beatCount (beatInterval cfg nu s.bpm)

/-- The subdivision counter wraps in this SAMPLE while PLAYING, so that SeqFire runs (R602). -/
def seqFires (cfg : Cfg) (nu : NanRule) (s : State) : Bool :=
  counterWraps nu s.subdivCount (subInterval cfg nu s.bpm) && s.playing

/-- SeqFire triggers a voice in this SAMPLE: its pattern entry at the current step is set (R603). -/
def stepFires (cfg : Cfg) (nu : NanRule) (v : PatVoice) (s : State) : Bool :=
  seqFires cfg nu s && cfg.pattern v s.stepIdx

/-- SeqFire fires the last step of the pattern in this SAMPLE (R603). -/
def patternEnds (cfg : Cfg) (nu : NanRule) (s : State) : Bool :=
  seqFires cfg nu s && decide (s.stepIdx + 1 = cfg.patternLen)

/-- ClockStep() of R604: the beat counter and the click (R601), then the subdivision counter and SeqFire (R602, R603). -/
def clockStep (cfg : Cfg) (nu : NanRule) (s : State) : State :=
  { s with
    beatCount := counterNext nu s.beatCount (beatInterval cfg nu s.bpm)
    click := { s.click with env := s.click.env.triggerIf (beatWraps cfg nu s) }
    subdivCount := counterNext nu s.subdivCount (subInterval cfg nu s.bpm)
    kick := { s.kick with env := s.kick.env.triggerIf (stepFires cfg nu .kick s) }
    snare := { s.snare with env := s.snare.env.triggerIf (stepFires cfg nu .snare s) }
    hat := { s.hat with env := s.hat.env.triggerIf (stepFires cfg nu .hat s) }
    stepIdx := if patternEnds cfg nu s then 0 else if seqFires cfg nu s then s.stepIdx + 1 else s.stepIdx
    seqState := if patternEnds cfg nu s then .armed else s.seqState }

/-- BTN_PREV with the level of button `b` recorded (10_state.md R114). -/
def recordLevel (b : Nat) (lvl : Bool) (p : BitVec 3) : BitVec 3 :=
  if lvl then p ||| (1#3 <<< b) else p &&& ~~~(1#3 <<< b)

/-- The effect of a rising edge on button `b` (R605, R620). -/
def risingEdge (b : Nat) (s : State) : State :=
  match b with
  | 2 => { s with seqState := (if s.seqState = .manual then .armed else .manual), stepIdx := 0, chg := true }
  | 0 =>
    match s.seqState with
    | .manual => trigger .kick s
    | .armed => { s with seqState := .playing, stepIdx := 0, subdivCount := Config.zero }
    | .playing => s
  | _ =>
    match s.seqState with
    | .manual => trigger .snare s
    | .armed => s
    | .playing => s

/-- A new level of button `b`: it is recorded, and a rising edge has its effect (R620). -/
def buttonLevel (b : Nat) (lvl : Bool) (s : State) : State :=
  let s' := { s with btnPrev := recordLevel b lvl s.btnPrev }
  if !s.btnPrev.getLsbD b && lvl then risingEdge b s' else s'

/-- BUTTON (R620). -/
def execButton (b : BitVec 8) (lvl : Bool) (s : State) : Host.Outcome State Fault Refusal :=
  .next (if Operand.buttonOk b then respond 0#32 (buttonLevel b.toNat lvl s)
    else argRangeError (.button b lvl) s)

/-- `(x[DRUMSET] + inc) mod NUM_SETS`, on mathematical integers, Euclidean (R621; 00_scope.md R11). -/
def encDrumset (i : Fin 6) (inc : Int) : Fin 6 := Fin.ofNat 6 (((i.val : Int) + inc) % 6).toNat

/-- The registers that ENC_INC writes (R621). -/
def encStep (cfg : Cfg) (inc : Int) (s : State) : State :=
  match s.seqState with
  | .manual => selectDrumSet cfg (encDrumset s.drumset inc) s
  | _ =>
    { s with
      mix := F32.clamp
        (F32.add (setupNan cfg) s.mix (F32.mul (setupNan cfg) (F32.ofInt inc) cfg.mixStep))
        Config.zero Config.one }

/-- ENC_INC (R621). -/
def execEncInc (inc : Word) (s : State) : Host.Outcome State Fault Refusal :=
  .next (respond 0#32 (encStep Config.cfg (Operand.s32 inc) s))

end Sys2Proof.Machine
end

