-- ==== Sys2Proof/Machine/Voices.lean ====
section
/-! DEFINITION. The envelope, the filter, the noise source and the four voices (spec 42_drum_voices.md R500 to R514, R519;
45_sample_pipeline.md R802), and the commands TRIGGER (R520) and SET_DRUMSET (R521). -/

namespace Sys2Proof.Machine

/-- The envelope after one EnvStep; the value EnvStep returns is the level BEFORE it (R502). -/
def Envelope.next (nu : NanRule) (e : Envelope) : Envelope :=
  match e.stage with
  | .idle => e
  | .attack =>
    let lvl := F32.add nu e.level e.ainc
    if F32.ge lvl Config.one then { e with level := Config.one, stage := .decay } else { e with level := lvl }
  | .decay =>
    let lvl := F32.sub nu e.level e.dinc
    if F32.le lvl Config.zero then { e with level := Config.zero, stage := .idle } else { e with level := lvl }

/-- VoiceOut of R501, from the source sample and the level that EnvStep returns. -/
def voiceOut (nu : NanRule) (src level gain : F32) : F32 := F32.mul nu (F32.mul nu src level) gain

/-- An oscillator voice's output: OscStep's value times its envelope and its gain (R501, R505, R511, R514). -/
def OscVoice.out (cfg : Cfg) (nu : NanRule) (gain : F32) (v : OscVoice) : F32 :=
  voiceOut nu (sineAt cfg nu v.phase) v.env.level gain

/-- An oscillator voice after OscStep and EnvStep (R502, R505, R519). -/
def OscVoice.next (nu : NanRule) (v : OscVoice) : OscVoice :=
  { v with phase := phaseNext nu v.phase v.inc, env := v.env.next nu }

/-- `v1` of SvfStep, the band output (R506). -/
def FilterVoice.band (nu : NanRule) (vin : F32) (v : FilterVoice) : F32 :=
  let v3 := F32.sub nu vin v.ic2
  F32.add nu (F32.mul nu v.a1 v.ic1) (F32.mul nu v.a2 v3)

/-- `v2` of SvfStep, the low output (R506). -/
def FilterVoice.low (nu : NanRule) (vin : F32) (v : FilterVoice) : F32 :=
  let v3 := F32.sub nu vin v.ic2
  F32.add nu (F32.add nu v.ic2 (F32.mul nu v.a2 v.ic1)) (F32.mul nu v.a3 v3)

/-- The high output of SvfStep (R506). -/
def FilterVoice.high (nu : NanRule) (vin : F32) (v : FilterVoice) : F32 :=
  F32.sub nu (F32.sub nu vin (F32.mul nu v.k (v.band nu vin))) (v.low nu vin)

/-- A filtered-noise voice after SvfStep and EnvStep (R502, R506, R519). -/
def FilterVoice.next (nu : NanRule) (vin : F32) (v : FilterVoice) : FilterVoice :=
  { v with
    ic1 := F32.sub nu (F32.mul nu Config.two (v.band nu vin)) v.ic1
    ic2 := F32.sub nu (F32.mul nu Config.two (v.low nu vin)) v.ic2
    env := v.env.next nu }

/-- The value NoiseStep returns, in [-1.0, 1.0] (R509). -/
def noiseValue (nu : NanRule) (lfsr : Word) : F32 := F32.mul nu (F32.ofInt lfsr.toInt) Config.noiseScale

/-- The LFSR after NoiseStep (R509). -/
def noiseNext (lfsr : Word) : Word :=
  if lfsr.getLsbD 0 then (lfsr >>> 1) ^^^ 0x80200003#32 else lfsr >>> 1

/-- The drum bus: kick, snare band, hat highpass and click, added in this order (R511 to R514;
45_sample_pipeline.md R802). -/
def drumBus (cfg : Cfg) (nu : NanRule) (s : State) : F32 :=
  let n := noiseValue nu s.lfsr
  let k := s.kick.out cfg nu (cfg.voiceGain .kick)
  let sn := voiceOut nu (s.snare.band nu n) s.snare.env.level (cfg.voiceGain .snare)
  let t := voiceOut nu (s.hat.high nu n) s.hat.env.level (cfg.voiceGain .hat)
  let c := s.click.out cfg nu (cfg.voiceGain .click)
  F32.add nu (F32.add nu (F32.add nu k sn) t) c

/-- VoicesStep of 45_sample_pipeline.md R802: every source and every envelope advances once, one noise value feeds both
filters (R510), and LAST_DRUM_BUS takes the bus. -/
def voicesStep (cfg : Cfg) (nu : NanRule) (s : State) : State :=
  let n := noiseValue nu s.lfsr
  { s with
    lastDrumBus := drumBus cfg nu s
    lfsr := noiseNext s.lfsr
    kick := s.kick.next nu
    snare := s.snare.next nu n
    hat := s.hat.next nu n
    click := s.click.next nu }

/-- The voice with a number (10_state.md R112). -/
def voiceOf (v : BitVec 8) : Option Voice :=
  match v.toNat with
  | 0 => some .kick
  | 1 => some .snare
  | 2 => some .hat
  | 3 => some .click
  | _ => none

/-- TRIGGER (R520). -/
def execTrigger (v : BitVec 8) (s : State) : Host.Outcome State Fault Refusal :=
  .next (match voiceOf v with
    | some w => respond 0#32 (trigger w s)
    | none => argRangeError (.trigger v) s)

/-- SET_DRUMSET (R521). -/
def execSetDrumset (i : BitVec 8) (s : State) : Host.Outcome State Fault Refusal :=
  .next (if h : i.toNat < 6 then respond 0#32 (selectDrumSet Config.cfg ⟨i.toNat, h⟩ s)
    else argRangeError (.setDrumset i) s)

end Sys2Proof.Machine
end

