-- ==== Sys2Proof/Machine/Sample.lean ====
section
/-! DEFINITION. SAMPLE, one audio sample period (spec 45_sample_pipeline.md R800 to R806). -/

namespace Sys2Proof.Machine

/-- The delay line's input: with DRUMS_INTO_DELAY the drum bus joins the sample (R803), else it does not (R804). -/
def delayInput (cfg : Cfg) (nu : NanRule) (xin bus : F32) : F32 :=
  if cfg.drumsIntoDelay then F32.add nu xin bus else xin

/-- The mixed value `pre` from DelayProcess's output: with DRUMS_INTO_DELAY it is that output (R803), else the drum bus is
added to it (R804). -/
def mixedOut (cfg : Cfg) (nu : NanRule) (out bus : F32) : F32 :=
  if cfg.drumsIntoDelay then out else F32.add nu out bus

/-- The output sample `y` of R805: the master gain, then the soft saturation. -/
def outputSample (cfg : Cfg) (nu : NanRule) (volume pre : F32) : F32 := cfg.tanh (F32.mul nu volume pre)

/-- The payloads of one SAMPLE: a fresh index for each (log entry 6). -/
def sampleNan (cfg : Cfg) (s : State) : NanRule := cfg.nan (s.nanTick + 1)

/-- SAMPLE with the input `xin` (R800): ClockStep, VoicesStep, MixStep with its one DelayProcess, the output. The record
says which stage writes each register; every other register keeps its value. -/
def sampleStep (cfg : Cfg) (xin : F32) (s : State) : State :=
  let nu := sampleNan cfg s
  let c := clockStep cfg nu s
  let v := voicesStep cfg nu c
  let d := delayProcess cfg nu (delayInput cfg nu xin v.lastDrumBus) v
  let pre := mixedOut cfg nu (wetDryMix nu d.mix d.dcY1 d.lastWet) v.lastDrumBus
  { s with
    beatCount := c.beatCount
    subdivCount := c.subdivCount
    seqState := c.seqState
    stepIdx := c.stepIdx
    lfsr := v.lfsr
    kick := v.kick
    snare := v.snare
    hat := v.hat
    click := v.click
    lastDrumBus := v.lastDrumBus
    dcX1 := d.dcX1
    dcY1 := d.dcY1
    lfoPhase := d.lfoPhase
    lastL := d.lastL
    lastWet := d.lastWet
    fbState := d.fbState
    dbuf := d.dbuf
    writeIndex := d.writeIndex
    lastPre := pre
    rsp := outputSample cfg nu s.volume pre
    nanTick := s.nanTick + 1 }

/-- SAMPLE (R800). -/
def execSample (x : F32) (s : State) : Host.Outcome State Fault Refusal := .next (sampleStep Config.cfg x s)

end Sys2Proof.Machine
end

