-- ==== Sys2Proof/Machine/Dispatch.lean ====
section
/-! DEFINITION. One arm per command of the opcode table (spec 30_encoding.md R306), each a call of its meaning. -/

namespace Sys2Proof.Machine

def exec (i : Instr) (s : State) : Host.Outcome State Fault Refusal :=
  match i with
  | .nop => Sys2Proof.Machine.execNop s
  | .sample x => Sys2Proof.Machine.execSample x s
  | .setDelayTime t => Sys2Proof.Machine.execSetDelayTime t s
  | .setFeedback g => Sys2Proof.Machine.execSetFeedback g s
  | .setLfoRate r => Sys2Proof.Machine.execSetLfoRate r s
  | .setLfoDepth d => Sys2Proof.Machine.execSetLfoDepth d s
  | .setMix m => Sys2Proof.Machine.execSetMix m s
  | .knobTempo k => Sys2Proof.Machine.execKnobTempo k s
  | .knobVolume k => Sys2Proof.Machine.execKnobVolume k s
  | .knobDelay k => Sys2Proof.Machine.execKnobDelay k s
  | .knobFeedback k => Sys2Proof.Machine.execKnobFeedback k s
  | .encInc inc => Sys2Proof.Machine.execEncInc inc s
  | .button b lvl => Sys2Proof.Machine.execButton b lvl s
  | .trigger v => Sys2Proof.Machine.execTrigger v s
  | .setDrumset j => Sys2Proof.Machine.execSetDrumset j s
  | .readStatus => Sys2Proof.Machine.execReadStatus s
  | .readParam n => Sys2Proof.Machine.execReadParam n s
  | .writeCtrl u => Sys2Proof.Machine.execWriteCtrl u s
  | .reset => Sys2Proof.Machine.execReset s

end Sys2Proof.Machine
end

