-- ==== Sys2Proof/Machine/Step.lean ====
section
/-! DEFINITION. One step: one command of the port (spec 20_memory.md R209, R210; 30_encoding.md R305). -/

namespace Sys2Proof.Machine

/-- The oldest presented command is decoded and executed, or its CommandError is taken (60_exceptions.md R900). With no
command presented the state holds (60_exceptions.md R928). -/
def step (s : State) : Host.Outcome State Fault Refusal :=
  match fetch s with
  | none => .next s
  | some (c, s') =>
    match decode c.cmd c.data with
    | .ok i => exec i s'
    | .error e => .next (takeError e c.cmd s')

/-- The host presents the command of these bits ahead of all others: what stands at the port is what the next step runs
(log entry 7). -/
def State.withFetchWord (s : State) (nbits w : Nat) : State :=
  { s with inbox := commandOfBits nbits w :: s.inbox }

end Sys2Proof.Machine
end

