-- ==== Sys2Proof/Safety.lean ====
section
/-! DEFINITION. What counts as a good state of the machine: the invariants that the spec says every command keeps
(spec 10_state.md R103, R105, R107, R110, R112, R119; 60_exceptions.md R920), in the terms that claims use. -/

namespace Sys2Proof.Safety

open Sys2Proof.Machine

/-- `lo <= x <= hi`; false of a NaN. -/
abbrev Between (lo hi x : F32) : Prop := F32.le lo x = true ∧ F32.le x hi = true

/-- A phase in cycles, `0 <= p < 1`; false of a NaN. -/
abbrev PhaseOk (p : F32) : Prop := F32.le Config.zero p = true ∧ F32.lt p Config.one = true

/-- The delay memory is in canonical form and lists only cells that exist; the indices are in range, the LFSR is not 0, the
reserved bits of CTRL and ERRINFO are 0, and OVF is set only while ERR is (R107, R110, R111, R114, R117, R119, R920). -/
structure StructureOk (s : State) : Prop where
  dbuf_wf : Memory.wf s.dbuf
  dbuf_lt : ∀ c ∈ s.dbuf, c.1 < Config.cfg.cap
  writeIndex_lt : s.writeIndex < Config.cfg.cap
  stepIdx_lt : s.stepIdx < Config.cfg.patternLen
  lfsr_ne : s.lfsr ≠ 0#32
  ctrl_reserved : s.ctrl >>> 1 = 0#32
  errInfo_reserved : s.errInfo >>> 24 = 0#32
  ovf_err : s.ovf = true → s.err = true

/-- Every parameter register lies in its legal range (R103). -/
structure ParametersOk (s : State) : Prop where
  delayTime : Between Config.delayMin Config.delayMax s.delayTime
  feedback : Between Config.zero Config.fbMax s.feedback
  lfoRate : Between Config.lfoMin Config.lfoMax s.lfoRate
  lfoDepth : Between Config.zero Config.depthMax s.lfoDepth
  mix : Between Config.zero Config.one s.mix
  tempoKnob : Between Config.zero Config.one s.tempoKnob
  volume : Between Config.zero Config.one s.volume

/-- Every derived register is the function of its source that R105 gives. -/
structure DerivedOk (s : State) : Prop where
  bpm : s.bpm = bpmOf Config.cfg s.tempoKnob
  baseDelay : s.baseDelay = baseDelayOf Config.cfg s.delayTime
  lfoInc : s.lfoInc = phaseIncOf Config.cfg s.lfoRate

/-- A kick or click holds the parameters of a frequency, an attack time and a decay time (R112). -/
structure OscTuned (attack decay freq : F32) (v : OscVoice) : Prop where
  ainc : v.env.ainc = envInc Config.cfg attack
  dinc : v.env.dinc = envInc Config.cfg decay
  freq_eq : v.freq = freq
  inc : v.inc = phaseIncOf Config.cfg freq

/-- A snare or hat holds the parameters of a centre frequency, a resonance, an attack time and a decay time (R112). -/
structure FilterTuned (attack decay freq res : F32) (v : FilterVoice) : Prop where
  ainc : v.env.ainc = envInc Config.cfg attack
  dinc : v.env.dinc = envInc Config.cfg decay
  freq_eq : v.freq = freq
  k : v.k = svfK Config.cfg res
  a1 : v.a1 = svfA1 Config.cfg freq (svfK Config.cfg res)
  a2 : v.a2 = svfA2 Config.cfg freq (svfK Config.cfg res)
  a3 : v.a3 = svfA3 Config.cfg freq (svfK Config.cfg res)

/-- The voices hold the parameters of the active drum set, and the click its fixed ones (R112; 42_drum_voices.md R515). -/
structure VoicesTuned (s : State) : Prop where
  kick : OscTuned Config.atkKick (Config.cfg.drumset s.drumset).kickDec (Config.cfg.drumset s.drumset).kickF s.kick
  snare : FilterTuned Config.atkSnare (Config.cfg.drumset s.drumset).snareDec (Config.cfg.drumset s.drumset).snareF
    Config.resSnare s.snare
  hat : FilterTuned Config.atkHat (Config.cfg.drumset s.drumset).hatDec (Config.cfg.drumset s.drumset).hatF
    Config.resHat s.hat
  click : OscTuned Config.atkClick Config.decClick Config.fClick s.click

/-- Every envelope level is in [0, 1] (R119). -/
structure LevelsOk (s : State) : Prop where
  kick : Between Config.zero Config.one s.kick.env.level
  snare : Between Config.zero Config.one s.snare.env.level
  hat : Between Config.zero Config.one s.hat.env.level
  click : Between Config.zero Config.one s.click.env.level

/-- The LFO's phase and both oscillators' phases are in [0, 1) (R119). -/
structure PhasesOk (s : State) : Prop where
  lfo : PhaseOk s.lfoPhase
  kick : PhaseOk s.kick.phase
  click : PhaseOk s.click.phase

/-- Everything R119 lists, with the facts about the derived and the voice registers that it rests on. ENV_STAGE, SEQ_STATE
and DRUMSET are in range by their types. -/
structure Good (s : State) : Prop where
  structureOk : StructureOk s
  parametersOk : ParametersOk s
  derivedOk : DerivedOk s
  voicesTuned : VoicesTuned s
  levelsOk : LevelsOk s
  phasesOk : PhasesOk s

end Sys2Proof.Safety
end

