-- ==== Sys2Proof/Certificates/Slice0/Obligations.lean ====
section
/-! DEFINITION. The statements for the provers. F values are written as their binary32 patterns: 0x3F800000 is 1.0,
0x3C23D70A 0.01, 0x3F666666 0.9, 0x3F59999A 0.85, 0x3F4CCCCD 0.8, 0x41200000 10.0, 0x3F7FBE77 0.999, 0x3E99999A 0.3,
0x40C90FDB 2 pi, 0x40490FDB pi, 0x40000000 2.0, 0x30000000 2^-31, 0x41A00000 20.0, 0x3EE66666 0.45, 0x42700000 60.0,
0x42F00000 120.0, 0x43340000 180.0, 0x3F000000 0.5, 0x447A0000 1000.0. -/

open Sys2Proof Sys2Proof.Machine Sys2Proof.Safety

/-- Decode and encode agree on every command and every operand (30_encoding.md sections 1 to 4; byte order by
20_memory.md section 2). -/
def Obligations.DecodeInvertsEncode : Prop :=
  ∀ (i : Instr) (rest : List Byte), i.wellFormed = true →
    decode (encode i).cmd (encode i).data = .ok i ∧
    decodeBytes (encodeBytes i ++ rest) = .ok (i, rest)

/-- No two command words mean one command, and no bit of a command word is dropped (30_encoding.md sections 1, 3 and
4). -/
def Obligations.DecodedCommandHasOneWord : Prop :=
  ∀ (cmd data : Word) (i : Instr), decode cmd data = .ok i →
    i.wellFormed = true ∧ (encode i).cmd = cmd ∧
    ∀ cmd' data' : Word, decode cmd' data' = .ok i → cmd' = cmd

/-- R309: the unused bits of `data` are ignored and never checked. -/
def Obligations.UnusedDataBitsAreIgnored : Prop :=
  ∀ cmd d d' : Word,
    (Operand.opc cmd ∈ [0x00#8, 0x50#8, 0xFF#8, 0x40#8, 0x41#8, 0x51#8] → decode cmd d = decode cmd d') ∧
    (Operand.opc cmd = 0x31#8 → d.getLsbD 0 = d'.getLsbD 0 → decode cmd d = decode cmd d') ∧
    (∀ e, decode cmd d = .error e ↔ decode cmd d' = .error e)

/-- R902, R903: the causes each command can raise, and the one reported when several apply. -/
def Obligations.DecodeErrorsExactly : Prop :=
  (∀ (cmd data : Word) (e : ErrCause),
    let opc := (cmd >>> 24).toNat
    let arg := (cmd >>> 16 &&& 0xFF#32).toNat
    let plain := [0x00, 0x01, 0x10, 0x11, 0x12, 0x13, 0x14, 0x20, 0x21, 0x22, 0x23, 0x30, 0x50, 0x52, 0xFF]
    let indexed := [0x31, 0x40, 0x41, 0x51]
    decode cmd data = .error e ↔
      (e = .illegalOpcode ∧ opc ∉ plain ∧ opc ∉ indexed) ∨
      (e = .reservedBits ∧
        (opc ∈ plain ∧ cmd &&& 0x00FFFFFF#32 ≠ 0#32 ∨ opc ∈ indexed ∧ cmd &&& 0x0000FFFF#32 ≠ 0#32)) ∨
      (e = .argRange ∧ cmd &&& 0x0000FFFF#32 = 0#32 ∧
        (opc = 0x40 ∧ 3 < arg ∨ opc = 0x41 ∧ 5 < arg ∨ opc = 0x31 ∧ 2 < arg ∨
         opc = 0x51 ∧ (arg ∈ [0x0E, 0x0F] ∨ 0x15 ≤ arg ∧ arg ≤ 0x1F ∨
           arg ∈ [0x2D, 0x2E, 0x2F, 0x3D, 0x3E, 0x3F, 0x4D, 0x4E, 0x4F, 0x5D, 0x5E, 0x5F] ∨ 0x6A ≤ arg)))) ∧
  ∀ data : Word, decode 0x40050001#32 data = .error .reservedBits

/-- R312: the encoding examples. -/
def Obligations.EncodingExamplesHold : Prop :=
  decode 0x01000000#32 0x3F800000#32 = .ok (.sample 0x3F800000#32) ∧
  decode 0x10000000#32 0x3F000000#32 = .ok (.setDelayTime 0x3F000000#32) ∧
  decode 0x30000000#32 0xFFFFFFFF#32 = .ok (.encInc 0xFFFFFFFF#32) ∧ (0xFFFFFFFF#32).toInt = -1 ∧
  decode 0x31020000#32 0x00000001#32 = .ok (.button 2#8 true) ∧
  decode 0x40020000#32 0x00000000#32 = .ok (.trigger 2#8) ∧
  (∀ d, decode 0x51610000#32 d = .ok (.readParam 0x61#8)) ∧
  (∀ d, decode 0xFF000000#32 d = .ok .reset) ∧
  (∀ d, decode 0x01000001#32 d = .error .reservedBits) ∧
  (∀ d, decode 0x40040000#32 d = .error .argRange) ∧
  (∀ d, decode 0x02000000#32 d = .error .illegalOpcode)

/-- Commands execute in the order presented, one at a time (20_memory.md section 3; 30_encoding.md section 3). The
port is the model's form of the host's stream (log entry 7). -/
def Obligations.StepRunsDecodedCommand : Prop :=
  ∀ (s : State) (c : Command) (rest : List Command) (i : Instr), s.inbox = c :: rest → decode c.cmd c.data = .ok i →
    step s = exec i { s with inbox := rest }

/-- R904, R905: what a CommandError records, and that it has no other effect. -/
def Obligations.StepRecordsCommandError : Prop :=
  (∀ (s : State) (c : Command) (rest : List Command) (e : ErrCause), s.inbox = c :: rest →
    decode c.cmd c.data = .error e →
    let code : Word := match e with | .illegalOpcode => 1#32 | .reservedBits => 2#32 | .argRange => 3#32
    step s = .next { s with
      inbox := rest
      rsp := 0#32
      errInfo := if s.err then s.errInfo
        else code ||| ((c.cmd >>> 24) <<< 8) ||| ((c.cmd >>> 16 &&& 0xFF#32) <<< 16)
      err := true
      ovf := s.ovf || s.err }) ∧
  ∀ s : State, ∃ t, exec .readStatus s = .next t ∧ t.err = false ∧ t.errInfo = s.errInfo

/-- When the host stops issuing commands, the state holds (60_exceptions.md section 5). -/
def Obligations.StepHoldsWithoutCommand : Prop :=
  ∀ s : State, s.inbox = [] → step s = .next s

/-- The block never halts (60_exceptions.md section 1; 45_sample_pipeline.md section 3). -/
def Obligations.NoCommandStopsTheBlock : Prop :=
  (∀ s : State, ∃ t, step s = .next t) ∧ ∀ (i : Instr) (s : State), ∃ t, exec i s = .next t

/-- The state after a command sequence is the left-to-right composition of the commands' effects (20_memory.md section
3). Stated of the model's port (log entry 7); that both runs produce NaNs with the same bits is the model's choice (log
entries 5 and 6). -/
def Obligations.LaterCommandsDoNotAffectAStep : Prop :=
  ∀ (s t : State) (c : Command) (r₁ r₂ : List Command), s.inbox = c :: r₁ → step s = .next t →
    step { s with inbox := c :: r₂ } = .next { t with inbox := r₂ }

/-- R906: OVF is sticky. -/
def Obligations.ErrorFlagsAreSticky : Prop :=
  ∀ (s t : State) (c : Command) (rest : List Command), s.inbox = c :: rest → step s = .next t →
    (∀ e, decode c.cmd c.data = .error e → t.err = true ∧ (t.ovf = true ↔ s.err = true ∨ s.ovf = true)) ∧
    (∀ i, decode c.cmd c.data = .ok i → i = .readStatus ∨ i = .reset → t.err = false ∧ t.ovf = false) ∧
    (∀ i, decode c.cmd c.data = .ok i → i ≠ .readStatus → i ≠ .reset →
      t.err = s.err ∧ t.ovf = s.ovf ∧ t.errInfo = s.errInfo)

/-- R109: CHG is set when DRUMSET or MODE changes value. READ_STATUS and RESET clear it (44_host_commands.md section
2). -/
def Obligations.ChgTracksDrumsetAndMode : Prop :=
  ∀ (i : Instr) (s t : State), i ≠ .readStatus → i ≠ .reset → exec i s = .next t →
    (t.chg = true ↔
      s.chg = true ∨ t.drumset ≠ s.drumset ∨ ¬(t.seqState = .manual ↔ s.seqState = .manual))

/-- R921: the events that raise IRQ, when IRQ_EN is 1. -/
def Obligations.IrqRisesExactlyOnItsEvents : Prop :=
  ∀ (s t : State) (c : Command) (rest : List Command), s.inbox = c :: rest → step s = .next t →
    s.irqEn = true → s.irq = false →
    (t.irq = true ↔
      (∃ e, decode c.cmd c.data = .error e) ∨
      (∃ j, decode c.cmd c.data = .ok (.setDrumset j) ∧ j.toNat ≠ s.drumset.val) ∨
      (∃ inc, decode c.cmd c.data = .ok (.encInc inc) ∧ s.seqState = .manual ∧
        ((s.drumset.val : Int) + inc.toInt) % 6 ≠ (s.drumset.val : Int)) ∨
      (decode c.cmd c.data = .ok (.button 2#8 true) ∧ s.btnPrev.getLsbD 2 = false)) ∧
    ((∃ e, decode c.cmd c.data = .error e) → t.err = true ∧ t.chg = false) ∧
    (t.irq = true → (∃ i, decode c.cmd c.data = .ok i) → t.chg = true ∧ t.err = false)

/-- The IRQ output is a function of CTRL and STATUS (60_exceptions.md section 2). -/
def Obligations.IrqOutputIsItsFormula : Prop :=
  (∀ s : State, s.irq = true ↔ s.ctrl.getLsbD 0 = true ∧ (s.chg = true ∨ s.err = true)) ∧ State.reset.irq = false

/-- Only SAMPLE advances time, and only SAMPLE reaches DBUF (60_exceptions.md section 4; 20_memory.md section 1;
42_drum_voices.md section 6). -/
def Obligations.OnlySampleAdvancesTime : Prop :=
  ∀ (i : Instr) (s t : State), (∀ x, i ≠ .sample x) → i ≠ .reset → exec i s = .next t →
    t.beatCount = s.beatCount ∧ t.lfsr = s.lfsr ∧ t.kick.phase = s.kick.phase ∧ t.click.phase = s.click.phase ∧
    t.snare.ic1 = s.snare.ic1 ∧ t.snare.ic2 = s.snare.ic2 ∧ t.hat.ic1 = s.hat.ic1 ∧ t.hat.ic2 = s.hat.ic2 ∧
    t.dcX1 = s.dcX1 ∧ t.dcY1 = s.dcY1 ∧ t.fbState = s.fbState ∧ t.lfoPhase = s.lfoPhase ∧
    t.writeIndex = s.writeIndex ∧ (∀ n, t.cell Config.cfg n = s.cell Config.cfg n) ∧
    t.lastPre = s.lastPre ∧ t.lastL = s.lastL ∧ t.lastWet = s.lastWet ∧ t.lastDrumBus = s.lastDrumBus ∧
    (t.subdivCount = s.subdivCount ∨ ((∃ b lvl, i = .button b lvl) ∧ t.subdivCount = 0x00000000#32))

/-- R103: the parameter registers, who writes them, their ranges and reset values. -/
def Obligations.ParametersWrittenOnlyByTheirCommands : Prop :=
  ∀ (i : Instr) (s t : State), exec i s = .next t →
    let row (get : State → F32) (lo hi init : F32) (writer : Prop) : Prop :=
      get t = get s ∨ (writer ∧ Between lo hi (get t)) ∨ (i = .reset ∧ get t = init)
    row State.delayTime 0x3C23D70A#32 0x3F666666#32 0x3C23D70A#32
      ((∃ x, i = .setDelayTime x) ∨ ∃ k, i = .knobDelay k) ∧
    row State.feedback 0x00000000#32 0x3F59999A#32 0x00000000#32
      ((∃ g, i = .setFeedback g) ∨ ∃ k, i = .knobFeedback k) ∧
    row State.lfoRate 0x3C23D70A#32 0x41200000#32 0x3C23D70A#32 (∃ r, i = .setLfoRate r) ∧
    row State.lfoDepth 0x00000000#32 0x3F4CCCCD#32 0x00000000#32 (∃ d, i = .setLfoDepth d) ∧
    row State.mix 0x00000000#32 0x3F800000#32 0x00000000#32
      ((∃ m, i = .setMix m) ∨ ((∃ n, i = .encInc n) ∧ s.seqState ≠ .manual)) ∧
    row State.tempoKnob 0x00000000#32 0x3F800000#32 0x00000000#32 (∃ k, i = .knobTempo k) ∧
    row State.volume 0x00000000#32 0x3F800000#32 0x00000000#32 (∃ k, i = .knobVolume k)

/-- The invariants hold at reset (10_state.md section 9; 70_reset_and_hazards.md section 1). -/
def Obligations.ResetIsGood : Prop :=
  Good State.reset

/-- The structural part of the invariants (10_state.md section 9; 20_memory.md section 1; 60_exceptions.md sections 1
and 2). -/
def Obligations.StepKeepsStructureOk : Prop :=
  ∀ s t : State, StructureOk s → step s = .next t → StructureOk t

/-- Each derived register always equals the same function of its source (10_state.md section 3). What bits a NaN has
is the model's choice (log entry 5). -/
def Obligations.StepKeepsDerivedOk : Prop :=
  ∀ s t : State, DerivedOk s → step s = .next t → DerivedOk t

/-- The voice parameter registers follow DRUMSET (10_state.md section 6; 42_drum_voices.md section 7). What bits a NaN
has is the model's choice (log entry 5). -/
def Obligations.StepKeepsVoicesTuned : Prop :=
  ∀ s t : State, VoicesTuned s → step s = .next t → VoicesTuned t

/-- R119: the invariants the block keeps after every command. That OSC_INC and LFO_INC lie in [0, 1) follows from the
voice and derived registers that Good holds. -/
def Obligations.StepKeepsGood : Prop :=
  ∀ s t : State, Good s → step s = .next t → Good t

/-- The phase invariant of 10_state.md section 9, for 41_delay_line.md section 1 and 42_drum_voices.md section 3. -/
def Obligations.PhaseAdvanceStaysInRange : Prop :=
  ∀ (nu : NanRule) (p c : F32), PhaseOk p → PhaseOk c →
    PhaseOk (if F32.ge (F32.add nu p c) 0x3F800000#32 then F32.sub nu (F32.add nu p c) 0x3F800000#32
      else F32.add nu p c) ∧
    phaseNext nu p c = if F32.ge (F32.add nu p c) 0x3F800000#32 then F32.sub nu (F32.add nu p c) 0x3F800000#32
      else F32.add nu p c

/-- Addition and subtraction are IEEE 754 binary32 with rounding to nearest, ties to even (00_scope.md section 5). The
overflow threshold is IEEE 754's (log entry 17). -/
def Obligations.SumsRoundToNearestEven : Prop :=
  ∀ (nu : NanRule) (a b r : F32) (z : Int), F32.isFinite a = true → F32.isFinite b = true →
    (r = F32.add nu a b ∧ z = F32.units a + F32.units b ∨ r = F32.sub nu a b ∧ z = F32.units a - F32.units b) →
    F32.isNaN r = false ∧
    (F32.isInf r = true ↔ (2 ^ 25 - 1) * 2 ^ 252 ≤ |z|) ∧
    (z ≠ 0 → F32.sign r = decide (z < 0)) ∧
    (F32.isFinite r = true → ∀ c : F32, F32.isFinite c = true →
      |F32.units r - z| ≤ |F32.units c - z| ∧
      (|F32.units r - z| = |F32.units c - z| → F32.units c = F32.units r ∨ r.getLsbD 0 = false))

/-- Multiplication and division are IEEE 754 binary32 with rounding to nearest, ties to even (00_scope.md section 5).
The overflow threshold is IEEE 754's (log entry 17). -/
def Obligations.ProductsAndQuotientsRoundToNearestEven : Prop :=
  ∀ (nu : NanRule) (a b r : F32) (z q : Int), F32.isFinite a = true → F32.isFinite b = true →
    (r = F32.mul nu a b ∧ z = F32.units a * F32.units b ∧ q = 2 ^ 149 ∨
      r = F32.div nu a b ∧ F32.units b ≠ 0 ∧ z = F32.units a * 2 ^ 149 ∧ q = F32.units b) →
    F32.isNaN r = false ∧
    (F32.sign r = (F32.sign a != F32.sign b)) ∧
    (F32.isInf r = true ↔ (2 ^ 25 - 1) * 2 ^ 252 * |q| ≤ |z|) ∧
    (F32.isFinite r = true → ∀ c : F32, F32.isFinite c = true →
      |F32.units r * q - z| ≤ |F32.units c * q - z| ∧
      (|F32.units r * q - z| = |F32.units c * q - z| → F32.units c = F32.units r ∨ r.getLsbD 0 = false))

/-- floor_int (00_scope.md section 5), on the values the rules apply it to: those in [0, CAP), CAP being at most 2^24.
-/
def Obligations.FloorIntIsTheLargestIntegerBelow : Prop :=
  ∀ x : F32, F32.le 0x00000000#32 x = true → F32.lt x 0x4B800000#32 = true →
    F32.le (F32.ofNat (F32.floorInt x)) x = true ∧
    ∀ n : Nat, F32.le (F32.ofNat n) x = true → n ≤ F32.floorInt x

/-- clamp and min (00_scope.md section 5). -/
def Obligations.ClampSaturates : Prop :=
  (∀ x lo hi : F32, F32.le lo hi = true →
    (F32.isNaN x = true ∨ F32.lt x lo = true → F32.clamp x lo hi = lo) ∧
    (F32.gt x hi = true → F32.clamp x lo hi = hi) ∧
    (F32.isNaN x = false → F32.lt x lo = false → F32.gt x hi = false → F32.clamp x lo hi = x)) ∧
  ∀ a b : F32, F32.min a b = if F32.le a b then a else b

/-- R415: the read position lies in [0, CAP). -/
def Obligations.ReadPositionInRange : Prop :=
  ∀ (cfg : Cfg) (nu : NanRule) (w : Nat) (len : F32), cfg.Legal → w < cfg.cap →
    Between 0x3F800000#32 (F32.ofNat (cfg.cap - 1)) len →
    let r := F32.sub nu (F32.ofNat w) len
    let r := if F32.lt r 0x00000000#32 then F32.add nu r (F32.ofNat cfg.cap) else r
    let rp := if F32.ge r (F32.ofNat cfg.cap) then F32.sub nu r (F32.ofNat cfg.cap) else r
    readPos cfg nu w len = rp ∧ F32.le 0x00000000#32 rp = true ∧ F32.lt rp (F32.ofNat cfg.cap) = true ∧
    F32.floorInt rp < cfg.cap ∧ (F32.floorInt rp + 1) % cfg.cap < cfg.cap

/-- No SAMPLE reads a value it writes (70_reset_and_hazards.md section 3; 20_memory.md section 3). The second cell can
be the written one also for an L just above 1.0, by rounding (log entry 15). -/
def Obligations.WrittenCellHasNoWeightInItsOwnSample : Prop :=
  ∀ (cfg : Cfg) (nu : NanRule) (w : Nat) (len : F32), cfg.Legal → w < cfg.cap →
    Between 0x3F800000#32 (F32.ofNat (cfg.cap - 1)) len →
    F32.floorInt (readPos cfg nu w len) ≠ w ∧
    ((F32.floorInt (readPos cfg nu w len) + 1) % cfg.cap = w →
      F32.units (F32.sub nu (readPos cfg nu w len) (F32.ofNat (F32.floorInt (readPos cfg nu w len)))) = 0)

/-- DelayProcess (41_delay_line.md section 1). nu gives the bits of produced NaNs, the model's choice (log entry 6). -/
def Obligations.SampleDelayLine : Prop :=
  ∀ (x : F32) (s : State), Memory.wf s.dbuf → s.writeIndex < Config.cfg.cap →
    ∃ t, exec (.sample x) s = .next t ∧
      let nu := sampleNan Config.cfg s
      let capF := F32.ofNat Config.cfg.cap
      let xin := F32.add nu x t.lastDrumBus
      let xf := F32.add nu (F32.sub nu xin s.dcX1) (F32.mul nu 0x3F7FBE77#32 s.dcY1)
      let lfo := Config.cfg.sin (F32.mul nu 0x40C90FDB#32 s.lfoPhase)
      let p := F32.add nu s.lfoPhase s.lfoInc
      let len := F32.clamp
        (F32.mul nu s.baseDelay (F32.add nu 0x3F800000#32 (F32.mul nu s.lfoDepth lfo)))
        0x3F800000#32 (F32.ofNat (Config.cfg.cap - 1))
      let r := F32.sub nu (F32.ofNat s.writeIndex) len
      let r := if F32.lt r 0x00000000#32 then F32.add nu r capF else r
      let rp := if F32.ge r capF then F32.sub nu r capF else r
      let i0 := F32.floorInt rp
      let frac := F32.sub nu rp (F32.ofNat i0)
      let b0 := s.cell Config.cfg i0
      let b1 := s.cell Config.cfg ((i0 + 1) % Config.cfg.cap)
      let d := F32.add nu b0 (F32.mul nu frac (F32.sub nu b1 b0))
      let fb := F32.add nu s.fbState
        (F32.mul nu 0x3E99999A#32 (F32.sub nu (F32.mul nu s.feedback d) s.fbState))
      t.dcX1 = xin ∧ t.dcY1 = xf ∧
      t.lfoPhase = (if F32.ge p 0x3F800000#32 then F32.sub nu p 0x3F800000#32 else p) ∧
      t.lastL = len ∧ t.lastWet = d ∧ t.fbState = fb ∧
      t.writeIndex = (s.writeIndex + 1) % Config.cfg.cap ∧
      ∀ n, n < Config.cfg.cap →
        t.cell Config.cfg n = if n = s.writeIndex then F32.add nu xf fb else s.cell Config.cfg n

/-- Steps 8 of DelayProcess and stages 3 to 5 of SAMPLE (41_delay_line.md section 1; 45_sample_pipeline.md section 2),
with DRUMS_INTO_DELAY at its default true. nu gives the bits of produced NaNs (log entry 6). -/
def Obligations.SampleOutput : Prop :=
  ∀ (x : F32) (s : State), ∃ t, exec (.sample x) s = .next t ∧
    let nu := sampleNan Config.cfg s
    t.lastPre = F32.add nu (F32.mul nu t.dcY1 (F32.sub nu 0x3F800000#32 s.mix)) (F32.mul nu t.lastWet s.mix) ∧
    t.rsp = Config.cfg.tanh (F32.mul nu s.volume t.lastPre)

/-- The two forms of MixStep (45_sample_pipeline.md section 2). nu gives the bits of produced NaNs (log entry 6). -/
def Obligations.MixStepFollowsDrumsIntoDelay : Prop :=
  ∀ (cfg : Cfg) (x : F32) (s : State),
    let nu := sampleNan cfg s
    let t := sampleStep cfg x s
    let out := F32.add nu (F32.mul nu t.dcY1 (F32.sub nu 0x3F800000#32 s.mix)) (F32.mul nu t.lastWet s.mix)
    (cfg.drumsIntoDelay = true → t.dcX1 = F32.add nu x t.lastDrumBus ∧ t.lastPre = out) ∧
    (cfg.drumsIntoDelay = false → t.dcX1 = x ∧ t.lastPre = F32.add nu out t.lastDrumBus)

/-- ClockStep (43_clock_sequencer.md section 1). nu gives the bits of produced NaNs (log entry 6). -/
def Obligations.SampleClockAndSequencer : Prop :=
  ∀ (x : F32) (s : State), ∃ t, exec (.sample x) s = .next t ∧
    let nu := sampleNan Config.cfg s
    let beatIv := F32.div nu (F32.ofNat (Config.cfg.fs * 60)) s.bpm
    let subIv := F32.mul nu beatIv Config.cfg.subdivFrac
    let b := F32.add nu s.beatCount 0x3F800000#32
    let c := F32.add nu s.subdivCount 0x3F800000#32
    t.beatCount = (if F32.ge b beatIv then F32.sub nu b beatIv else b) ∧
    t.subdivCount = (if F32.ge c subIv then F32.sub nu c subIv else c) ∧
    (F32.ge c subIv = true ∧ s.seqState = .playing →
      (s.stepIdx + 1 = Config.cfg.patternLen → t.stepIdx = 0 ∧ t.seqState = .armed) ∧
      (s.stepIdx + 1 ≠ Config.cfg.patternLen → t.stepIdx = s.stepIdx + 1 ∧ t.seqState = .playing)) ∧
    (¬(F32.ge c subIv = true ∧ s.seqState = .playing) → t.stepIdx = s.stepIdx ∧ t.seqState = s.seqState) ∧
    t.chg = s.chg

/-- VoicesStep after ClockStep (42_drum_voices.md sections 1 to 6; 45_sample_pipeline.md section 2). EnvStep and
EnvTrigger are stated by EnvStepFollowsItsStages and TriggerRestartsTheEnvelope. nu gives the bits of produced NaNs
(log entry 6). -/
def Obligations.SampleVoices : Prop :=
  ∀ (x : F32) (s : State), ∃ t, exec (.sample x) s = .next t ∧
    let nu := sampleNan Config.cfg s
    let beatIv := F32.div nu (F32.ofNat (Config.cfg.fs * 60)) s.bpm
    let subIv := F32.mul nu beatIv Config.cfg.subdivFrac
    let fires := F32.ge (F32.add nu s.subdivCount 0x3F800000#32) subIv && decide (s.seqState = .playing)
    let started (b : Bool) (e : Envelope) : Envelope :=
      if b then { e with stage := .attack, level := 0x00000000#32 } else e
    let eKick := started (fires && Config.cfg.pattern .kick s.stepIdx) s.kick.env
    let eSnare := started (fires && Config.cfg.pattern .snare s.stepIdx) s.snare.env
    let eHat := started (fires && Config.cfg.pattern .hat s.stepIdx) s.hat.env
    let eClick := started (F32.ge (F32.add nu s.beatCount 0x3F800000#32) beatIv) s.click.env
    let n := F32.mul nu (F32.ofInt s.lfsr.toInt) 0x30000000#32
    let turn (p c : F32) : F32 :=
      if F32.ge (F32.add nu p c) 0x3F800000#32 then F32.sub nu (F32.add nu p c) 0x3F800000#32 else F32.add nu p c
    let wave (p : F32) : F32 := Config.cfg.sin (F32.mul nu 0x40C90FDB#32 p)
    let band (v : FilterVoice) : F32 := F32.add nu (F32.mul nu v.a1 v.ic1) (F32.mul nu v.a2 (F32.sub nu n v.ic2))
    let low (v : FilterVoice) : F32 :=
      F32.add nu (F32.add nu v.ic2 (F32.mul nu v.a2 v.ic1)) (F32.mul nu v.a3 (F32.sub nu n v.ic2))
    let high (v : FilterVoice) : F32 := F32.sub nu (F32.sub nu n (F32.mul nu v.k (band v))) (low v)
    let filtered (v : FilterVoice) (e : Envelope) : FilterVoice :=
      { v with
        ic1 := F32.sub nu (F32.mul nu 0x40000000#32 (band v)) v.ic1
        ic2 := F32.sub nu (F32.mul nu 0x40000000#32 (low v)) v.ic2
        env := e.next nu }
    let out (src : F32) (e : Envelope) (g : Voice) : F32 :=
      F32.mul nu (F32.mul nu src e.level) (Config.cfg.voiceGain g)
    t.lfsr = (if s.lfsr.getLsbD 0 then (s.lfsr >>> 1) ^^^ 0x80200003#32 else s.lfsr >>> 1) ∧
    t.kick = { s.kick with phase := turn s.kick.phase s.kick.inc, env := eKick.next nu } ∧
    t.snare = filtered s.snare eSnare ∧
    t.hat = filtered s.hat eHat ∧
    t.click = { s.click with phase := turn s.click.phase s.click.inc, env := eClick.next nu } ∧
    t.lastDrumBus =
      F32.add nu (F32.add nu (F32.add nu (out (wave s.kick.phase) eKick .kick) (out (band s.snare) eSnare .snare))
        (out (high s.hat) eHat .hat)) (out (wave s.click.phase) eClick .click)

/-- What SAMPLE does not write (45_sample_pipeline.md sections 1 and 3; 10_state.md section 4). -/
def Obligations.SampleFrame : Prop :=
  ∀ (x : F32) (s : State), ∃ t, exec (.sample x) s = .next t ∧
    t.delayTime = s.delayTime ∧ t.feedback = s.feedback ∧ t.lfoRate = s.lfoRate ∧ t.lfoDepth = s.lfoDepth ∧
    t.mix = s.mix ∧ t.tempoKnob = s.tempoKnob ∧ t.bpm = s.bpm ∧ t.volume = s.volume ∧
    t.baseDelay = s.baseDelay ∧ t.lfoInc = s.lfoInc ∧ t.drumset = s.drumset ∧ t.ctrl = s.ctrl ∧
    t.chg = s.chg ∧ t.err = s.err ∧ t.ovf = s.ovf ∧ t.errInfo = s.errInfo ∧ t.btnPrev = s.btnPrev ∧
    t.inbox = s.inbox

/-- The idle behaviour from reset (45_sample_pipeline.md section 3), in any legal configuration: the envelopes, the drum
bus, the delay line's values and the response of each SAMPLE; the noise, the phases, the filters and the counters run on.
That TANH of a zero is that zero is a clause of Cfg.Legal (log entry 2). SIN, TAN and VOICE_GAIN may give values that are
not finite, so the bus can be a NaN in place of a zero (log entry 2). What the drum bus is once the click sounds depends on
SIN. -/
def Obligations.IdleFromReset : Prop :=
  (∀ (x : F32) (s : State), exec (.sample x) s = .next (sampleStep Config.cfg x s)) ∧ Config.cfg.Legal ∧
  ∀ cfg : Cfg, cfg.Legal →
    (∀ (x : F32) (s : State), s.volume = 0x00000000#32 → F32.isFinite (sampleStep cfg x s).lastPre = true →
      (sampleStep cfg x s).rsp = if F32.sign (sampleStep cfg x s).lastPre then 0x80000000#32 else 0x00000000#32) ∧
    (cfg.fs = 48000 →
      let after (n : Nat) : State := (sampleStep cfg 0x00000000#32)^[n] (State.resetFor cfg)
      let idle (e : Envelope) : Prop := e.stage = .idle ∧ e.level = 0x00000000#32
      (∀ n, n ≤ 48000 → idle (after n).kick.env ∧ idle (after n).snare.env ∧ idle (after n).hat.env) ∧
      (∀ n, n < 48000 → idle (after n).click.env ∧ (after n).beatCount = F32.ofNat n) ∧
      ((after 48000).click.env.stage = .attack ∧ (after 48000).click.env.level = 0x3D2AAAAA#32 ∧
        (after 48000).beatCount = 0x00000000#32) ∧
      (∀ n, n ≤ 48000 →
        F32.isNaN (after n).lastDrumBus = true ∨ (after n).lastDrumBus = 0x00000000#32 ∨
          (after n).lastDrumBus = 0x80000000#32) ∧
      ∀ n, n ≤ 48000 → (∀ k, k ≤ n → F32.isNaN (after k).lastDrumBus = false) →
        (after n).lastPre = 0x00000000#32 ∧ (1 ≤ n → (after n).rsp = 0x00000000#32) ∧ (after n).dcX1 = 0x00000000#32 ∧
        ∀ m, (after n).cell cfg m = 0x00000000#32)

/-- The next SAMPLE does not depend on the output (45_sample_pipeline.md section 2). That both runs produce NaNs with the
same bits, those of sampleNan, is the model's choice (log entry 6). -/
def Obligations.OutputDoesNotReachTheNextState : Prop :=
  ∀ (x v r : F32) (s t t' : State), exec (.sample x) s = .next t →
    exec (.sample x) { s with volume := v, rsp := r } = .next t' →
    t' = { t with volume := v, rsp := t'.rsp } ∧
    t'.rsp = Config.cfg.tanh (F32.mul (sampleNan Config.cfg s) v t.lastPre)

/-- Each SAMPLE writes exactly one cell and advances the index (20_memory.md section 1; 41_delay_line.md section 1;
45_sample_pipeline.md section 3). -/
def Obligations.SamplesWriteConsecutiveCells : Prop :=
  ∀ (xs : List F32) (s : State), s.writeIndex < Config.cfg.cap →
    let t := xs.foldl (fun u x => match exec (.sample x) u with | .next u' => u' | _ => u) s
    t.writeIndex = (s.writeIndex + xs.length) % Config.cfg.cap ∧
    ∀ n, n < Config.cfg.cap → (∀ k, k < xs.length → n ≠ (s.writeIndex + k) % Config.cfg.cap) →
      t.cell Config.cfg n = s.cell Config.cfg n

/-- The model's form of DBUF (20_memory.md section 1; log entry 10). -/
def Obligations.CanonicalMemoriesAreEqualData : Prop :=
  ∀ m₁ m₂ : Memory, Memory.wf m₁ → Memory.wf m₂ → (∀ n, Memory.read m₁ n = Memory.read m₂ n) → m₁ = m₂

/-- EnvStep (42_drum_voices.md section 2). -/
def Obligations.EnvStepFollowsItsStages : Prop :=
  ∀ (nu : NanRule) (e : Envelope),
    (e.stage = .idle → e.next nu = e) ∧
    (e.stage = .attack → F32.ge (F32.add nu e.level e.ainc) 0x3F800000#32 = true →
      e.next nu = { e with level := 0x3F800000#32, stage := .decay }) ∧
    (e.stage = .attack → F32.ge (F32.add nu e.level e.ainc) 0x3F800000#32 = false →
      e.next nu = { e with level := F32.add nu e.level e.ainc }) ∧
    (e.stage = .decay → F32.le (F32.sub nu e.level e.dinc) 0x00000000#32 = true →
      e.next nu = { e with level := 0x00000000#32, stage := .idle }) ∧
    (e.stage = .decay → F32.le (F32.sub nu e.level e.dinc) 0x00000000#32 = false →
      e.next nu = { e with level := F32.sub nu e.level e.dinc })

/-- The attack ramp (42_drum_voices.md section 8). -/
def Obligations.AttackIsTheSumOfIncrements : Prop :=
  ∀ (nu : NanRule) (e : Envelope) (k : Nat),
    let sum (j : Nat) : F32 := (fun l => F32.add nu l e.ainc)^[j] 0x00000000#32
    (∀ j, 1 ≤ j → j ≤ k → F32.ge (sum j) 0x3F800000#32 = false) →
    (Envelope.next nu)^[k] e.trigger = { e with stage := .attack, level := sum k } ∧
    (F32.ge (sum (k + 1)) 0x3F800000#32 = true →
      (Envelope.next nu)^[k + 1] e.trigger = { e with stage := .decay, level := 0x3F800000#32 })

/-- NoiseStep (42_drum_voices.md section 5). -/
def Obligations.NoiseValueInRange : Prop :=
  (∀ (nu : NanRule) (w : Word), Between 0xBF800000#32 0x3F800000#32 (noiseValue nu w)) ∧
  ∀ w : Word, w ≠ 0#32 → noiseNext w ≠ 0#32

/-- R503: EnvInc and the fixed values. The bits of a NaN are the model's (log entry 5). -/
def Obligations.EnvIncFollowsItsRule : Prop :=
  (∀ t : F32,
    let samples := F32.mul (setupNan Config.cfg) t (F32.ofNat Config.cfg.fs)
    (F32.gt samples 0x3F800000#32 = true → envInc Config.cfg t = F32.div (setupNan Config.cfg) 0x3F800000#32 samples) ∧
    (F32.gt samples 0x3F800000#32 = false → envInc Config.cfg t = 0x3F800000#32)) ∧
  Config.cfg.fs = 48000 ∧
  State.reset.kick.env.ainc = 0x3CAAAAAA#32 ∧ State.reset.snare.env.ainc = 0x3CAAAAAA#32 ∧
  State.reset.hat.env.ainc = 0x3D2AAAAA#32 ∧ State.reset.click.env.ainc = 0x3D2AAAAA#32 ∧
  State.reset.click.env.dinc = 0x3B088889#32 ∧
  ∀ (i : Instr) (s t : State), i ≠ .reset → exec i s = .next t →
    t.kick.env.ainc = s.kick.env.ainc ∧ t.snare.env.ainc = s.snare.env.ainc ∧
    t.hat.env.ainc = s.hat.env.ainc ∧ t.click.env.ainc = s.click.env.ainc ∧ t.click.env.dinc = s.click.env.dinc

/-- R504: EnvTrigger, as the command TRIGGER runs it. -/
def Obligations.TriggerRestartsTheEnvelope : Prop :=
  ∀ s : State,
    exec (.trigger 0#8) s = .next { s with
      kick := { s.kick with env := { s.kick.env with stage := .attack, level := 0x00000000#32 } }, rsp := 0#32 } ∧
    exec (.trigger 1#8) s = .next { s with
      snare := { s.snare with env := { s.snare.env with stage := .attack, level := 0x00000000#32 } }, rsp := 0#32 } ∧
    exec (.trigger 2#8) s = .next { s with
      hat := { s.hat with env := { s.hat.env with stage := .attack, level := 0x00000000#32 } }, rsp := 0#32 } ∧
    exec (.trigger 3#8) s = .next { s with
      click := { s.click with env := { s.click.env with stage := .attack, level := 0x00000000#32 } }, rsp := 0#32 }

/-- R515, R516: ApplyDrumSet and SelectDrumSet, as SET_DRUMSET runs them. EnvInc and SvfCoef are stated by
EnvIncFollowsItsRule and SvfCoefFollowsItsRule. The bits of a NaN are the model's (log entry 5). -/
def Obligations.SetDrumsetLoadsTheRow : Prop :=
  ∀ (j : BitVec 8) (s : State) (h : j.toNat < 6),
    let row := Config.cfg.drumset ⟨j.toNat, h⟩
    exec (.setDrumset j) s = .next { s with
      chg := s.chg || decide (j.toNat ≠ s.drumset.val)
      drumset := ⟨j.toNat, h⟩
      kick := { s.kick with
        freq := row.kickF
        inc := F32.div (setupNan Config.cfg) row.kickF (F32.ofNat Config.cfg.fs)
        env := { s.kick.env with dinc := envInc Config.cfg row.kickDec } }
      snare := { s.snare with
        freq := row.snareF
        a1 := svfA1 Config.cfg row.snareF s.snare.k
        a2 := svfA2 Config.cfg row.snareF s.snare.k
        a3 := svfA3 Config.cfg row.snareF s.snare.k
        env := { s.snare.env with dinc := envInc Config.cfg row.snareDec } }
      hat := { s.hat with
        freq := row.hatF
        a1 := svfA1 Config.cfg row.hatF s.hat.k
        a2 := svfA2 Config.cfg row.hatF s.hat.k
        a3 := svfA3 Config.cfg row.hatF s.hat.k
        env := { s.hat.env with dinc := envInc Config.cfg row.hatDec } }
      rsp := 0#32 }

/-- SvfCoef and SVF_K (42_drum_voices.md section 4). The bits of a NaN are the model's (log entry 5). -/
def Obligations.SvfCoefFollowsItsRule : Prop :=
  (∀ f k : F32,
    let nu := setupNan Config.cfg
    let fsF := F32.ofNat Config.cfg.fs
    let fc := F32.clamp f 0x41A00000#32 (F32.mul nu 0x3EE66666#32 fsF)
    let g := Config.cfg.tan (F32.div nu (F32.mul nu 0x40490FDB#32 fc) fsF)
    let a1 := F32.div nu 0x3F800000#32 (F32.add nu 0x3F800000#32 (F32.mul nu g (F32.add nu g k)))
    svfA1 Config.cfg f k = a1 ∧ svfA2 Config.cfg f k = F32.mul nu g a1 ∧
    svfA3 Config.cfg f k = F32.mul nu g (F32.mul nu g a1)) ∧
  State.reset.snare.k = 0x3F19999A#32 ∧ State.reset.hat.k = 0x3F19999A#32

/-- Selecting the current set re-applies the same constants (42_drum_voices.md section 9). That a NaN among them gets the
same bits again is the model's choice (log entry 5). -/
def Obligations.SelectingTheCurrentSetChangesNothing : Prop :=
  ∀ s : State, VoicesTuned s → exec (.setDrumset (BitVec.ofNat 8 s.drumset.val)) s = .next { s with rsp := 0#32 }

/-- Toggling to MANUAL halts all further triggers, and envelopes already triggered keep running (43_clock_sequencer.md
section 2). -/
def Obligations.StoppedSequencerFiresNothing : Prop :=
  ∀ (x : F32) (s : State), s.seqState ≠ .playing → ∃ t, exec (.sample x) s = .next t ∧
    t.seqState = s.seqState ∧ t.stepIdx = s.stepIdx ∧
    t.kick.env = s.kick.env.next (sampleNan Config.cfg s) ∧
    t.snare.env = s.snare.env.next (sampleNan Config.cfg s) ∧
    t.hat.env = s.hat.env.next (sampleNan Config.cfg s)

/-- BUTTON and the transition table (43_clock_sequencer.md sections 2 and 3). -/
def Obligations.ButtonDrivesTheSequencer : Prop :=
  ∀ (b : BitVec 8) (lvl : Bool) (s : State), b.toNat ≤ 2 → ∃ t, exec (.button b lvl) s = .next t ∧
    (∀ n, n < 3 → t.btnPrev.getLsbD n = if n = b.toNat then lvl else s.btnPrev.getLsbD n) ∧
    let edge := s.btnPrev.getLsbD b.toNat = false ∧ lvl = true
    (¬edge → t = { s with btnPrev := t.btnPrev, rsp := 0#32 }) ∧
    (edge → b = 2#8 → t = { s with
      btnPrev := t.btnPrev, rsp := 0#32, stepIdx := 0, chg := true
      seqState := if s.seqState = .manual then .armed else .manual }) ∧
    (edge → b = 0#8 → s.seqState = .manual → t = { s with
      btnPrev := t.btnPrev, rsp := 0#32
      kick := { s.kick with env := { s.kick.env with stage := .attack, level := 0x00000000#32 } } }) ∧
    (edge → b = 0#8 → s.seqState = .armed → t = { s with
      btnPrev := t.btnPrev, rsp := 0#32, seqState := .playing, stepIdx := 0, subdivCount := 0x00000000#32 }) ∧
    (edge → b = 0#8 → s.seqState = .playing → t = { s with btnPrev := t.btnPrev, rsp := 0#32 }) ∧
    (edge → b = 1#8 → s.seqState = .manual → t = { s with
      btnPrev := t.btnPrev, rsp := 0#32
      snare := { s.snare with env := { s.snare.env with stage := .attack, level := 0x00000000#32 } } }) ∧
    (edge → b = 1#8 → s.seqState ≠ .manual → t = { s with btnPrev := t.btnPrev, rsp := 0#32 })

/-- ENC_INC (43_clock_sequencer.md section 3). The bits of a NaN are the model's (log entry 5). At inc = 0 and MIX = -0.0
the spec's pseudocode and its corner case differ; that +0.0 is stored there is the model's choice (log entry 18). -/
def Obligations.EncIncTurnsTheSetOrTheMix : Prop :=
  (∀ (inc : Word) (s : State), s.seqState = .manual → ∃ t, exec (.encInc inc) s = .next t ∧
    (t.drumset.val : Int) = ((s.drumset.val : Int) + inc.toInt) % 6 ∧
    exec (.setDrumset (BitVec.ofNat 8 t.drumset.val)) s = .next t) ∧
  ∀ (inc : Word) (s : State), s.seqState ≠ .manual →
    exec (.encInc inc) s = .next { s with
      mix := F32.clamp
        (F32.add (setupNan Config.cfg) s.mix (F32.mul (setupNan Config.cfg) (F32.ofInt inc.toInt) Config.cfg.mixStep))
        0x00000000#32 0x3F800000#32
      rsp := 0#32 }

/-- The delay-line setters (41_delay_line.md section 3). -/
def Obligations.DelaySettersClampAndStore : Prop :=
  ∀ (x : F32) (s : State),
    (let d := F32.clamp x 0x3C23D70A#32 0x3F666666#32
     exec (.setDelayTime x) s = .next { s with
      delayTime := d, baseDelay := F32.mul (setupNan Config.cfg) d (F32.ofNat Config.cfg.fs), rsp := 0#32 }) ∧
    exec (.setFeedback x) s = .next { s with feedback := F32.clamp x 0x00000000#32 0x3F59999A#32, rsp := 0#32 } ∧
    (let f := F32.clamp x 0x3C23D70A#32 0x41200000#32
     exec (.setLfoRate x) s = .next { s with
      lfoRate := f, lfoInc := F32.div (setupNan Config.cfg) f (F32.ofNat Config.cfg.fs), rsp := 0#32 }) ∧
    exec (.setLfoDepth x) s = .next { s with lfoDepth := F32.clamp x 0x00000000#32 0x3F4CCCCD#32, rsp := 0#32 } ∧
    exec (.setMix x) s = .next { s with mix := F32.clamp x 0x00000000#32 0x3F800000#32, rsp := 0#32 }

/-- The knobs (44_host_commands.md sections 1 and 2). -/
def Obligations.KnobsClampAndMap : Prop :=
  ∀ (k : F32) (s : State),
    let nu := setupNan Config.cfg
    let kc := F32.clamp k 0x00000000#32 0x3F800000#32
    let d := F32.clamp (F32.add nu Config.cfg.dkOff (F32.mul nu Config.cfg.dkSpan kc)) 0x3C23D70A#32 0x3F666666#32
    exec (.knobTempo k) s = .next { s with
      tempoKnob := kc, bpm := F32.add nu 0x42700000#32 (F32.mul nu 0x42F00000#32 kc), rsp := 0#32 } ∧
    exec (.knobVolume k) s = .next { s with volume := kc, rsp := 0#32 } ∧
    exec (.knobDelay k) s = .next { s with
      delayTime := d, baseDelay := F32.mul nu d (F32.ofNat Config.cfg.fs), rsp := 0#32 } ∧
    exec (.knobFeedback k) s = .next { s with
      feedback := F32.clamp (F32.mul nu kc Config.cfg.fbKnobScale) 0x00000000#32 0x3F59999A#32, rsp := 0#32 }

/-- The knob ranges with the default mapping (44_host_commands.md section 2; 43_clock_sequencer.md section 1). -/
def Obligations.TempoAndDelayKnobsReachTheirRanges : Prop :=
  ∀ s : State,
    (∀ k : F32, ∃ t, exec (.knobTempo k) s = .next t ∧ Between 0x42700000#32 0x43340000#32 t.bpm ∧
      (k = 0x00000000#32 → t.bpm = 0x42700000#32) ∧ (k = 0x3F800000#32 → t.bpm = 0x43340000#32)) ∧
    ∀ k : F32, ∃ t, exec (.knobDelay k) s = .next t ∧ Between 0x3C23D70A#32 0x3F000000#32 t.delayTime ∧
      (k = 0x00000000#32 → t.delayTime = 0x3C23D70A#32) ∧ (k = 0x3F800000#32 → t.delayTime = 0x3F000000#32)

/-- READ_STATUS and the STATUS register (44_host_commands.md section 2; 10_state.md section 4). -/
def Obligations.ReadStatusAnswersAndClears : Prop :=
  ∀ s : State, ∃ w : Word,
    exec .readStatus s = .next { s with chg := false, err := false, ovf := false, rsp := w } ∧
    (w &&& 0x7#32).toNat = s.drumset.val ∧ w.getLsbD 3 = false ∧
    (w.getLsbD 4 = true ↔ s.seqState ≠ .manual) ∧ (w.getLsbD 5 = true ↔ s.seqState = .playing) ∧
    w.getLsbD 6 = false ∧ w.getLsbD 7 = false ∧
    w.getLsbD 8 = s.chg ∧ w.getLsbD 9 = s.err ∧ w.getLsbD 10 = s.ovf ∧ w >>> 11 = 0#32

/-- READ_PARAM and the register map (44_host_commands.md section 2; 10_state.md sections 2 to 8). -/
def Obligations.ReadParamAnswersTheRegister : Prop :=
  ∀ s : State,
    let stage (e : EnvStage) : Word := match e with | .idle => 0#32 | .attack => 1#32 | .decay => 2#32
    let sequencer (q : SeqState) : Word := match q with | .manual => 0#32 | .armed => 1#32 | .playing => 2#32
    let controlRegs : List (BitVec 8 × Word) := [(0x00#8, s.delayTime), (0x01#8, s.feedback), (0x02#8, s.lfoRate),
      (0x03#8, s.lfoDepth), (0x04#8, s.mix), (0x05#8, s.tempoKnob), (0x06#8, s.bpm), (0x07#8, s.volume),
      (0x08#8, s.baseDelay), (0x09#8, s.lfoInc), (0x0A#8, BitVec.ofNat 32 s.drumset.val), (0x0B#8, s.ctrl),
      (0x0C#8, s.status), (0x0D#8, s.errInfo)]
    let delayLineRegs : List (BitVec 8 × Word) := [(0x10#8, BitVec.ofNat 32 s.writeIndex), (0x11#8, s.dcX1),
      (0x12#8, s.dcY1), (0x13#8, s.fbState), (0x14#8, s.lfoPhase)]
    let kickRegs : List (BitVec 8 × Word) := [(0x20#8, stage s.kick.env.stage), (0x21#8, s.kick.env.level),
      (0x22#8, s.kick.env.ainc), (0x23#8, s.kick.env.dinc), (0x24#8, s.kick.freq), (0x25#8, s.kick.phase),
      (0x26#8, s.kick.inc), (0x27#8, 0#32), (0x28#8, 0#32), (0x29#8, 0#32), (0x2A#8, 0#32), (0x2B#8, 0#32),
      (0x2C#8, 0#32)]
    let snareRegs : List (BitVec 8 × Word) := [(0x30#8, stage s.snare.env.stage), (0x31#8, s.snare.env.level),
      (0x32#8, s.snare.env.ainc), (0x33#8, s.snare.env.dinc), (0x34#8, s.snare.freq), (0x35#8, 0#32), (0x36#8, 0#32),
      (0x37#8, s.snare.ic1), (0x38#8, s.snare.ic2), (0x39#8, s.snare.a1), (0x3A#8, s.snare.a2), (0x3B#8, s.snare.a3),
      (0x3C#8, s.snare.k)]
    let hatRegs : List (BitVec 8 × Word) := [(0x40#8, stage s.hat.env.stage), (0x41#8, s.hat.env.level),
      (0x42#8, s.hat.env.ainc), (0x43#8, s.hat.env.dinc), (0x44#8, s.hat.freq), (0x45#8, 0#32), (0x46#8, 0#32),
      (0x47#8, s.hat.ic1), (0x48#8, s.hat.ic2), (0x49#8, s.hat.a1), (0x4A#8, s.hat.a2), (0x4B#8, s.hat.a3),
      (0x4C#8, s.hat.k)]
    let clickRegs : List (BitVec 8 × Word) := [(0x50#8, stage s.click.env.stage), (0x51#8, s.click.env.level),
      (0x52#8, s.click.env.ainc), (0x53#8, s.click.env.dinc), (0x54#8, s.click.freq), (0x55#8, s.click.phase),
      (0x56#8, s.click.inc), (0x57#8, 0#32), (0x58#8, 0#32), (0x59#8, 0#32), (0x5A#8, 0#32), (0x5B#8, 0#32),
      (0x5C#8, 0#32)]
    let clockRegs : List (BitVec 8 × Word) := [(0x60#8, sequencer s.seqState), (0x61#8, BitVec.ofNat 32 s.stepIdx),
      (0x62#8, s.subdivCount), (0x63#8, s.beatCount), (0x64#8, BitVec.ofNat 32 s.btnPrev.toNat), (0x65#8, s.lfsr),
      (0x66#8, s.lastPre), (0x67#8, s.lastL), (0x68#8, s.lastWet), (0x69#8, s.lastDrumBus)]
    ∀ r ∈ controlRegs ++ delayLineRegs ++ kickRegs ++ snareRegs ++ hatRegs ++ clickRegs ++ clockRegs,
      exec (.readParam r.1) s = .next { s with rsp := r.2 }

/-- R118: the reserved register numbers. -/
def Obligations.ReservedRegistersAreArgRange : Prop :=
  ∀ (n : BitVec 8) (data : Word),
    let k := n.toNat
    let reserved := k = 0x0E ∨ k = 0x0F ∨ (0x15 ≤ k ∧ k ≤ 0x1F) ∨ (0x2D ≤ k ∧ k ≤ 0x2F) ∨ (0x3D ≤ k ∧ k ≤ 0x3F) ∨
      (0x4D ≤ k ∧ k ≤ 0x4F) ∨ (0x5D ≤ k ∧ k ≤ 0x5F) ∨ 0x6A ≤ k
    let cmd : Word := 0x51000000#32 ||| (BitVec.ofNat 32 k <<< 16)
    (decode cmd data = .error .argRange ↔ reserved) ∧ (decode cmd data = .ok (.readParam n) ↔ ¬reserved)

/-- R700: NOP. -/
def Obligations.NopChangesNothing : Prop :=
  (∀ data : Word, decode 0x00000000#32 data = .ok .nop) ∧
  (∀ cmd data : Word, cmd >>> 24 = 0#32 → cmd ≠ 0x00000000#32 → decode cmd data = .error .reservedBits) ∧
  ∀ s : State, exec .nop s = .next { s with rsp := 0#32 }

/-- R714: WRITE_CTRL. -/
def Obligations.WriteCtrlWritesIrqEnOnly : Prop :=
  (∀ u : Word, decode 0x52000000#32 u = .ok (.writeCtrl u)) ∧
  (∀ cmd u : Word, cmd >>> 24 = 0x52#32 → cmd &&& 0x00FFFFFF#32 ≠ 0#32 → decode cmd u = .error .reservedBits) ∧
  ∀ (u : Word) (s : State),
    exec (.writeCtrl u) s = .next { s with ctrl := u &&& 0x00000001#32, rsp := 0#32 } ∧
    (u.getLsbD 0 = true → s.chg = true ∨ s.err = true →
      ({ s with ctrl := u &&& 0x00000001#32, rsp := 0#32 } : State).irq = true)

/-- RESET (44_host_commands.md section 2). That the port and the counter stay is the model's choice (log entry 16), and so
is that a NaN among the voice parameters gets the same bits again (log entry 5). -/
def Obligations.ResetIsPowerOn : Prop :=
  ∀ s : State, exec .reset s = .next { State.reset with inbox := s.inbox, nanTick := s.nanTick, rsp := 0#32 }

/-- The reset values (70_reset_and_hazards.md section 1). EnvInc and SvfCoef are stated by EnvIncFollowsItsRule and
SvfCoefFollowsItsRule. The bits of a NaN are the model's (log entry 5). -/
def Obligations.ResetValuesAreTheTable : Prop :=
  let s := State.reset
  let row := Config.cfg.drumset 0
  s.delayTime = 0x3C23D70A#32 ∧ s.baseDelay = 0x43F00000#32 ∧ s.lfoRate = 0x3C23D70A#32 ∧ s.lfoInc = 0x345FB23B#32 ∧
  s.feedback = 0#32 ∧ s.lfoDepth = 0#32 ∧ s.mix = 0#32 ∧ s.tempoKnob = 0#32 ∧ s.volume = 0#32 ∧
  s.bpm = 0x42700000#32 ∧ s.drumset = 0 ∧ s.ctrl = 0#32 ∧ s.status = 0#32 ∧ s.errInfo = 0#32 ∧
  s.writeIndex = 0 ∧ s.dcX1 = 0#32 ∧ s.dcY1 = 0#32 ∧ s.fbState = 0#32 ∧ s.lfoPhase = 0#32 ∧
  s.kick.env.stage = .idle ∧ s.snare.env.stage = .idle ∧ s.hat.env.stage = .idle ∧ s.click.env.stage = .idle ∧
  s.kick.env.level = 0#32 ∧ s.snare.env.level = 0#32 ∧ s.hat.env.level = 0#32 ∧ s.click.env.level = 0#32 ∧
  s.kick.env.ainc = 0x3CAAAAAA#32 ∧ s.snare.env.ainc = 0x3CAAAAAA#32 ∧ s.hat.env.ainc = 0x3D2AAAAA#32 ∧
  s.click.env.ainc = 0x3D2AAAAA#32 ∧ s.click.env.dinc = 0x3B088889#32 ∧
  s.snare.k = 0x3F19999A#32 ∧ s.hat.k = 0x3F19999A#32 ∧
  s.kick.freq = row.kickF ∧ s.kick.inc = F32.div (setupNan Config.cfg) row.kickF (F32.ofNat Config.cfg.fs) ∧
  s.kick.env.dinc = envInc Config.cfg row.kickDec ∧
  s.snare.freq = row.snareF ∧ s.snare.env.dinc = envInc Config.cfg row.snareDec ∧
  s.snare.a1 = svfA1 Config.cfg row.snareF 0x3F19999A#32 ∧ s.snare.a2 = svfA2 Config.cfg row.snareF 0x3F19999A#32 ∧
  s.snare.a3 = svfA3 Config.cfg row.snareF 0x3F19999A#32 ∧
  s.hat.freq = row.hatF ∧ s.hat.env.dinc = envInc Config.cfg row.hatDec ∧
  s.hat.a1 = svfA1 Config.cfg row.hatF 0x3F19999A#32 ∧ s.hat.a2 = svfA2 Config.cfg row.hatF 0x3F19999A#32 ∧
  s.hat.a3 = svfA3 Config.cfg row.hatF 0x3F19999A#32 ∧
  s.click.freq = 0x447A0000#32 ∧ s.click.inc = 0x3CAAAAAB#32 ∧
  s.kick.phase = 0#32 ∧ s.click.phase = 0#32 ∧ s.snare.ic1 = 0#32 ∧ s.snare.ic2 = 0#32 ∧
  s.hat.ic1 = 0#32 ∧ s.hat.ic2 = 0#32 ∧
  s.seqState = .manual ∧ s.stepIdx = 0 ∧ s.btnPrev = 0#3 ∧ s.subdivCount = 0#32 ∧ s.beatCount = 0#32 ∧
  s.lfsr = 0x00000001#32 ∧ s.lastPre = 0#32 ∧ s.lastL = 0#32 ∧ s.lastWet = 0#32 ∧ s.lastDrumBus = 0#32 ∧
  (∀ n, s.cell Config.cfg n = 0x00000000#32) ∧ s.irq = false

/-- The model's choice for terms that no command word carries (log entry 12), after 60_exceptions.md section 1. -/
def Obligations.ExecOutsideTheArgRangeRecordsArgRange : Prop :=
  ∀ (i : Instr) (s : State), i.wellFormed = false →
    exec i s = .next { s with
      rsp := 0#32
      errInfo := if s.err then s.errInfo
        else 3#32 ||| (((encode i).cmd >>> 24) <<< 8) ||| (((encode i).cmd >>> 16 &&& 0xFF#32) <<< 16)
      err := true
      ovf := s.ovf || s.err }
end

