-- ==== Sys2Proof/Laws/Float.lean ====
section
/-! SUPPORT. Lemmas about binary32: what a pattern stands for, that rounding is monotone, that it leaves a representable value
alone, and what follows for the operations. A proof bounds a result by comparing the exact value with a representable one. -/

namespace Sys2Proof.Laws

open Sys2Proof.F32 hiding min lt

/-- The magnitude that bits 30:0 stand for. -/
def magN (m : Nat) : Nat := if m / 2 ^ 23 = 0 then m else (2 ^ 23 + m % 2 ^ 23) * 2 ^ (m / 2 ^ 23 - 1)

theorem toNat_ofBits (neg : Bool) {m : Nat} (h : m < 2 ^ 31) :
    (ofBits neg m).toNat = if neg then 2 ^ 31 + m else m := by
  cases neg <;> (simp [ofBits]; omega)

theorem sign_eq (a : F32) : sign a = decide (2 ^ 31 ≤ a.toNat) := by
  simp [sign, BitVec.msb_eq_decide]

theorem sign_ofBits (neg : Bool) {m : Nat} (h : m < 2 ^ 31) : sign (ofBits neg m) = neg := by
  rw [sign_eq, toNat_ofBits neg h]
  cases neg
  · simp; omega
  · simp

theorem expo_ofBits (neg : Bool) {m : Nat} (h : m < 2 ^ 31) : expo (ofBits neg m) = m / 2 ^ 23 := by
  rw [expo, toNat_ofBits neg h]
  cases neg <;> (simp; omega)

theorem frac_ofBits (neg : Bool) {m : Nat} (h : m < 2 ^ 31) : frac (ofBits neg m) = m % 2 ^ 23 := by
  rw [frac, toNat_ofBits neg h]
  cases neg
  · simp
  · simp only [if_true]; omega

theorem mag_ofBits (neg : Bool) {m : Nat} (h : m < 2 ^ 31) : mag (ofBits neg m) = magN m := by
  rw [mag, expo_ofBits neg h, frac_ofBits neg h, magN]
  split
  · omega
  · rfl

theorem isNaN_ofBits (neg : Bool) {m : Nat} (h : m < 2 ^ 31) :
    isNaN (ofBits neg m) = true ↔ infBits < m := by
  rw [isNaN, expo_ofBits neg h, frac_ofBits neg h]
  simp only [infBits, Bool.and_eq_true, beq_iff_eq, bne_iff_ne, ne_eq]
  omega

theorem isInf_ofBits (neg : Bool) {m : Nat} (h : m < 2 ^ 31) :
    isInf (ofBits neg m) = true ↔ m = infBits := by
  rw [isInf, expo_ofBits neg h, frac_ofBits neg h]
  simp only [infBits, Bool.and_eq_true, beq_iff_eq]
  omega

/-- Every pattern is a sign and 31 bits. -/
theorem eq_ofBits (a : F32) : ∃ m < 2 ^ 31, a = ofBits (sign a) m := by
  refine ⟨a.toNat % 2 ^ 31, Nat.mod_lt _ (by decide), ?_⟩
  apply BitVec.eq_of_toNat_eq
  rw [toNat_ofBits _ (Nat.mod_lt _ (by decide)), sign_eq]
  have := a.isLt
  simp only [decide_eq_true_eq]
  split <;> omega

theorem magN_step {k m : Nat} (h : k = 0 ∧ m ≤ 2 ^ 24 ∨ 2 ^ 23 ≤ m ∧ m ≤ 2 ^ 24) :
    magN (k * 2 ^ 23 + m) = m * 2 ^ k := by
  unfold magN
  by_cases h24 : m = 2 ^ 24
  · subst h24
    have h1 : (k * 2 ^ 23 + 2 ^ 24) / 2 ^ 23 = k + 2 := by omega
    have h2 : (k * 2 ^ 23 + 2 ^ 24) % 2 ^ 23 = 0 := by omega
    rw [h1, h2]
    simp only [Nat.add_eq_zero_iff, OfNat.ofNat_ne_zero, and_false, if_false]
    rw [show k + 2 - 1 = k + 1 by omega, Nat.pow_succ]
    omega
  · by_cases h23 : 2 ^ 23 ≤ m
    · have h1 : (k * 2 ^ 23 + m) / 2 ^ 23 = k + 1 := by omega
      have h2 : (k * 2 ^ 23 + m) % 2 ^ 23 = m - 2 ^ 23 := by omega
      rw [h1, h2, if_neg (by omega), show 2 ^ 23 + (m - 2 ^ 23) = m by omega]
      simp
    · have hk : k = 0 := by omega
      subst hk
      rw [if_pos (by omega)]
      simp

/-- Bits 30:0 as the scale and the significand that `roundMag` works with. -/
theorem exists_scale (m : Nat) :
    ∃ k q, m = k * 2 ^ 23 + q ∧ (k = 0 ∧ q < 2 ^ 24 ∨ 2 ^ 23 ≤ q ∧ q < 2 ^ 24) := by
  by_cases h : m < 2 ^ 24
  · exact ⟨0, m, by omega, by omega⟩
  · exact ⟨m / 2 ^ 23 - 1, m % 2 ^ 23 + 2 ^ 23, by omega, by omega⟩

theorem magN_lt_succ (m : Nat) : magN m < magN (m + 1) := by
  obtain ⟨k, q, rfl, h⟩ := exists_scale m
  rw [magN_step (by omega), Nat.add_assoc, magN_step (by omega)]
  exact Nat.mul_lt_mul_of_pos_right (by omega) (Nat.two_pow_pos k)

theorem magN_strictMono : StrictMono magN := strictMono_nat_of_lt_succ magN_lt_succ

theorem magN_le_iff {a b : Nat} : magN a ≤ magN b ↔ a ≤ b := magN_strictMono.le_iff_le

theorem magN_lt_iff {a b : Nat} : magN a < magN b ↔ a < b := magN_strictMono.lt_iff_lt

theorem magN_eq_zero {m : Nat} : magN m = 0 ↔ m = 0 := by
  have h : magN m = magN 0 ↔ m = 0 := magN_strictMono.injective.eq_iff
  exact h

/-- What rounding does: with `l` the bits of the largest representable value at most `n / d`, the answer is `l` or `l + 1`,
by the place of `n / d` between the two (before the cap at infinity). -/
theorem roundMag_spec (n d : Nat) :
    ∃ k m, (k = 0 ∧ m < 2 ^ 24 ∨ 2 ^ 23 ≤ m ∧ m < 2 ^ 24) ∧ m = n / (d * 2 ^ k) ∧
      roundMag n d = min (k * 2 ^ 23 +
        (if d * 2 ^ k < 2 * (n % (d * 2 ^ k)) ∨ (2 * (n % (d * 2 ^ k)) = d * 2 ^ k ∧ m % 2 = 1) then m + 1 else m)) infBits := by
  refine ⟨(n / d).log2 - 23, n / (d * 2 ^ ((n / d).log2 - 23)), ?_, rfl, rfl⟩
  rw [← Nat.div_div_eq_div_mul]
  by_cases hq : n / d < 2 ^ 24
  · left
    have hk : (n / d).log2 - 23 = 0 := by
      rcases Nat.eq_zero_or_pos (n / d) with h0 | h0
      · rw [h0]; rfl
      · have := (Nat.log2_lt (by omega)).2 hq
        omega
    rw [hk]
    exact ⟨rfl, by simpa using hq⟩
  · right
    have h0 : n / d ≠ 0 := by omega
    have hl : 24 ≤ (n / d).log2 := (Nat.le_log2 h0).2 (by omega)
    have h1 : 2 ^ (n / d).log2 ≤ n / d := Nat.log2_self_le h0
    have h2 : n / d < 2 ^ ((n / d).log2 + 1) := Nat.lt_log2_self
    generalize (n / d).log2 = l at *
    obtain ⟨j, rfl⟩ : ∃ j, l = j + 23 := ⟨l - 23, by omega⟩
    rw [show j + 23 - 23 = j by omega]
    constructor
    · rw [Nat.le_div_iff_mul_le (Nat.two_pow_pos j), ← Nat.pow_add]
      simpa [Nat.add_comm] using h1
    · rw [Nat.div_lt_iff_lt_mul (Nat.two_pow_pos j), ← Nat.pow_add]
      rw [show 24 + j = j + 23 + 1 by omega]
      exact h2

theorem roundMag_le_inf (n d : Nat) : roundMag n d ≤ infBits := Nat.min_le_right _ _

theorem roundMag_lt (n d : Nat) : roundMag n d < 2 ^ 31 :=
  Nat.lt_of_le_of_lt (roundMag_le_inf n d) (by decide)

/-- Rounding, by comparison with the midpoint: `l = k * 2^23 + m` are the bits of the largest representable value at most
`n / d`. -/
theorem roundMag_mid (n : Nat) {d : Nat} (hd : 0 < d) :
    ∃ k m, (k = 0 ∧ m < 2 ^ 24 ∨ 2 ^ 23 ≤ m ∧ m < 2 ^ 24) ∧
      magN (k * 2 ^ 23 + m) * d ≤ n ∧ n < magN (k * 2 ^ 23 + m + 1) * d ∧
      roundMag n d = min (k * 2 ^ 23 +
        (if (2 * m + 1) * (d * 2 ^ k) < 2 * n ∨ ((2 * m + 1) * (d * 2 ^ k) = 2 * n ∧ m % 2 = 1) then m + 1 else m))
        infBits := by
  obtain ⟨k, m, hkm, hm, hr⟩ := roundMag_spec n d
  have hq : 0 < d * 2 ^ k := Nat.mul_pos hd (Nat.two_pow_pos k)
  have h1 : d * 2 ^ k * m + n % (d * 2 ^ k) = n := by rw [hm]; exact Nat.div_add_mod _ _
  have h2 : n % (d * 2 ^ k) < d * 2 ^ k := Nat.mod_lt _ hq
  have e1 : magN (k * 2 ^ 23 + m) * d = d * 2 ^ k * m := by rw [magN_step (by omega)]; ring
  have e2 : magN (k * 2 ^ 23 + m + 1) * d = d * 2 ^ k * m + d * 2 ^ k := by
    rw [Nat.add_assoc, magN_step (by omega)]; ring
  refine ⟨k, m, hkm, by omega, by omega, ?_⟩
  rw [hr]
  have e3 : (2 * m + 1) * (d * 2 ^ k) = 2 * (d * 2 ^ k * m) + d * 2 ^ k := by ring
  generalize d * 2 ^ k * m = p at *
  congr 3
  rw [e3]
  apply propext
  constructor <;> intro h <;> omega

/-- Rounding is monotone in the exact value. -/
theorem roundMag_mono {n₁ d₁ n₂ d₂ : Nat} (h₁ : 0 < d₁) (h₂ : 0 < d₂) (h : n₁ * d₂ ≤ n₂ * d₁) :
    roundMag n₁ d₁ ≤ roundMag n₂ d₂ := by
  obtain ⟨k₁, m₁, s₁, lo₁, hi₁, r₁⟩ := roundMag_mid n₁ h₁
  obtain ⟨k₂, m₂, s₂, lo₂, hi₂, r₂⟩ := roundMag_mid n₂ h₂
  have hl : k₁ * 2 ^ 23 + m₁ < k₂ * 2 ^ 23 + m₂ + 1 := by
    rw [← magN_lt_iff]
    by_contra hc
    have c1 : magN (k₂ * 2 ^ 23 + m₂ + 1) * (d₁ * d₂) ≤ magN (k₁ * 2 ^ 23 + m₁) * (d₁ * d₂) :=
      Nat.mul_le_mul_right _ (Nat.le_of_not_lt hc)
    have c2 := Nat.mul_le_mul_right d₂ lo₁
    have c3 := Nat.mul_lt_mul_of_pos_right hi₂ h₁
    have c4 : magN (k₂ * 2 ^ 23 + m₂ + 1) * (d₁ * d₂) = magN (k₂ * 2 ^ 23 + m₂ + 1) * d₂ * d₁ := by ring
    have c5 : magN (k₁ * 2 ^ 23 + m₁) * (d₁ * d₂) = magN (k₁ * 2 ^ 23 + m₁) * d₁ * d₂ := by ring
    omega
  rw [r₁, r₂]
  apply min_le_min_right
  by_cases he : k₁ * 2 ^ 23 + m₁ = k₂ * 2 ^ 23 + m₂
  · have hk : k₁ = k₂ := by omega
    have hm : m₁ = m₂ := by omega
    subst hk hm
    have key : (2 * m₁ + 1) * (d₁ * 2 ^ k₁) ≤ 2 * n₁ → (2 * m₁ + 1) * (d₂ * 2 ^ k₁) ≤ 2 * n₂ := by
      intro hc
      have c := Nat.mul_le_mul_right d₂ hc
      have : (2 * m₁ + 1) * (d₂ * 2 ^ k₁) * d₁ ≤ 2 * n₂ * d₁ := by
        calc (2 * m₁ + 1) * (d₂ * 2 ^ k₁) * d₁ = (2 * m₁ + 1) * (d₁ * 2 ^ k₁) * d₂ := by ring
          _ ≤ 2 * n₁ * d₂ := c
          _ = 2 * (n₁ * d₂) := by ring
          _ ≤ 2 * (n₂ * d₁) := by omega
          _ = 2 * n₂ * d₁ := by ring
      exact Nat.le_of_mul_le_mul_right this h₁
    have keys : (2 * m₁ + 1) * (d₁ * 2 ^ k₁) < 2 * n₁ → (2 * m₁ + 1) * (d₂ * 2 ^ k₁) < 2 * n₂ := by
      intro hc
      have c := Nat.mul_lt_mul_of_pos_right hc h₂
      have : (2 * m₁ + 1) * (d₂ * 2 ^ k₁) * d₁ < 2 * n₂ * d₁ := by
        calc (2 * m₁ + 1) * (d₂ * 2 ^ k₁) * d₁ = (2 * m₁ + 1) * (d₁ * 2 ^ k₁) * d₂ := by ring
          _ < 2 * n₁ * d₂ := c
          _ = 2 * (n₁ * d₂) := by ring
          _ ≤ 2 * (n₂ * d₁) := by omega
          _ = 2 * n₂ * d₁ := by ring
      exact Nat.lt_of_mul_lt_mul_right this
    split <;> split <;> omega
  · split <;> split <;> omega

/-- A representable value is left alone. -/
theorem roundMag_exact {a d : Nat} (hd : 0 < d) (ha : a ≤ infBits) : roundMag (magN a * d) d = a := by
  obtain ⟨k, m, s, lo, hi, r⟩ := roundMag_mid (magN a * d) hd
  have h1 := Nat.le_of_mul_le_mul_right lo hd
  have h2 := Nat.lt_of_mul_lt_mul_right hi
  rw [magN_le_iff] at h1
  rw [magN_lt_iff] at h2
  have e : a = k * 2 ^ 23 + m := by omega
  have hc : 2 * (magN a * d) < (2 * m + 1) * (d * 2 ^ k) := by
    have : 0 < d * 2 ^ k := Nat.mul_pos hd (Nat.two_pow_pos k)
    rw [e, magN_step (by omega)]
    calc 2 * (m * 2 ^ k * d) = 2 * m * (d * 2 ^ k) := by ring
      _ < (2 * m + 1) * (d * 2 ^ k) := Nat.mul_lt_mul_of_pos_right (by omega) this
  rw [r, if_neg (by omega), ← e]
  exact Nat.min_eq_left ha

/-- A bound from above that is representable stays a bound after rounding. -/
theorem roundMag_le {n d a : Nat} (hd : 0 < d) (ha : a ≤ infBits) (h : n ≤ magN a * d) : roundMag n d ≤ a := by
  rw [← roundMag_exact hd ha]
  exact roundMag_mono hd hd (Nat.mul_le_mul_right d h)

/-- A bound from below that is representable stays a bound after rounding. -/
theorem le_roundMag {n d a : Nat} (hd : 0 < d) (ha : a ≤ infBits) (h : magN a * d ≤ n) : a ≤ roundMag n d := by
  calc a = roundMag (magN a * d) d := (roundMag_exact hd ha).symm
    _ ≤ roundMag n d := roundMag_mono hd hd (Nat.mul_le_mul_right d h)

/-! Signed values. -/

/-- The signed value of a magnitude. -/
def sval (neg : Bool) (n : Nat) : Int := if neg then -(n : Int) else (n : Int)

theorem units_eq (a : F32) : units a = sval (sign a) (mag a) := rfl

theorem units_ofBits (neg : Bool) {m : Nat} (h : m < 2 ^ 31) : units (ofBits neg m) = sval neg (magN m) := by
  rw [units_eq, sign_ofBits neg h, mag_ofBits neg h]

theorem not_nan_ofBits (neg : Bool) {m : Nat} (h : m ≤ infBits) : isNaN (ofBits neg m) = false := by
  have h31 : m < 2 ^ 31 := Nat.lt_of_le_of_lt h (by decide)
  rw [← Bool.not_eq_true, isNaN_ofBits neg h31]
  omega

/-- A pattern that is no NaN is a sign and bits at most those of infinity. -/
theorem exists_ofBits {a : F32} (h : isNaN a = false) : ∃ m ≤ infBits, a = ofBits (sign a) m := by
  obtain ⟨m, hm, e⟩ := eq_ofBits a
  refine ⟨m, ?_, e⟩
  rw [e, ← Bool.not_eq_true, isNaN_ofBits _ hm] at h
  omega

theorem round_not_nan (neg : Bool) (n d : Nat) : isNaN (ofBits neg (roundMag n d)) = false :=
  not_nan_ofBits neg (roundMag_le_inf n d)

/-- A representable upper bound of the exact value bounds the rounded value. -/
theorem f32_round_le {neg : Bool} {n d : Nat} {c : F32} (hd : 0 < d) (hc : isNaN c = false)
    (h : sval neg n ≤ units c * d) : units (ofBits neg (roundMag n d)) ≤ units c := by
  obtain ⟨m, hm, e⟩ := exists_ofBits hc
  have h31 : m < 2 ^ 31 := Nat.lt_of_le_of_lt hm (by decide)
  rw [units_ofBits _ (roundMag_lt n d)]
  rw [e, units_ofBits _ h31] at h ⊢
  cases neg <;> cases hs : sign c <;> simp only [sval, hs, if_true, if_false, Bool.false_eq_true] at h ⊢
  · have : n ≤ magN m * d := by exact_mod_cast h
    exact_mod_cast magN_le_iff.2 (roundMag_le hd hm this)
  · have h0 : (0 : Int) ≤ (magN m : Int) * d := by positivity
    have hz : (magN m : Int) * d = 0 := by linarith [Int.natCast_nonneg n]
    have hm0 : magN m = 0 := by
      have : magN m * d = 0 := by exact_mod_cast hz
      rcases Nat.mul_eq_zero.1 this with h | h
      · exact h
      · omega
    have hn : n = 0 := by
      rw [hm0] at h
      simp at h
      omega
    have : roundMag n d ≤ 0 := roundMag_le hd (by decide) (by rw [hn]; exact Nat.zero_le _)
    have h2 : roundMag n d = 0 := by omega
    rw [h2, hm0]
    decide
  · have : (0 : Int) ≤ magN (roundMag n d) := Int.natCast_nonneg _
    have : (0 : Int) ≤ magN m := Int.natCast_nonneg _
    linarith
  · have : magN m * d ≤ n := by
      have : (magN m : Int) * d ≤ n := by linarith
      exact_mod_cast this
    have := magN_le_iff.2 (le_roundMag hd hm this)
    have : (magN m : Int) ≤ magN (roundMag n d) := by exact_mod_cast this
    linarith

theorem sval_not (neg : Bool) (n : Nat) : sval (!neg) n = -sval neg n := by
  cases neg <;> simp [sval]

theorem neg_ofBits (s : Bool) {m : Nat} (h : m < 2 ^ 31) : F32.neg (ofBits s m) = ofBits (!s) m := by
  rw [F32.neg, sign_ofBits s h, toNat_ofBits s h]
  congr 1
  cases s <;> simp <;> omega

theorem isNaN_neg (a : F32) : isNaN (F32.neg a) = isNaN a := by
  obtain ⟨m, hm, e⟩ := eq_ofBits a
  generalize sign a = s at e
  subst e
  rw [neg_ofBits s hm, Bool.eq_iff_iff, isNaN_ofBits _ hm, isNaN_ofBits _ hm]

theorem isInf_neg (a : F32) : isInf (F32.neg a) = isInf a := by
  obtain ⟨m, hm, e⟩ := eq_ofBits a
  generalize sign a = s at e
  subst e
  rw [neg_ofBits s hm, Bool.eq_iff_iff, isInf_ofBits _ hm, isInf_ofBits _ hm]

theorem units_neg (a : F32) : units (F32.neg a) = -units a := by
  obtain ⟨m, hm, e⟩ := eq_ofBits a
  generalize sign a = s at e
  subst e
  rw [neg_ofBits s hm, units_ofBits _ hm, units_ofBits _ hm, sval_not]

/-- A representable lower bound of the exact value bounds the rounded value. -/
theorem f32_le_round {neg : Bool} {n d : Nat} {c : F32} (hd : 0 < d) (hc : isNaN c = false)
    (h : units c * d ≤ sval neg n) : units c ≤ units (ofBits neg (roundMag n d)) := by
  have h1 : sval (!neg) n ≤ units (F32.neg c) * d := by
    rw [sval_not, units_neg]
    linarith
  have h2 := f32_round_le hd (by rw [isNaN_neg]; exact hc) h1
  rw [units_neg, ← neg_ofBits neg (roundMag_lt n d), units_neg] at h2
  linarith

/-! Comparisons and finiteness. -/

theorem f32_le_iff (a b : F32) : F32.le a b = true ↔ isNaN a = false ∧ isNaN b = false ∧ units a ≤ units b := by
  simp [F32.le, and_assoc]

theorem f32_lt_iff (a b : F32) : F32.lt a b = true ↔ isNaN a = false ∧ isNaN b = false ∧ units a < units b := by
  simp [F32.lt, and_assoc]

theorem f32_ge_iff (a b : F32) : F32.ge a b = true ↔ isNaN a = false ∧ isNaN b = false ∧ units b ≤ units a := by
  rw [F32.ge, f32_le_iff]
  tauto

theorem f32_gt_iff (a b : F32) : F32.gt a b = true ↔ isNaN a = false ∧ isNaN b = false ∧ units b < units a := by
  rw [F32.gt, f32_lt_iff]
  tauto

theorem f32_le_refl {a : F32} (h : isNaN a = false) : F32.le a a = true := (f32_le_iff a a).2 ⟨h, h, Int.le_refl _⟩

theorem f32_le_trans {a b c : F32} (h₁ : F32.le a b = true) (h₂ : F32.le b c = true) : F32.le a c = true := by
  rw [f32_le_iff] at *
  exact ⟨h₁.1, h₂.2.1, by linarith [h₁.2.2, h₂.2.2]⟩

theorem isFinite_iff (a : F32) : isFinite a = true ↔ isNaN a = false ∧ isInf a = false := by
  simp only [isFinite, isNaN, isInf]
  by_cases h : expo a = 255 <;> by_cases h2 : frac a = 0 <;> simp [h, h2]

theorem mag_lt_of_finite {a : F32} (h : isFinite a = true) : mag a < magN infBits := by
  rw [isFinite_iff] at h
  obtain ⟨m, hm, e⟩ := exists_ofBits h.1
  have h31 : m < 2 ^ 31 := Nat.lt_of_le_of_lt hm (by decide)
  generalize sign a = s at e
  subst e
  rw [mag_ofBits _ h31, magN_lt_iff]
  have := h.2
  rw [← Bool.not_eq_true, isInf_ofBits _ h31] at this
  omega

theorem natAbs_units (a : F32) : (units a).natAbs = mag a := by
  rw [units_eq, sval]
  split <;> simp

theorem finite_of_mag_lt {a : F32} (h : isNaN a = false) (hm : mag a < magN infBits) : isFinite a = true := by
  rw [isFinite_iff]
  refine ⟨h, ?_⟩
  obtain ⟨m, hm', e⟩ := exists_ofBits h
  have h31 : m < 2 ^ 31 := Nat.lt_of_le_of_lt hm' (by decide)
  generalize sign a = s at e
  subst e
  rw [mag_ofBits _ h31, magN_lt_iff] at hm
  rw [← Bool.not_eq_true, isInf_ofBits _ h31]
  omega

/-- A value between two finite ones is finite. -/
theorem finite_of_between {a lo hi : F32} (h₁ : F32.le lo a = true) (h₂ : F32.le a hi = true)
    (hl : isFinite lo = true) (hh : isFinite hi = true) : isFinite a = true := by
  rw [f32_le_iff] at h₁ h₂
  refine finite_of_mag_lt h₁.2.1 ?_
  have := mag_lt_of_finite hl
  have := mag_lt_of_finite hh
  rw [← natAbs_units] at *
  omega

/-! Bounds on the operations. -/

theorem addWith_finite {nan a b : F32} (ha : isFinite a = true) (hb : isFinite b = true) :
    F32.addWith nan a b =
      if units a + units b = 0 then ofBits (sign a && sign b) 0
      else ofBits (decide (units a + units b < 0)) (roundMag (units a + units b).natAbs 1) := by
  rw [isFinite_iff] at ha hb
  simp [F32.addWith, ha.1, hb.1, ha.2, hb.2]

theorem sval_natAbs (z : Int) : sval (decide (z < 0)) z.natAbs = z := by
  rw [sval]
  split <;> rename_i h <;> simp only [decide_eq_true_eq] at h <;> omega

theorem units_zero (s : Bool) : units (ofBits s 0) = 0 := by cases s <;> decide

theorem addWith_le {nan a b c : F32} (ha : isFinite a = true) (hb : isFinite b = true) (hc : isNaN c = false)
    (h : units a + units b ≤ units c) : F32.le (F32.addWith nan a b) c = true := by
  rw [addWith_finite ha hb, f32_le_iff]
  split
  · rename_i h0
    exact ⟨not_nan_ofBits _ (Nat.zero_le _), hc, by rw [units_zero]; omega⟩
  · exact ⟨round_not_nan _ _ _, hc, f32_round_le Nat.one_pos hc (by rw [sval_natAbs]; simpa using h)⟩

theorem le_addWith {nan a b c : F32} (ha : isFinite a = true) (hb : isFinite b = true) (hc : isNaN c = false)
    (h : units c ≤ units a + units b) : F32.le c (F32.addWith nan a b) = true := by
  rw [addWith_finite ha hb, f32_le_iff]
  split
  · rename_i h0
    exact ⟨hc, not_nan_ofBits _ (Nat.zero_le _), by rw [units_zero]; omega⟩
  · exact ⟨hc, round_not_nan _ _ _, f32_le_round Nat.one_pos hc (by rw [sval_natAbs]; simpa using h)⟩

theorem isFinite_neg (a : F32) : isFinite (F32.neg a) = isFinite a := by
  rw [Bool.eq_iff_iff, isFinite_iff, isFinite_iff, isNaN_neg, isInf_neg]

/-- `a + b` is at most a representable bound of the exact sum. -/
theorem f32_add_le {nu : NanRule} {a b c : F32} (ha : isFinite a = true) (hb : isFinite b = true) (hc : isNaN c = false)
    (h : units a + units b ≤ units c) : F32.le (F32.add nu a b) c = true := addWith_le ha hb hc h

theorem f32_le_add {nu : NanRule} {a b c : F32} (ha : isFinite a = true) (hb : isFinite b = true) (hc : isNaN c = false)
    (h : units c ≤ units a + units b) : F32.le c (F32.add nu a b) = true := le_addWith ha hb hc h

theorem f32_sub_le {nu : NanRule} {a b c : F32} (ha : isFinite a = true) (hb : isFinite b = true) (hc : isNaN c = false)
    (h : units a - units b ≤ units c) : F32.le (F32.sub nu a b) c = true :=
  addWith_le ha (by rw [isFinite_neg]; exact hb) hc (by rw [units_neg]; omega)

theorem f32_le_sub {nu : NanRule} {a b c : F32} (ha : isFinite a = true) (hb : isFinite b = true) (hc : isNaN c = false)
    (h : units c ≤ units a - units b) : F32.le c (F32.sub nu a b) = true :=
  le_addWith ha (by rw [isFinite_neg]; exact hb) hc (by rw [units_neg]; omega)

theorem mul_finite {nu : NanRule} {a b : F32} (ha : isFinite a = true) (hb : isFinite b = true) :
    F32.mul nu a b = ofBits (sign a != sign b) (roundMag (mag a * mag b) (2 ^ 149)) := by
  rw [isFinite_iff] at ha hb
  simp [F32.mul, ha.1, hb.1, ha.2, hb.2]

theorem sval_mul (s t : Bool) (m n : Nat) : sval (s != t) (m * n) = sval s m * sval t n := by
  cases s <;> cases t <;> simp [sval]

theorem f32_mul_le {nu : NanRule} {a b c : F32} (ha : isFinite a = true) (hb : isFinite b = true) (hc : isNaN c = false)
    (h : units a * units b ≤ units c * 2 ^ 149) : F32.le (F32.mul nu a b) c = true := by
  rw [mul_finite ha hb, f32_le_iff]
  refine ⟨round_not_nan _ _ _, hc, f32_round_le (Nat.two_pow_pos 149) hc ?_⟩
  rw [sval_mul, ← units_eq, ← units_eq]
  exact_mod_cast h

theorem f32_le_mul {nu : NanRule} {a b c : F32} (ha : isFinite a = true) (hb : isFinite b = true) (hc : isNaN c = false)
    (h : units c * 2 ^ 149 ≤ units a * units b) : F32.le c (F32.mul nu a b) = true := by
  rw [mul_finite ha hb, f32_le_iff]
  refine ⟨hc, round_not_nan _ _ _, f32_le_round (Nat.two_pow_pos 149) hc ?_⟩
  rw [sval_mul, ← units_eq, ← units_eq]
  exact_mod_cast h

/-- Division by a positive finite value. -/
theorem div_pos_eq {nu : NanRule} {a b : F32} (ha : isFinite a = true) (hb : isFinite b = true) (h0 : 0 < units b) :
    F32.div nu a b = ofBits (sign a) (roundMag (mag a * 2 ^ 149) (mag b)) := by
  rw [isFinite_iff] at ha hb
  have hs : sign b = false := by
    by_contra hs
    simp only [Bool.not_eq_false] at hs
    rw [units_eq, sval, if_pos hs] at h0
    omega
  have hm : mag b ≠ 0 := by
    intro hm
    rw [units_eq, hm, hs] at h0
    simp [sval] at h0
  simp [F32.div, ha.1, hb.1, ha.2, hb.2, hm, hs]

theorem units_pos {b : F32} (h : 0 < units b) : units b = (mag b : Int) := by
  rw [units_eq, sval] at *
  split at h <;> rename_i hs
  · omega
  · rw [if_neg hs]

theorem f32_div_le {nu : NanRule} {a b c : F32} (ha : isFinite a = true) (hb : isFinite b = true) (h0 : 0 < units b)
    (hc : isNaN c = false) (h : units a * 2 ^ 149 ≤ units c * units b) : F32.le (F32.div nu a b) c = true := by
  have hu := units_pos h0
  rw [div_pos_eq ha hb h0, f32_le_iff]
  refine ⟨round_not_nan _ _ _, hc, f32_round_le (by omega) hc ?_⟩
  rw [← hu]
  calc sval (sign a) (mag a * 2 ^ 149) = sval (sign a) (mag a) * 2 ^ 149 := by
        cases sign a <;> simp [sval]
    _ ≤ _ := h

theorem f32_le_div {nu : NanRule} {a b c : F32} (ha : isFinite a = true) (hb : isFinite b = true) (h0 : 0 < units b)
    (hc : isNaN c = false) (h : units c * units b ≤ units a * 2 ^ 149) : F32.le c (F32.div nu a b) = true := by
  have hu := units_pos h0
  rw [div_pos_eq ha hb h0, f32_le_iff]
  refine ⟨hc, round_not_nan _ _ _, f32_le_round (by omega) hc ?_⟩
  rw [← hu]
  calc units c * units b ≤ sval (sign a) (mag a) * 2 ^ 149 := h
    _ = sval (sign a) (mag a * 2 ^ 149) := by cases sign a <;> simp [sval]

theorem ofInt_le {n : Int} {c : F32} (hc : isNaN c = false) (h : n * 2 ^ 149 ≤ units c) :
    F32.le (F32.ofInt n) c = true := by
  rw [F32.ofInt, f32_le_iff]
  refine ⟨round_not_nan _ _ _, hc, f32_round_le Nat.one_pos hc ?_⟩
  calc sval (decide (n < 0)) (n.natAbs * 2 ^ 149) = sval (decide (n < 0)) n.natAbs * 2 ^ 149 := by
        rw [sval, sval]; split <;> simp
    _ ≤ _ := by rw [sval_natAbs]; simpa using h

theorem le_ofInt {n : Int} {c : F32} (hc : isNaN c = false) (h : units c ≤ n * 2 ^ 149) :
    F32.le c (F32.ofInt n) = true := by
  rw [F32.ofInt, f32_le_iff]
  refine ⟨hc, round_not_nan _ _ _, f32_le_round Nat.one_pos hc ?_⟩
  calc units c * ((1 : Nat) : Int) ≤ sval (decide (n < 0)) n.natAbs * 2 ^ 149 := by rw [sval_natAbs]; simpa using h
    _ = _ := by rw [sval, sval]; split <;> simp

/-- An integer of at most 24 bits converts exactly. -/
theorem units_ofNat {n : Nat} (h : n ≤ 2 ^ 24) : units (F32.ofNat n) = (n : Int) * 2 ^ 149 ∧ isFinite (F32.ofNat n) = true := by
  have key : ∃ m < infBits, magN m = n * 2 ^ 149 := by
    rcases Nat.eq_zero_or_pos n with rfl | h0
    · exact ⟨0, by decide, by decide⟩
    · have hl : n.log2 ≤ 24 := by
        have : n < 2 ^ 25 := by omega
        have := (Nat.log2_lt (by omega)).2 this
        omega
      have h1 : 2 ^ n.log2 ≤ n := Nat.log2_self_le (by omega)
      have h2 : n < 2 ^ (n.log2 + 1) := Nat.lt_log2_self
      by_cases hn : n = 2 ^ 24
      · subst hn
        exact ⟨151 * 2 ^ 23, by decide, by decide⟩
      · have hl' : n.log2 ≤ 23 := by
          have := (Nat.log2_lt (n := n) (k := 24) (by omega)).2 (by omega)
          omega
        obtain ⟨j, hj⟩ : ∃ j, n.log2 + j = 23 := ⟨23 - n.log2, by omega⟩
        have e1 : 2 ^ 23 ≤ n * 2 ^ j := by
          calc 2 ^ 23 = 2 ^ n.log2 * 2 ^ j := by rw [← Nat.pow_add, hj]
            _ ≤ _ := Nat.mul_le_mul_right _ h1
        have e2 : n * 2 ^ j < 2 ^ 24 := by
          calc n * 2 ^ j < 2 ^ (n.log2 + 1) * 2 ^ j := Nat.mul_lt_mul_of_pos_right h2 (Nat.two_pow_pos j)
            _ = 2 ^ 24 := by rw [← Nat.pow_add]; congr 1; omega
        refine ⟨(149 - j) * 2 ^ 23 + n * 2 ^ j, ?_, ?_⟩
        · simp only [infBits]; omega
        · rw [magN_step (by omega), Nat.mul_assoc, ← Nat.pow_add]
          congr 2
          omega
  obtain ⟨m, hm, e⟩ := key
  have hr : roundMag (n * 2 ^ 149) 1 = m := by
    have := roundMag_exact (a := m) (d := 1) Nat.one_pos (by omega)
    rwa [e, Nat.mul_one] at this
  have h31 : m < 2 ^ 31 := Nat.lt_of_lt_of_le hm (by decide)
  have hx : F32.ofNat n = ofBits false m := by
    rw [F32.ofNat, F32.ofInt, Int.natAbs_natCast, hr]
    congr 1
  rw [hx]
  refine ⟨?_, ?_⟩
  · rw [units_ofBits _ h31, e, sval]
    simp
  · refine finite_of_mag_lt (not_nan_ofBits _ (by omega)) ?_
    rw [mag_ofBits _ h31, magN_lt_iff]
    exact hm

/-- clamp gives a value between its bounds. -/
theorem clamp_between {x lo hi : F32} (h : F32.le lo hi = true) :
    F32.le lo (F32.clamp x lo hi) = true ∧ F32.le (F32.clamp x lo hi) hi = true := by
  have hh := h
  rw [f32_le_iff] at h
  unfold F32.clamp
  split
  · exact ⟨f32_le_refl h.1, hh⟩
  · rename_i hx
    simp only [Bool.or_eq_true, not_or, Bool.not_eq_true] at hx
    split
    · exact ⟨hh, f32_le_refl h.2.1⟩
    · rename_i hg
      have h1 : ¬ units x < units lo := fun hc => by
        have := (f32_lt_iff x lo).2 ⟨hx.1, h.1, hc⟩
        rw [hx.2] at this
        cases this
      have h2 : ¬ units hi < units x := fun hc => hg ((f32_gt_iff x hi).2 ⟨hx.1, h.2.1, hc⟩)
      exact ⟨(f32_le_iff _ _).2 ⟨h.1, hx.1, by omega⟩, (f32_le_iff _ _).2 ⟨hx.1, h.2.1, by omega⟩⟩

/-- clamp leaves a value in range alone. -/
theorem clamp_of_between {x lo hi : F32} (h₁ : F32.le lo x = true) (h₂ : F32.le x hi = true) :
    F32.clamp x lo hi = x := by
  rw [f32_le_iff] at h₁ h₂
  have e1 : F32.lt x lo = false := by
    rw [← Bool.not_eq_true, f32_lt_iff]; omega
  have e2 : F32.gt x hi = false := by
    rw [← Bool.not_eq_true, f32_gt_iff]; omega
  simp [F32.clamp, e1, e2, h₂.1]

/-- clamp takes a NaN to the lower bound (R13). -/
theorem clamp_nan {x lo hi : F32} (h : isNaN x = true) : F32.clamp x lo hi = lo := by
  simp [F32.clamp, h]

end Sys2Proof.Laws
end

