-- ==== Sys2Proof/Laws/Config.lean ====
section
/-! SUPPORT. The machine's configuration is one the spec admits, whatever its OPEN fields are. -/

namespace Sys2Proof.Laws

theorem isNaN_nanOf (w : Word) : F32.isNaN (F32.nanOf w) = true := by
  have hf : F32.frac w < 2 ^ 23 := Nat.mod_lt _ (Nat.two_pow_pos 23)
  unfold F32.nanOf
  rw [isNaN_ofBits]
  · simp only [F32.infBits]
    split <;> omega
  · simp only [F32.infBits]
    split <;> omega

theorem drumset_legal (i : Fin 6) : (Config.cfg.drumset i).legal Config.cfg.fs = true := by
  show (Config.drumset 48000 i).legal 48000 = true
  unfold Config.drumset
  split
  · assumption
  · decide +kernel

theorem tanh_nan {x : F32} (h : F32.isNaN x = true) : F32.isNaN (Config.tanh x) = true := by
  rw [Config.tanh, if_pos h]
  exact isNaN_nanOf _

theorem tanh_inf (neg : Bool) : Config.tanh (F32.inf neg) = if neg then Config.negOne else Config.one := by
  have h31 : F32.infBits < 2 ^ 31 := by decide
  have h1 : F32.isNaN (F32.inf neg) = false := not_nan_ofBits neg (Nat.le_refl _)
  have h2 : F32.isInf (F32.inf neg) = true := (isInf_ofBits neg h31).2 rfl
  have h3 : F32.sign (F32.inf neg) = neg := sign_ofBits neg h31
  rw [Config.tanh, h1, h2, h3]
  simp

theorem tanh_zero (neg : Bool) : Config.tanh (F32.ofBits neg 0) = F32.ofBits neg 0 := by
  cases neg <;> rfl

/-- The configuration is legal (00_scope.md R8; 93_implementation_defined.md U4, U7, U11). -/
theorem cfg_legal : Config.cfg.Legal where
  fs_ge := by decide
  fs_le := by decide
  cap_ge := by decide
  cap_le := by decide
  patternLen := Or.inl rfl
  subdivFrac := Or.inl rfl
  fbKnobScale := Or.inr rfl
  drumset := drumset_legal
  tanh_nan := fun _ h => tanh_nan h
  tanh_inf := tanh_inf
  tanh_zero := tanh_zero

end Sys2Proof.Laws
end

