-- ==== Sys2Proof/Laws/Memory.lean ====
section
/-! SUPPORT. The laws of the delay memory: a read after a write, and that every operation keeps the canonical form. -/

namespace Sys2Proof.Laws

open Sys2Proof.Machine

theorem mem_read_nil (i : Nat) : Memory.read [] i = Memory.blank := rfl

/-- No listed index is below all of them. -/
theorem mem_read_of_lt {m : Memory} {i : Nat} (h : ∀ c ∈ m, i < c.1) : Memory.read m i = Memory.blank := by
  induction m with
  | nil => rfl
  | cons c m ih =>
    have hc := h c (by simp)
    rw [Memory.read, if_neg (by omega)]
    exact ih fun d hd => h d (by simp [hd])

theorem mem_wf_cons {c : Nat × F32} {m : Memory} :
    Memory.wf (c :: m) ↔ (∀ d ∈ m, c.1 < d.1) ∧ c.2 ≠ Memory.blank ∧ Memory.wf m := by
  simp only [Memory.wf, List.pairwise_cons, List.mem_cons, forall_eq_or_imp]
  tauto

/-- Every entry of a written memory is the one written or an old one. -/
theorem mem_write_entry {m : Memory} {i : Nat} {v : F32} {c : Nat × F32} (h : c ∈ Memory.write m i v) :
    (c = (i, v) ∧ v ≠ Memory.blank) ∨ c ∈ m := by
  induction m with
  | nil =>
    rw [Memory.write] at h
    split at h
    · simp at h
    · simp at h
      exact Or.inl ⟨h, by assumption⟩
  | cons d m ih =>
    rw [Memory.write] at h
    split at h
    · split at h
      · exact Or.inr h
      · rcases List.mem_cons.1 h with rfl | h
        · exact Or.inl ⟨rfl, by assumption⟩
        · exact Or.inr h
    · split at h
      · split at h
        · exact Or.inr (List.mem_cons_of_mem _ h)
        · rcases List.mem_cons.1 h with rfl | h
          · exact Or.inl ⟨rfl, by assumption⟩
          · exact Or.inr (List.mem_cons_of_mem _ h)
      · rcases List.mem_cons.1 h with rfl | h
        · exact Or.inr (by simp)
        · rcases ih h with h | h
          · exact Or.inl h
          · exact Or.inr (List.mem_cons_of_mem _ h)

/-- A write keeps the canonical form. -/
theorem mem_write_wf {m : Memory} (i : Nat) (v : F32) (h : Memory.wf m) : Memory.wf (Memory.write m i v) := by
  induction m with
  | nil =>
    rw [Memory.write]
    split
    · exact h
    · exact mem_wf_cons.2 ⟨by simp, by assumption, h⟩
  | cons d m ih =>
    have hd := mem_wf_cons.1 h
    rw [Memory.write]
    split
    · rename_i hi
      split
      · exact h
      · refine mem_wf_cons.2 ⟨fun e he => ?_, by assumption, h⟩
        rcases List.mem_cons.1 he with rfl | he
        · exact hi
        · exact Nat.lt_trans hi (hd.1 e he)
    · split
      · rename_i hi
        split
        · exact hd.2.2
        · exact mem_wf_cons.2 ⟨fun e he => by rw [hi]; exact hd.1 e he, by assumption, hd.2.2⟩
      · refine mem_wf_cons.2 ⟨fun e he => ?_, hd.2.1, ih hd.2.2⟩
        rcases mem_write_entry he with ⟨rfl, _⟩ | he
        · show d.1 < i
          omega
        · exact hd.1 e he

/-- A read of the cell written gives the value written. -/
theorem mem_read_write_same {m : Memory} (i : Nat) (v : F32) (h : Memory.wf m) :
    Memory.read (Memory.write m i v) i = v := by
  induction m with
  | nil =>
    rw [Memory.write]
    split
    · rename_i hv
      rw [hv, mem_read_nil]
    · simp [Memory.read]
  | cons d m ih =>
    have hd := mem_wf_cons.1 h
    rw [Memory.write]
    split
    · rename_i hi
      split
      · rename_i hv
        rw [hv]
        refine mem_read_of_lt fun c hc => ?_
        rcases List.mem_cons.1 hc with rfl | hc
        · exact hi
        · exact Nat.lt_trans hi (hd.1 c hc)
      · simp [Memory.read]
    · split
      · rename_i hi
        split
        · rename_i hv
          rw [hv]
          exact mem_read_of_lt fun c hc => by rw [hi]; exact hd.1 c hc
        · simp [Memory.read]
      · rename_i hi
        rw [Memory.read, if_neg hi]
        exact ih hd.2.2

/-- A write leaves every other cell alone. -/
theorem mem_read_write_other {m : Memory} {i j : Nat} (v : F32) (h : j ≠ i) :
    Memory.read (Memory.write m i v) j = Memory.read m j := by
  induction m with
  | nil =>
    rw [Memory.write]
    split
    · rfl
    · simp [Memory.read, h]
  | cons d m ih =>
    rw [Memory.write]
    split
    · split
      · rfl
      · rw [Memory.read, if_neg h]
    · split
      · rename_i hi
        split
        · rw [Memory.read, if_neg (by omega)]
        · rw [Memory.read, if_neg h, Memory.read, if_neg (by omega)]
      · rw [Memory.read, Memory.read]
        split
        · rfl
        · exact ih

/-- Reset's memory is in canonical form. -/
theorem reset_dbuf_wf : Memory.wf State.reset.dbuf := by
  exact ⟨List.Pairwise.nil, by intro c hc; cases hc⟩

end Sys2Proof.Laws
end

