-- ==== Sys2Proof/Laws/State.lean ====
section
/-! SUPPORT. One lemma per field per update of State, so that no later proof unfolds a record update. Each proof is `(rfl)`,
in parentheses: simp then rewrites with the lemma and never compares two states by definition. -/

namespace Sys2Proof.Laws

open Sys2Proof.Machine

/-! The projections of a state written out. The lemmas below that apply them keep the kernel from comparing two states. -/

section

variable (a0 : F32) (a1 : F32) (a2 : F32) (a3 : F32) (a4 : F32) (a5 : F32) (a6 : F32) (a7 : F32) (a8 : F32) (a9 : F32)
  (a10 : Fin 6) (a11 : Word) (a12 : Bool) (a13 : Bool) (a14 : Bool) (a15 : Word) (a16 : Nat) (a17 : F32) (a18 : F32)
  (a19 : F32) (a20 : F32) (a21 : OscVoice) (a22 : FilterVoice) (a23 : FilterVoice) (a24 : OscVoice) (a25 : SeqState)
  (a26 : Nat) (a27 : F32) (a28 : F32) (a29 : BitVec 3) (a30 : Word) (a31 : F32) (a32 : F32) (a33 : F32) (a34 : F32)
  (a35 : Memory) (a36 : List Command) (a37 : Word) (a38 : Nat)

theorem mk_delayTime : (State.mk a0 a1 a2 a3 a4 a5 a6 a7 a8 a9 a10 a11 a12 a13 a14 a15 a16 a17 a18 a19 a20 a21 a22 a23 a24 a25 a26 a27 a28 a29
    a30 a31 a32 a33 a34 a35 a36 a37 a38).delayTime = a0 := (rfl)
theorem mk_feedback : (State.mk a0 a1 a2 a3 a4 a5 a6 a7 a8 a9 a10 a11 a12 a13 a14 a15 a16 a17 a18 a19 a20 a21 a22 a23 a24 a25 a26 a27 a28 a29
    a30 a31 a32 a33 a34 a35 a36 a37 a38).feedback = a1 := (rfl)
theorem mk_lfoRate : (State.mk a0 a1 a2 a3 a4 a5 a6 a7 a8 a9 a10 a11 a12 a13 a14 a15 a16 a17 a18 a19 a20 a21 a22 a23 a24 a25 a26 a27 a28 a29
    a30 a31 a32 a33 a34 a35 a36 a37 a38).lfoRate = a2 := (rfl)
theorem mk_lfoDepth : (State.mk a0 a1 a2 a3 a4 a5 a6 a7 a8 a9 a10 a11 a12 a13 a14 a15 a16 a17 a18 a19 a20 a21 a22 a23 a24 a25 a26 a27 a28 a29
    a30 a31 a32 a33 a34 a35 a36 a37 a38).lfoDepth = a3 := (rfl)
theorem mk_mix : (State.mk a0 a1 a2 a3 a4 a5 a6 a7 a8 a9 a10 a11 a12 a13 a14 a15 a16 a17 a18 a19 a20 a21 a22 a23 a24 a25 a26 a27 a28 a29
    a30 a31 a32 a33 a34 a35 a36 a37 a38).mix = a4 := (rfl)
theorem mk_tempoKnob : (State.mk a0 a1 a2 a3 a4 a5 a6 a7 a8 a9 a10 a11 a12 a13 a14 a15 a16 a17 a18 a19 a20 a21 a22 a23 a24 a25 a26 a27 a28 a29
    a30 a31 a32 a33 a34 a35 a36 a37 a38).tempoKnob = a5 := (rfl)
theorem mk_bpm : (State.mk a0 a1 a2 a3 a4 a5 a6 a7 a8 a9 a10 a11 a12 a13 a14 a15 a16 a17 a18 a19 a20 a21 a22 a23 a24 a25 a26 a27 a28 a29
    a30 a31 a32 a33 a34 a35 a36 a37 a38).bpm = a6 := (rfl)
theorem mk_volume : (State.mk a0 a1 a2 a3 a4 a5 a6 a7 a8 a9 a10 a11 a12 a13 a14 a15 a16 a17 a18 a19 a20 a21 a22 a23 a24 a25 a26 a27 a28 a29
    a30 a31 a32 a33 a34 a35 a36 a37 a38).volume = a7 := (rfl)
theorem mk_baseDelay : (State.mk a0 a1 a2 a3 a4 a5 a6 a7 a8 a9 a10 a11 a12 a13 a14 a15 a16 a17 a18 a19 a20 a21 a22 a23 a24 a25 a26 a27 a28 a29
    a30 a31 a32 a33 a34 a35 a36 a37 a38).baseDelay = a8 := (rfl)
theorem mk_lfoInc : (State.mk a0 a1 a2 a3 a4 a5 a6 a7 a8 a9 a10 a11 a12 a13 a14 a15 a16 a17 a18 a19 a20 a21 a22 a23 a24 a25 a26 a27 a28 a29
    a30 a31 a32 a33 a34 a35 a36 a37 a38).lfoInc = a9 := (rfl)
theorem mk_drumset : (State.mk a0 a1 a2 a3 a4 a5 a6 a7 a8 a9 a10 a11 a12 a13 a14 a15 a16 a17 a18 a19 a20 a21 a22 a23 a24 a25 a26 a27 a28 a29
    a30 a31 a32 a33 a34 a35 a36 a37 a38).drumset = a10 := (rfl)
theorem mk_ctrl : (State.mk a0 a1 a2 a3 a4 a5 a6 a7 a8 a9 a10 a11 a12 a13 a14 a15 a16 a17 a18 a19 a20 a21 a22 a23 a24 a25 a26 a27 a28 a29
    a30 a31 a32 a33 a34 a35 a36 a37 a38).ctrl = a11 := (rfl)
theorem mk_chg : (State.mk a0 a1 a2 a3 a4 a5 a6 a7 a8 a9 a10 a11 a12 a13 a14 a15 a16 a17 a18 a19 a20 a21 a22 a23 a24 a25 a26 a27 a28 a29
    a30 a31 a32 a33 a34 a35 a36 a37 a38).chg = a12 := (rfl)
theorem mk_err : (State.mk a0 a1 a2 a3 a4 a5 a6 a7 a8 a9 a10 a11 a12 a13 a14 a15 a16 a17 a18 a19 a20 a21 a22 a23 a24 a25 a26 a27 a28 a29
    a30 a31 a32 a33 a34 a35 a36 a37 a38).err = a13 := (rfl)
theorem mk_ovf : (State.mk a0 a1 a2 a3 a4 a5 a6 a7 a8 a9 a10 a11 a12 a13 a14 a15 a16 a17 a18 a19 a20 a21 a22 a23 a24 a25 a26 a27 a28 a29
    a30 a31 a32 a33 a34 a35 a36 a37 a38).ovf = a14 := (rfl)
theorem mk_errInfo : (State.mk a0 a1 a2 a3 a4 a5 a6 a7 a8 a9 a10 a11 a12 a13 a14 a15 a16 a17 a18 a19 a20 a21 a22 a23 a24 a25 a26 a27 a28 a29
    a30 a31 a32 a33 a34 a35 a36 a37 a38).errInfo = a15 := (rfl)
theorem mk_writeIndex : (State.mk a0 a1 a2 a3 a4 a5 a6 a7 a8 a9 a10 a11 a12 a13 a14 a15 a16 a17 a18 a19 a20 a21 a22 a23 a24 a25 a26 a27 a28 a29
    a30 a31 a32 a33 a34 a35 a36 a37 a38).writeIndex = a16 := (rfl)
theorem mk_dcX1 : (State.mk a0 a1 a2 a3 a4 a5 a6 a7 a8 a9 a10 a11 a12 a13 a14 a15 a16 a17 a18 a19 a20 a21 a22 a23 a24 a25 a26 a27 a28 a29
    a30 a31 a32 a33 a34 a35 a36 a37 a38).dcX1 = a17 := (rfl)
theorem mk_dcY1 : (State.mk a0 a1 a2 a3 a4 a5 a6 a7 a8 a9 a10 a11 a12 a13 a14 a15 a16 a17 a18 a19 a20 a21 a22 a23 a24 a25 a26 a27 a28 a29
    a30 a31 a32 a33 a34 a35 a36 a37 a38).dcY1 = a18 := (rfl)
theorem mk_fbState : (State.mk a0 a1 a2 a3 a4 a5 a6 a7 a8 a9 a10 a11 a12 a13 a14 a15 a16 a17 a18 a19 a20 a21 a22 a23 a24 a25 a26 a27 a28 a29
    a30 a31 a32 a33 a34 a35 a36 a37 a38).fbState = a19 := (rfl)
theorem mk_lfoPhase : (State.mk a0 a1 a2 a3 a4 a5 a6 a7 a8 a9 a10 a11 a12 a13 a14 a15 a16 a17 a18 a19 a20 a21 a22 a23 a24 a25 a26 a27 a28 a29
    a30 a31 a32 a33 a34 a35 a36 a37 a38).lfoPhase = a20 := (rfl)
theorem mk_kick : (State.mk a0 a1 a2 a3 a4 a5 a6 a7 a8 a9 a10 a11 a12 a13 a14 a15 a16 a17 a18 a19 a20 a21 a22 a23 a24 a25 a26 a27 a28 a29
    a30 a31 a32 a33 a34 a35 a36 a37 a38).kick = a21 := (rfl)
theorem mk_snare : (State.mk a0 a1 a2 a3 a4 a5 a6 a7 a8 a9 a10 a11 a12 a13 a14 a15 a16 a17 a18 a19 a20 a21 a22 a23 a24 a25 a26 a27 a28 a29
    a30 a31 a32 a33 a34 a35 a36 a37 a38).snare = a22 := (rfl)
theorem mk_hat : (State.mk a0 a1 a2 a3 a4 a5 a6 a7 a8 a9 a10 a11 a12 a13 a14 a15 a16 a17 a18 a19 a20 a21 a22 a23 a24 a25 a26 a27 a28 a29
    a30 a31 a32 a33 a34 a35 a36 a37 a38).hat = a23 := (rfl)
theorem mk_click : (State.mk a0 a1 a2 a3 a4 a5 a6 a7 a8 a9 a10 a11 a12 a13 a14 a15 a16 a17 a18 a19 a20 a21 a22 a23 a24 a25 a26 a27 a28 a29
    a30 a31 a32 a33 a34 a35 a36 a37 a38).click = a24 := (rfl)
theorem mk_seqState : (State.mk a0 a1 a2 a3 a4 a5 a6 a7 a8 a9 a10 a11 a12 a13 a14 a15 a16 a17 a18 a19 a20 a21 a22 a23 a24 a25 a26 a27 a28 a29
    a30 a31 a32 a33 a34 a35 a36 a37 a38).seqState = a25 := (rfl)
theorem mk_stepIdx : (State.mk a0 a1 a2 a3 a4 a5 a6 a7 a8 a9 a10 a11 a12 a13 a14 a15 a16 a17 a18 a19 a20 a21 a22 a23 a24 a25 a26 a27 a28 a29
    a30 a31 a32 a33 a34 a35 a36 a37 a38).stepIdx = a26 := (rfl)
theorem mk_subdivCount : (State.mk a0 a1 a2 a3 a4 a5 a6 a7 a8 a9 a10 a11 a12 a13 a14 a15 a16 a17 a18 a19 a20 a21 a22 a23 a24 a25 a26 a27 a28 a29
    a30 a31 a32 a33 a34 a35 a36 a37 a38).subdivCount = a27 := (rfl)
theorem mk_beatCount : (State.mk a0 a1 a2 a3 a4 a5 a6 a7 a8 a9 a10 a11 a12 a13 a14 a15 a16 a17 a18 a19 a20 a21 a22 a23 a24 a25 a26 a27 a28 a29
    a30 a31 a32 a33 a34 a35 a36 a37 a38).beatCount = a28 := (rfl)
theorem mk_btnPrev : (State.mk a0 a1 a2 a3 a4 a5 a6 a7 a8 a9 a10 a11 a12 a13 a14 a15 a16 a17 a18 a19 a20 a21 a22 a23 a24 a25 a26 a27 a28 a29
    a30 a31 a32 a33 a34 a35 a36 a37 a38).btnPrev = a29 := (rfl)
theorem mk_lfsr : (State.mk a0 a1 a2 a3 a4 a5 a6 a7 a8 a9 a10 a11 a12 a13 a14 a15 a16 a17 a18 a19 a20 a21 a22 a23 a24 a25 a26 a27 a28 a29
    a30 a31 a32 a33 a34 a35 a36 a37 a38).lfsr = a30 := (rfl)
theorem mk_lastPre : (State.mk a0 a1 a2 a3 a4 a5 a6 a7 a8 a9 a10 a11 a12 a13 a14 a15 a16 a17 a18 a19 a20 a21 a22 a23 a24 a25 a26 a27 a28 a29
    a30 a31 a32 a33 a34 a35 a36 a37 a38).lastPre = a31 := (rfl)
theorem mk_lastL : (State.mk a0 a1 a2 a3 a4 a5 a6 a7 a8 a9 a10 a11 a12 a13 a14 a15 a16 a17 a18 a19 a20 a21 a22 a23 a24 a25 a26 a27 a28 a29
    a30 a31 a32 a33 a34 a35 a36 a37 a38).lastL = a32 := (rfl)
theorem mk_lastWet : (State.mk a0 a1 a2 a3 a4 a5 a6 a7 a8 a9 a10 a11 a12 a13 a14 a15 a16 a17 a18 a19 a20 a21 a22 a23 a24 a25 a26 a27 a28 a29
    a30 a31 a32 a33 a34 a35 a36 a37 a38).lastWet = a33 := (rfl)
theorem mk_lastDrumBus : (State.mk a0 a1 a2 a3 a4 a5 a6 a7 a8 a9 a10 a11 a12 a13 a14 a15 a16 a17 a18 a19 a20 a21 a22 a23 a24 a25 a26 a27 a28 a29
    a30 a31 a32 a33 a34 a35 a36 a37 a38).lastDrumBus = a34 := (rfl)
theorem mk_dbuf : (State.mk a0 a1 a2 a3 a4 a5 a6 a7 a8 a9 a10 a11 a12 a13 a14 a15 a16 a17 a18 a19 a20 a21 a22 a23 a24 a25 a26 a27 a28 a29
    a30 a31 a32 a33 a34 a35 a36 a37 a38).dbuf = a35 := (rfl)
theorem mk_inbox : (State.mk a0 a1 a2 a3 a4 a5 a6 a7 a8 a9 a10 a11 a12 a13 a14 a15 a16 a17 a18 a19 a20 a21 a22 a23 a24 a25 a26 a27 a28 a29
    a30 a31 a32 a33 a34 a35 a36 a37 a38).inbox = a36 := (rfl)
theorem mk_rsp : (State.mk a0 a1 a2 a3 a4 a5 a6 a7 a8 a9 a10 a11 a12 a13 a14 a15 a16 a17 a18 a19 a20 a21 a22 a23 a24 a25 a26 a27 a28 a29
    a30 a31 a32 a33 a34 a35 a36 a37 a38).rsp = a37 := (rfl)
theorem mk_nanTick : (State.mk a0 a1 a2 a3 a4 a5 a6 a7 a8 a9 a10 a11 a12 a13 a14 a15 a16 a17 a18 a19 a20 a21 a22 a23 a24 a25 a26 a27 a28 a29
    a30 a31 a32 a33 a34 a35 a36 a37 a38).nanTick = a38 := (rfl)

end

/-! respond -/

@[simp] theorem respond_delayTime (v : Word) (s : State) : (respond v s).delayTime = s.delayTime := (rfl)
@[simp] theorem respond_feedback (v : Word) (s : State) : (respond v s).feedback = s.feedback := (rfl)
@[simp] theorem respond_lfoRate (v : Word) (s : State) : (respond v s).lfoRate = s.lfoRate := (rfl)
@[simp] theorem respond_lfoDepth (v : Word) (s : State) : (respond v s).lfoDepth = s.lfoDepth := (rfl)
@[simp] theorem respond_mix (v : Word) (s : State) : (respond v s).mix = s.mix := (rfl)
@[simp] theorem respond_tempoKnob (v : Word) (s : State) : (respond v s).tempoKnob = s.tempoKnob := (rfl)
@[simp] theorem respond_bpm (v : Word) (s : State) : (respond v s).bpm = s.bpm := (rfl)
@[simp] theorem respond_volume (v : Word) (s : State) : (respond v s).volume = s.volume := (rfl)
@[simp] theorem respond_baseDelay (v : Word) (s : State) : (respond v s).baseDelay = s.baseDelay := (rfl)
@[simp] theorem respond_lfoInc (v : Word) (s : State) : (respond v s).lfoInc = s.lfoInc := (rfl)
@[simp] theorem respond_drumset (v : Word) (s : State) : (respond v s).drumset = s.drumset := (rfl)
@[simp] theorem respond_ctrl (v : Word) (s : State) : (respond v s).ctrl = s.ctrl := (rfl)
@[simp] theorem respond_chg (v : Word) (s : State) : (respond v s).chg = s.chg := (rfl)
@[simp] theorem respond_err (v : Word) (s : State) : (respond v s).err = s.err := (rfl)
@[simp] theorem respond_ovf (v : Word) (s : State) : (respond v s).ovf = s.ovf := (rfl)
@[simp] theorem respond_errInfo (v : Word) (s : State) : (respond v s).errInfo = s.errInfo := (rfl)
@[simp] theorem respond_writeIndex (v : Word) (s : State) : (respond v s).writeIndex = s.writeIndex := (rfl)
@[simp] theorem respond_dcX1 (v : Word) (s : State) : (respond v s).dcX1 = s.dcX1 := (rfl)
@[simp] theorem respond_dcY1 (v : Word) (s : State) : (respond v s).dcY1 = s.dcY1 := (rfl)
@[simp] theorem respond_fbState (v : Word) (s : State) : (respond v s).fbState = s.fbState := (rfl)
@[simp] theorem respond_lfoPhase (v : Word) (s : State) : (respond v s).lfoPhase = s.lfoPhase := (rfl)
@[simp] theorem respond_kick (v : Word) (s : State) : (respond v s).kick = s.kick := (rfl)
@[simp] theorem respond_snare (v : Word) (s : State) : (respond v s).snare = s.snare := (rfl)
@[simp] theorem respond_hat (v : Word) (s : State) : (respond v s).hat = s.hat := (rfl)
@[simp] theorem respond_click (v : Word) (s : State) : (respond v s).click = s.click := (rfl)
@[simp] theorem respond_seqState (v : Word) (s : State) : (respond v s).seqState = s.seqState := (rfl)
@[simp] theorem respond_stepIdx (v : Word) (s : State) : (respond v s).stepIdx = s.stepIdx := (rfl)
@[simp] theorem respond_subdivCount (v : Word) (s : State) : (respond v s).subdivCount = s.subdivCount := (rfl)
@[simp] theorem respond_beatCount (v : Word) (s : State) : (respond v s).beatCount = s.beatCount := (rfl)
@[simp] theorem respond_btnPrev (v : Word) (s : State) : (respond v s).btnPrev = s.btnPrev := (rfl)
@[simp] theorem respond_lfsr (v : Word) (s : State) : (respond v s).lfsr = s.lfsr := (rfl)
@[simp] theorem respond_lastPre (v : Word) (s : State) : (respond v s).lastPre = s.lastPre := (rfl)
@[simp] theorem respond_lastL (v : Word) (s : State) : (respond v s).lastL = s.lastL := (rfl)
@[simp] theorem respond_lastWet (v : Word) (s : State) : (respond v s).lastWet = s.lastWet := (rfl)
@[simp] theorem respond_lastDrumBus (v : Word) (s : State) : (respond v s).lastDrumBus = s.lastDrumBus := (rfl)
@[simp] theorem respond_dbuf (v : Word) (s : State) : (respond v s).dbuf = s.dbuf := (rfl)
@[simp] theorem respond_inbox (v : Word) (s : State) : (respond v s).inbox = s.inbox := (rfl)
@[simp] theorem respond_rsp (v : Word) (s : State) : (respond v s).rsp = v := (rfl)
@[simp] theorem respond_nanTick (v : Word) (s : State) : (respond v s).nanTick = s.nanTick := (rfl)

/-! clearSticky -/

@[simp] theorem clearSticky_delayTime (s : State) : (State.clearSticky s).delayTime = s.delayTime := (rfl)
@[simp] theorem clearSticky_feedback (s : State) : (State.clearSticky s).feedback = s.feedback := (rfl)
@[simp] theorem clearSticky_lfoRate (s : State) : (State.clearSticky s).lfoRate = s.lfoRate := (rfl)
@[simp] theorem clearSticky_lfoDepth (s : State) : (State.clearSticky s).lfoDepth = s.lfoDepth := (rfl)
@[simp] theorem clearSticky_mix (s : State) : (State.clearSticky s).mix = s.mix := (rfl)
@[simp] theorem clearSticky_tempoKnob (s : State) : (State.clearSticky s).tempoKnob = s.tempoKnob := (rfl)
@[simp] theorem clearSticky_bpm (s : State) : (State.clearSticky s).bpm = s.bpm := (rfl)
@[simp] theorem clearSticky_volume (s : State) : (State.clearSticky s).volume = s.volume := (rfl)
@[simp] theorem clearSticky_baseDelay (s : State) : (State.clearSticky s).baseDelay = s.baseDelay := (rfl)
@[simp] theorem clearSticky_lfoInc (s : State) : (State.clearSticky s).lfoInc = s.lfoInc := (rfl)
@[simp] theorem clearSticky_drumset (s : State) : (State.clearSticky s).drumset = s.drumset := (rfl)
@[simp] theorem clearSticky_ctrl (s : State) : (State.clearSticky s).ctrl = s.ctrl := (rfl)
@[simp] theorem clearSticky_chg (s : State) : (State.clearSticky s).chg = false := (rfl)
@[simp] theorem clearSticky_err (s : State) : (State.clearSticky s).err = false := (rfl)
@[simp] theorem clearSticky_ovf (s : State) : (State.clearSticky s).ovf = false := (rfl)
@[simp] theorem clearSticky_errInfo (s : State) : (State.clearSticky s).errInfo = s.errInfo := (rfl)
@[simp] theorem clearSticky_writeIndex (s : State) : (State.clearSticky s).writeIndex = s.writeIndex := (rfl)
@[simp] theorem clearSticky_dcX1 (s : State) : (State.clearSticky s).dcX1 = s.dcX1 := (rfl)
@[simp] theorem clearSticky_dcY1 (s : State) : (State.clearSticky s).dcY1 = s.dcY1 := (rfl)
@[simp] theorem clearSticky_fbState (s : State) : (State.clearSticky s).fbState = s.fbState := (rfl)
@[simp] theorem clearSticky_lfoPhase (s : State) : (State.clearSticky s).lfoPhase = s.lfoPhase := (rfl)
@[simp] theorem clearSticky_kick (s : State) : (State.clearSticky s).kick = s.kick := (rfl)
@[simp] theorem clearSticky_snare (s : State) : (State.clearSticky s).snare = s.snare := (rfl)
@[simp] theorem clearSticky_hat (s : State) : (State.clearSticky s).hat = s.hat := (rfl)
@[simp] theorem clearSticky_click (s : State) : (State.clearSticky s).click = s.click := (rfl)
@[simp] theorem clearSticky_seqState (s : State) : (State.clearSticky s).seqState = s.seqState := (rfl)
@[simp] theorem clearSticky_stepIdx (s : State) : (State.clearSticky s).stepIdx = s.stepIdx := (rfl)
@[simp] theorem clearSticky_subdivCount (s : State) : (State.clearSticky s).subdivCount = s.subdivCount := (rfl)
@[simp] theorem clearSticky_beatCount (s : State) : (State.clearSticky s).beatCount = s.beatCount := (rfl)
@[simp] theorem clearSticky_btnPrev (s : State) : (State.clearSticky s).btnPrev = s.btnPrev := (rfl)
@[simp] theorem clearSticky_lfsr (s : State) : (State.clearSticky s).lfsr = s.lfsr := (rfl)
@[simp] theorem clearSticky_lastPre (s : State) : (State.clearSticky s).lastPre = s.lastPre := (rfl)
@[simp] theorem clearSticky_lastL (s : State) : (State.clearSticky s).lastL = s.lastL := (rfl)
@[simp] theorem clearSticky_lastWet (s : State) : (State.clearSticky s).lastWet = s.lastWet := (rfl)
@[simp] theorem clearSticky_lastDrumBus (s : State) : (State.clearSticky s).lastDrumBus = s.lastDrumBus := (rfl)
@[simp] theorem clearSticky_dbuf (s : State) : (State.clearSticky s).dbuf = s.dbuf := (rfl)
@[simp] theorem clearSticky_inbox (s : State) : (State.clearSticky s).inbox = s.inbox := (rfl)
@[simp] theorem clearSticky_rsp (s : State) : (State.clearSticky s).rsp = s.rsp := (rfl)
@[simp] theorem clearSticky_nanTick (s : State) : (State.clearSticky s).nanTick = s.nanTick := (rfl)

/-! recordError -/

@[simp] theorem recordError_delayTime (c : ErrCause) (cmd : Word) (s : State) : (recordError c cmd s).delayTime = s.delayTime := (rfl)
@[simp] theorem recordError_feedback (c : ErrCause) (cmd : Word) (s : State) : (recordError c cmd s).feedback = s.feedback := (rfl)
@[simp] theorem recordError_lfoRate (c : ErrCause) (cmd : Word) (s : State) : (recordError c cmd s).lfoRate = s.lfoRate := (rfl)
@[simp] theorem recordError_lfoDepth (c : ErrCause) (cmd : Word) (s : State) : (recordError c cmd s).lfoDepth = s.lfoDepth := (rfl)
@[simp] theorem recordError_mix (c : ErrCause) (cmd : Word) (s : State) : (recordError c cmd s).mix = s.mix := (rfl)
@[simp] theorem recordError_tempoKnob (c : ErrCause) (cmd : Word) (s : State) : (recordError c cmd s).tempoKnob = s.tempoKnob := (rfl)
@[simp] theorem recordError_bpm (c : ErrCause) (cmd : Word) (s : State) : (recordError c cmd s).bpm = s.bpm := (rfl)
@[simp] theorem recordError_volume (c : ErrCause) (cmd : Word) (s : State) : (recordError c cmd s).volume = s.volume := (rfl)
@[simp] theorem recordError_baseDelay (c : ErrCause) (cmd : Word) (s : State) : (recordError c cmd s).baseDelay = s.baseDelay := (rfl)
@[simp] theorem recordError_lfoInc (c : ErrCause) (cmd : Word) (s : State) : (recordError c cmd s).lfoInc = s.lfoInc := (rfl)
@[simp] theorem recordError_drumset (c : ErrCause) (cmd : Word) (s : State) : (recordError c cmd s).drumset = s.drumset := (rfl)
@[simp] theorem recordError_ctrl (c : ErrCause) (cmd : Word) (s : State) : (recordError c cmd s).ctrl = s.ctrl := (rfl)
@[simp] theorem recordError_chg (c : ErrCause) (cmd : Word) (s : State) : (recordError c cmd s).chg = s.chg := (rfl)
@[simp] theorem recordError_err (c : ErrCause) (cmd : Word) (s : State) : (recordError c cmd s).err = true := (rfl)
@[simp] theorem recordError_ovf (c : ErrCause) (cmd : Word) (s : State) : (recordError c cmd s).ovf = (s.ovf || s.err) := (rfl)
@[simp] theorem recordError_errInfo (c : ErrCause) (cmd : Word) (s : State) :
    (recordError c cmd s).errInfo = if s.err then s.errInfo else errInfoWord c cmd := (rfl)
@[simp] theorem recordError_writeIndex (c : ErrCause) (cmd : Word) (s : State) : (recordError c cmd s).writeIndex = s.writeIndex := (rfl)
@[simp] theorem recordError_dcX1 (c : ErrCause) (cmd : Word) (s : State) : (recordError c cmd s).dcX1 = s.dcX1 := (rfl)
@[simp] theorem recordError_dcY1 (c : ErrCause) (cmd : Word) (s : State) : (recordError c cmd s).dcY1 = s.dcY1 := (rfl)
@[simp] theorem recordError_fbState (c : ErrCause) (cmd : Word) (s : State) : (recordError c cmd s).fbState = s.fbState := (rfl)
@[simp] theorem recordError_lfoPhase (c : ErrCause) (cmd : Word) (s : State) : (recordError c cmd s).lfoPhase = s.lfoPhase := (rfl)
@[simp] theorem recordError_kick (c : ErrCause) (cmd : Word) (s : State) : (recordError c cmd s).kick = s.kick := (rfl)
@[simp] theorem recordError_snare (c : ErrCause) (cmd : Word) (s : State) : (recordError c cmd s).snare = s.snare := (rfl)
@[simp] theorem recordError_hat (c : ErrCause) (cmd : Word) (s : State) : (recordError c cmd s).hat = s.hat := (rfl)
@[simp] theorem recordError_click (c : ErrCause) (cmd : Word) (s : State) : (recordError c cmd s).click = s.click := (rfl)
@[simp] theorem recordError_seqState (c : ErrCause) (cmd : Word) (s : State) : (recordError c cmd s).seqState = s.seqState := (rfl)
@[simp] theorem recordError_stepIdx (c : ErrCause) (cmd : Word) (s : State) : (recordError c cmd s).stepIdx = s.stepIdx := (rfl)
@[simp] theorem recordError_subdivCount (c : ErrCause) (cmd : Word) (s : State) : (recordError c cmd s).subdivCount = s.subdivCount := (rfl)
@[simp] theorem recordError_beatCount (c : ErrCause) (cmd : Word) (s : State) : (recordError c cmd s).beatCount = s.beatCount := (rfl)
@[simp] theorem recordError_btnPrev (c : ErrCause) (cmd : Word) (s : State) : (recordError c cmd s).btnPrev = s.btnPrev := (rfl)
@[simp] theorem recordError_lfsr (c : ErrCause) (cmd : Word) (s : State) : (recordError c cmd s).lfsr = s.lfsr := (rfl)
@[simp] theorem recordError_lastPre (c : ErrCause) (cmd : Word) (s : State) : (recordError c cmd s).lastPre = s.lastPre := (rfl)
@[simp] theorem recordError_lastL (c : ErrCause) (cmd : Word) (s : State) : (recordError c cmd s).lastL = s.lastL := (rfl)
@[simp] theorem recordError_lastWet (c : ErrCause) (cmd : Word) (s : State) : (recordError c cmd s).lastWet = s.lastWet := (rfl)
@[simp] theorem recordError_lastDrumBus (c : ErrCause) (cmd : Word) (s : State) : (recordError c cmd s).lastDrumBus = s.lastDrumBus := (rfl)
@[simp] theorem recordError_dbuf (c : ErrCause) (cmd : Word) (s : State) : (recordError c cmd s).dbuf = s.dbuf := (rfl)
@[simp] theorem recordError_inbox (c : ErrCause) (cmd : Word) (s : State) : (recordError c cmd s).inbox = s.inbox := (rfl)
@[simp] theorem recordError_rsp (c : ErrCause) (cmd : Word) (s : State) : (recordError c cmd s).rsp = s.rsp := (rfl)
@[simp] theorem recordError_nanTick (c : ErrCause) (cmd : Word) (s : State) : (recordError c cmd s).nanTick = s.nanTick := (rfl)

/-! takeError -/

@[simp] theorem takeError_delayTime (c : ErrCause) (cmd : Word) (s : State) : (takeError c cmd s).delayTime = s.delayTime := (rfl)
@[simp] theorem takeError_feedback (c : ErrCause) (cmd : Word) (s : State) : (takeError c cmd s).feedback = s.feedback := (rfl)
@[simp] theorem takeError_lfoRate (c : ErrCause) (cmd : Word) (s : State) : (takeError c cmd s).lfoRate = s.lfoRate := (rfl)
@[simp] theorem takeError_lfoDepth (c : ErrCause) (cmd : Word) (s : State) : (takeError c cmd s).lfoDepth = s.lfoDepth := (rfl)
@[simp] theorem takeError_mix (c : ErrCause) (cmd : Word) (s : State) : (takeError c cmd s).mix = s.mix := (rfl)
@[simp] theorem takeError_tempoKnob (c : ErrCause) (cmd : Word) (s : State) : (takeError c cmd s).tempoKnob = s.tempoKnob := (rfl)
@[simp] theorem takeError_bpm (c : ErrCause) (cmd : Word) (s : State) : (takeError c cmd s).bpm = s.bpm := (rfl)
@[simp] theorem takeError_volume (c : ErrCause) (cmd : Word) (s : State) : (takeError c cmd s).volume = s.volume := (rfl)
@[simp] theorem takeError_baseDelay (c : ErrCause) (cmd : Word) (s : State) : (takeError c cmd s).baseDelay = s.baseDelay := (rfl)
@[simp] theorem takeError_lfoInc (c : ErrCause) (cmd : Word) (s : State) : (takeError c cmd s).lfoInc = s.lfoInc := (rfl)
@[simp] theorem takeError_drumset (c : ErrCause) (cmd : Word) (s : State) : (takeError c cmd s).drumset = s.drumset := (rfl)
@[simp] theorem takeError_ctrl (c : ErrCause) (cmd : Word) (s : State) : (takeError c cmd s).ctrl = s.ctrl := (rfl)
@[simp] theorem takeError_chg (c : ErrCause) (cmd : Word) (s : State) : (takeError c cmd s).chg = s.chg := (rfl)
@[simp] theorem takeError_err (c : ErrCause) (cmd : Word) (s : State) : (takeError c cmd s).err = true := (rfl)
@[simp] theorem takeError_ovf (c : ErrCause) (cmd : Word) (s : State) : (takeError c cmd s).ovf = (s.ovf || s.err) := (rfl)
@[simp] theorem takeError_errInfo (c : ErrCause) (cmd : Word) (s : State) :
    (takeError c cmd s).errInfo = if s.err then s.errInfo else errInfoWord c cmd := (rfl)
@[simp] theorem takeError_writeIndex (c : ErrCause) (cmd : Word) (s : State) : (takeError c cmd s).writeIndex = s.writeIndex := (rfl)
@[simp] theorem takeError_dcX1 (c : ErrCause) (cmd : Word) (s : State) : (takeError c cmd s).dcX1 = s.dcX1 := (rfl)
@[simp] theorem takeError_dcY1 (c : ErrCause) (cmd : Word) (s : State) : (takeError c cmd s).dcY1 = s.dcY1 := (rfl)
@[simp] theorem takeError_fbState (c : ErrCause) (cmd : Word) (s : State) : (takeError c cmd s).fbState = s.fbState := (rfl)
@[simp] theorem takeError_lfoPhase (c : ErrCause) (cmd : Word) (s : State) : (takeError c cmd s).lfoPhase = s.lfoPhase := (rfl)
@[simp] theorem takeError_kick (c : ErrCause) (cmd : Word) (s : State) : (takeError c cmd s).kick = s.kick := (rfl)
@[simp] theorem takeError_snare (c : ErrCause) (cmd : Word) (s : State) : (takeError c cmd s).snare = s.snare := (rfl)
@[simp] theorem takeError_hat (c : ErrCause) (cmd : Word) (s : State) : (takeError c cmd s).hat = s.hat := (rfl)
@[simp] theorem takeError_click (c : ErrCause) (cmd : Word) (s : State) : (takeError c cmd s).click = s.click := (rfl)
@[simp] theorem takeError_seqState (c : ErrCause) (cmd : Word) (s : State) : (takeError c cmd s).seqState = s.seqState := (rfl)
@[simp] theorem takeError_stepIdx (c : ErrCause) (cmd : Word) (s : State) : (takeError c cmd s).stepIdx = s.stepIdx := (rfl)
@[simp] theorem takeError_subdivCount (c : ErrCause) (cmd : Word) (s : State) : (takeError c cmd s).subdivCount = s.subdivCount := (rfl)
@[simp] theorem takeError_beatCount (c : ErrCause) (cmd : Word) (s : State) : (takeError c cmd s).beatCount = s.beatCount := (rfl)
@[simp] theorem takeError_btnPrev (c : ErrCause) (cmd : Word) (s : State) : (takeError c cmd s).btnPrev = s.btnPrev := (rfl)
@[simp] theorem takeError_lfsr (c : ErrCause) (cmd : Word) (s : State) : (takeError c cmd s).lfsr = s.lfsr := (rfl)
@[simp] theorem takeError_lastPre (c : ErrCause) (cmd : Word) (s : State) : (takeError c cmd s).lastPre = s.lastPre := (rfl)
@[simp] theorem takeError_lastL (c : ErrCause) (cmd : Word) (s : State) : (takeError c cmd s).lastL = s.lastL := (rfl)
@[simp] theorem takeError_lastWet (c : ErrCause) (cmd : Word) (s : State) : (takeError c cmd s).lastWet = s.lastWet := (rfl)
@[simp] theorem takeError_lastDrumBus (c : ErrCause) (cmd : Word) (s : State) : (takeError c cmd s).lastDrumBus = s.lastDrumBus := (rfl)
@[simp] theorem takeError_dbuf (c : ErrCause) (cmd : Word) (s : State) : (takeError c cmd s).dbuf = s.dbuf := (rfl)
@[simp] theorem takeError_inbox (c : ErrCause) (cmd : Word) (s : State) : (takeError c cmd s).inbox = s.inbox := (rfl)
@[simp] theorem takeError_rsp (c : ErrCause) (cmd : Word) (s : State) : (takeError c cmd s).rsp = 0#32 := (rfl)
@[simp] theorem takeError_nanTick (c : ErrCause) (cmd : Word) (s : State) : (takeError c cmd s).nanTick = s.nanTick := (rfl)

/-! applyDrumSet -/

@[simp] theorem applyDrumSet_delayTime (cfg : Cfg) (i : Fin 6) (s : State) : (applyDrumSet cfg i s).delayTime = s.delayTime := (rfl)
@[simp] theorem applyDrumSet_feedback (cfg : Cfg) (i : Fin 6) (s : State) : (applyDrumSet cfg i s).feedback = s.feedback := (rfl)
@[simp] theorem applyDrumSet_lfoRate (cfg : Cfg) (i : Fin 6) (s : State) : (applyDrumSet cfg i s).lfoRate = s.lfoRate := (rfl)
@[simp] theorem applyDrumSet_lfoDepth (cfg : Cfg) (i : Fin 6) (s : State) : (applyDrumSet cfg i s).lfoDepth = s.lfoDepth := (rfl)
@[simp] theorem applyDrumSet_mix (cfg : Cfg) (i : Fin 6) (s : State) : (applyDrumSet cfg i s).mix = s.mix := (rfl)
@[simp] theorem applyDrumSet_tempoKnob (cfg : Cfg) (i : Fin 6) (s : State) : (applyDrumSet cfg i s).tempoKnob = s.tempoKnob := (rfl)
@[simp] theorem applyDrumSet_bpm (cfg : Cfg) (i : Fin 6) (s : State) : (applyDrumSet cfg i s).bpm = s.bpm := (rfl)
@[simp] theorem applyDrumSet_volume (cfg : Cfg) (i : Fin 6) (s : State) : (applyDrumSet cfg i s).volume = s.volume := (rfl)
@[simp] theorem applyDrumSet_baseDelay (cfg : Cfg) (i : Fin 6) (s : State) : (applyDrumSet cfg i s).baseDelay = s.baseDelay := (rfl)
@[simp] theorem applyDrumSet_lfoInc (cfg : Cfg) (i : Fin 6) (s : State) : (applyDrumSet cfg i s).lfoInc = s.lfoInc := (rfl)
@[simp] theorem applyDrumSet_drumset (cfg : Cfg) (i : Fin 6) (s : State) : (applyDrumSet cfg i s).drumset = s.drumset := (rfl)
@[simp] theorem applyDrumSet_ctrl (cfg : Cfg) (i : Fin 6) (s : State) : (applyDrumSet cfg i s).ctrl = s.ctrl := (rfl)
@[simp] theorem applyDrumSet_chg (cfg : Cfg) (i : Fin 6) (s : State) : (applyDrumSet cfg i s).chg = s.chg := (rfl)
@[simp] theorem applyDrumSet_err (cfg : Cfg) (i : Fin 6) (s : State) : (applyDrumSet cfg i s).err = s.err := (rfl)
@[simp] theorem applyDrumSet_ovf (cfg : Cfg) (i : Fin 6) (s : State) : (applyDrumSet cfg i s).ovf = s.ovf := (rfl)
@[simp] theorem applyDrumSet_errInfo (cfg : Cfg) (i : Fin 6) (s : State) : (applyDrumSet cfg i s).errInfo = s.errInfo := (rfl)
@[simp] theorem applyDrumSet_writeIndex (cfg : Cfg) (i : Fin 6) (s : State) : (applyDrumSet cfg i s).writeIndex = s.writeIndex := (rfl)
@[simp] theorem applyDrumSet_dcX1 (cfg : Cfg) (i : Fin 6) (s : State) : (applyDrumSet cfg i s).dcX1 = s.dcX1 := (rfl)
@[simp] theorem applyDrumSet_dcY1 (cfg : Cfg) (i : Fin 6) (s : State) : (applyDrumSet cfg i s).dcY1 = s.dcY1 := (rfl)
@[simp] theorem applyDrumSet_fbState (cfg : Cfg) (i : Fin 6) (s : State) : (applyDrumSet cfg i s).fbState = s.fbState := (rfl)
@[simp] theorem applyDrumSet_lfoPhase (cfg : Cfg) (i : Fin 6) (s : State) : (applyDrumSet cfg i s).lfoPhase = s.lfoPhase := (rfl)
@[simp] theorem applyDrumSet_kick (cfg : Cfg) (i : Fin 6) (s : State) :
    (applyDrumSet cfg i s).kick = s.kick.load cfg (cfg.drumset i).kickF (cfg.drumset i).kickDec := (rfl)
@[simp] theorem applyDrumSet_snare (cfg : Cfg) (i : Fin 6) (s : State) :
    (applyDrumSet cfg i s).snare = s.snare.load cfg (cfg.drumset i).snareF (cfg.drumset i).snareDec := (rfl)
@[simp] theorem applyDrumSet_hat (cfg : Cfg) (i : Fin 6) (s : State) :
    (applyDrumSet cfg i s).hat = s.hat.load cfg (cfg.drumset i).hatF (cfg.drumset i).hatDec := (rfl)
@[simp] theorem applyDrumSet_click (cfg : Cfg) (i : Fin 6) (s : State) : (applyDrumSet cfg i s).click = s.click := (rfl)
@[simp] theorem applyDrumSet_seqState (cfg : Cfg) (i : Fin 6) (s : State) : (applyDrumSet cfg i s).seqState = s.seqState := (rfl)
@[simp] theorem applyDrumSet_stepIdx (cfg : Cfg) (i : Fin 6) (s : State) : (applyDrumSet cfg i s).stepIdx = s.stepIdx := (rfl)
@[simp] theorem applyDrumSet_subdivCount (cfg : Cfg) (i : Fin 6) (s : State) : (applyDrumSet cfg i s).subdivCount = s.subdivCount := (rfl)
@[simp] theorem applyDrumSet_beatCount (cfg : Cfg) (i : Fin 6) (s : State) : (applyDrumSet cfg i s).beatCount = s.beatCount := (rfl)
@[simp] theorem applyDrumSet_btnPrev (cfg : Cfg) (i : Fin 6) (s : State) : (applyDrumSet cfg i s).btnPrev = s.btnPrev := (rfl)
@[simp] theorem applyDrumSet_lfsr (cfg : Cfg) (i : Fin 6) (s : State) : (applyDrumSet cfg i s).lfsr = s.lfsr := (rfl)
@[simp] theorem applyDrumSet_lastPre (cfg : Cfg) (i : Fin 6) (s : State) : (applyDrumSet cfg i s).lastPre = s.lastPre := (rfl)
@[simp] theorem applyDrumSet_lastL (cfg : Cfg) (i : Fin 6) (s : State) : (applyDrumSet cfg i s).lastL = s.lastL := (rfl)
@[simp] theorem applyDrumSet_lastWet (cfg : Cfg) (i : Fin 6) (s : State) : (applyDrumSet cfg i s).lastWet = s.lastWet := (rfl)
@[simp] theorem applyDrumSet_lastDrumBus (cfg : Cfg) (i : Fin 6) (s : State) : (applyDrumSet cfg i s).lastDrumBus = s.lastDrumBus := (rfl)
@[simp] theorem applyDrumSet_dbuf (cfg : Cfg) (i : Fin 6) (s : State) : (applyDrumSet cfg i s).dbuf = s.dbuf := (rfl)
@[simp] theorem applyDrumSet_inbox (cfg : Cfg) (i : Fin 6) (s : State) : (applyDrumSet cfg i s).inbox = s.inbox := (rfl)
@[simp] theorem applyDrumSet_rsp (cfg : Cfg) (i : Fin 6) (s : State) : (applyDrumSet cfg i s).rsp = s.rsp := (rfl)
@[simp] theorem applyDrumSet_nanTick (cfg : Cfg) (i : Fin 6) (s : State) : (applyDrumSet cfg i s).nanTick = s.nanTick := (rfl)

/-! selectDrumSet -/

@[simp] theorem selectDrumSet_delayTime (cfg : Cfg) (i : Fin 6) (s : State) : (selectDrumSet cfg i s).delayTime = s.delayTime := (rfl)
@[simp] theorem selectDrumSet_feedback (cfg : Cfg) (i : Fin 6) (s : State) : (selectDrumSet cfg i s).feedback = s.feedback := (rfl)
@[simp] theorem selectDrumSet_lfoRate (cfg : Cfg) (i : Fin 6) (s : State) : (selectDrumSet cfg i s).lfoRate = s.lfoRate := (rfl)
@[simp] theorem selectDrumSet_lfoDepth (cfg : Cfg) (i : Fin 6) (s : State) : (selectDrumSet cfg i s).lfoDepth = s.lfoDepth := (rfl)
@[simp] theorem selectDrumSet_mix (cfg : Cfg) (i : Fin 6) (s : State) : (selectDrumSet cfg i s).mix = s.mix := (rfl)
@[simp] theorem selectDrumSet_tempoKnob (cfg : Cfg) (i : Fin 6) (s : State) : (selectDrumSet cfg i s).tempoKnob = s.tempoKnob := (rfl)
@[simp] theorem selectDrumSet_bpm (cfg : Cfg) (i : Fin 6) (s : State) : (selectDrumSet cfg i s).bpm = s.bpm := (rfl)
@[simp] theorem selectDrumSet_volume (cfg : Cfg) (i : Fin 6) (s : State) : (selectDrumSet cfg i s).volume = s.volume := (rfl)
@[simp] theorem selectDrumSet_baseDelay (cfg : Cfg) (i : Fin 6) (s : State) : (selectDrumSet cfg i s).baseDelay = s.baseDelay := (rfl)
@[simp] theorem selectDrumSet_lfoInc (cfg : Cfg) (i : Fin 6) (s : State) : (selectDrumSet cfg i s).lfoInc = s.lfoInc := (rfl)
@[simp] theorem selectDrumSet_drumset (cfg : Cfg) (i : Fin 6) (s : State) : (selectDrumSet cfg i s).drumset = i := (rfl)
@[simp] theorem selectDrumSet_ctrl (cfg : Cfg) (i : Fin 6) (s : State) : (selectDrumSet cfg i s).ctrl = s.ctrl := (rfl)
@[simp] theorem selectDrumSet_chg (cfg : Cfg) (i : Fin 6) (s : State) : (selectDrumSet cfg i s).chg = (s.chg || decide (i ≠ s.drumset)) := (rfl)
@[simp] theorem selectDrumSet_err (cfg : Cfg) (i : Fin 6) (s : State) : (selectDrumSet cfg i s).err = s.err := (rfl)
@[simp] theorem selectDrumSet_ovf (cfg : Cfg) (i : Fin 6) (s : State) : (selectDrumSet cfg i s).ovf = s.ovf := (rfl)
@[simp] theorem selectDrumSet_errInfo (cfg : Cfg) (i : Fin 6) (s : State) : (selectDrumSet cfg i s).errInfo = s.errInfo := (rfl)
@[simp] theorem selectDrumSet_writeIndex (cfg : Cfg) (i : Fin 6) (s : State) : (selectDrumSet cfg i s).writeIndex = s.writeIndex := (rfl)
@[simp] theorem selectDrumSet_dcX1 (cfg : Cfg) (i : Fin 6) (s : State) : (selectDrumSet cfg i s).dcX1 = s.dcX1 := (rfl)
@[simp] theorem selectDrumSet_dcY1 (cfg : Cfg) (i : Fin 6) (s : State) : (selectDrumSet cfg i s).dcY1 = s.dcY1 := (rfl)
@[simp] theorem selectDrumSet_fbState (cfg : Cfg) (i : Fin 6) (s : State) : (selectDrumSet cfg i s).fbState = s.fbState := (rfl)
@[simp] theorem selectDrumSet_lfoPhase (cfg : Cfg) (i : Fin 6) (s : State) : (selectDrumSet cfg i s).lfoPhase = s.lfoPhase := (rfl)
@[simp] theorem selectDrumSet_kick (cfg : Cfg) (i : Fin 6) (s : State) :
    (selectDrumSet cfg i s).kick = s.kick.load cfg (cfg.drumset i).kickF (cfg.drumset i).kickDec := (rfl)
@[simp] theorem selectDrumSet_snare (cfg : Cfg) (i : Fin 6) (s : State) :
    (selectDrumSet cfg i s).snare = s.snare.load cfg (cfg.drumset i).snareF (cfg.drumset i).snareDec := (rfl)
@[simp] theorem selectDrumSet_hat (cfg : Cfg) (i : Fin 6) (s : State) :
    (selectDrumSet cfg i s).hat = s.hat.load cfg (cfg.drumset i).hatF (cfg.drumset i).hatDec := (rfl)
@[simp] theorem selectDrumSet_click (cfg : Cfg) (i : Fin 6) (s : State) : (selectDrumSet cfg i s).click = s.click := (rfl)
@[simp] theorem selectDrumSet_seqState (cfg : Cfg) (i : Fin 6) (s : State) : (selectDrumSet cfg i s).seqState = s.seqState := (rfl)
@[simp] theorem selectDrumSet_stepIdx (cfg : Cfg) (i : Fin 6) (s : State) : (selectDrumSet cfg i s).stepIdx = s.stepIdx := (rfl)
@[simp] theorem selectDrumSet_subdivCount (cfg : Cfg) (i : Fin 6) (s : State) : (selectDrumSet cfg i s).subdivCount = s.subdivCount := (rfl)
@[simp] theorem selectDrumSet_beatCount (cfg : Cfg) (i : Fin 6) (s : State) : (selectDrumSet cfg i s).beatCount = s.beatCount := (rfl)
@[simp] theorem selectDrumSet_btnPrev (cfg : Cfg) (i : Fin 6) (s : State) : (selectDrumSet cfg i s).btnPrev = s.btnPrev := (rfl)
@[simp] theorem selectDrumSet_lfsr (cfg : Cfg) (i : Fin 6) (s : State) : (selectDrumSet cfg i s).lfsr = s.lfsr := (rfl)
@[simp] theorem selectDrumSet_lastPre (cfg : Cfg) (i : Fin 6) (s : State) : (selectDrumSet cfg i s).lastPre = s.lastPre := (rfl)
@[simp] theorem selectDrumSet_lastL (cfg : Cfg) (i : Fin 6) (s : State) : (selectDrumSet cfg i s).lastL = s.lastL := (rfl)
@[simp] theorem selectDrumSet_lastWet (cfg : Cfg) (i : Fin 6) (s : State) : (selectDrumSet cfg i s).lastWet = s.lastWet := (rfl)
@[simp] theorem selectDrumSet_lastDrumBus (cfg : Cfg) (i : Fin 6) (s : State) : (selectDrumSet cfg i s).lastDrumBus = s.lastDrumBus := (rfl)
@[simp] theorem selectDrumSet_dbuf (cfg : Cfg) (i : Fin 6) (s : State) : (selectDrumSet cfg i s).dbuf = s.dbuf := (rfl)
@[simp] theorem selectDrumSet_inbox (cfg : Cfg) (i : Fin 6) (s : State) : (selectDrumSet cfg i s).inbox = s.inbox := (rfl)
@[simp] theorem selectDrumSet_rsp (cfg : Cfg) (i : Fin 6) (s : State) : (selectDrumSet cfg i s).rsp = s.rsp := (rfl)
@[simp] theorem selectDrumSet_nanTick (cfg : Cfg) (i : Fin 6) (s : State) : (selectDrumSet cfg i s).nanTick = s.nanTick := (rfl)

/-! setDelayTime -/

@[simp] theorem setDelayTime_delayTime (cfg : Cfg) (t : F32) (s : State) :
    (setDelayTime cfg t s).delayTime = F32.clamp t Config.delayMin Config.delayMax := (rfl)
@[simp] theorem setDelayTime_feedback (cfg : Cfg) (t : F32) (s : State) : (setDelayTime cfg t s).feedback = s.feedback := (rfl)
@[simp] theorem setDelayTime_lfoRate (cfg : Cfg) (t : F32) (s : State) : (setDelayTime cfg t s).lfoRate = s.lfoRate := (rfl)
@[simp] theorem setDelayTime_lfoDepth (cfg : Cfg) (t : F32) (s : State) : (setDelayTime cfg t s).lfoDepth = s.lfoDepth := (rfl)
@[simp] theorem setDelayTime_mix (cfg : Cfg) (t : F32) (s : State) : (setDelayTime cfg t s).mix = s.mix := (rfl)
@[simp] theorem setDelayTime_tempoKnob (cfg : Cfg) (t : F32) (s : State) : (setDelayTime cfg t s).tempoKnob = s.tempoKnob := (rfl)
@[simp] theorem setDelayTime_bpm (cfg : Cfg) (t : F32) (s : State) : (setDelayTime cfg t s).bpm = s.bpm := (rfl)
@[simp] theorem setDelayTime_volume (cfg : Cfg) (t : F32) (s : State) : (setDelayTime cfg t s).volume = s.volume := (rfl)
@[simp] theorem setDelayTime_baseDelay (cfg : Cfg) (t : F32) (s : State) :
    (setDelayTime cfg t s).baseDelay = baseDelayOf cfg (F32.clamp t Config.delayMin Config.delayMax) := (rfl)
@[simp] theorem setDelayTime_lfoInc (cfg : Cfg) (t : F32) (s : State) : (setDelayTime cfg t s).lfoInc = s.lfoInc := (rfl)
@[simp] theorem setDelayTime_drumset (cfg : Cfg) (t : F32) (s : State) : (setDelayTime cfg t s).drumset = s.drumset := (rfl)
@[simp] theorem setDelayTime_ctrl (cfg : Cfg) (t : F32) (s : State) : (setDelayTime cfg t s).ctrl = s.ctrl := (rfl)
@[simp] theorem setDelayTime_chg (cfg : Cfg) (t : F32) (s : State) : (setDelayTime cfg t s).chg = s.chg := (rfl)
@[simp] theorem setDelayTime_err (cfg : Cfg) (t : F32) (s : State) : (setDelayTime cfg t s).err = s.err := (rfl)
@[simp] theorem setDelayTime_ovf (cfg : Cfg) (t : F32) (s : State) : (setDelayTime cfg t s).ovf = s.ovf := (rfl)
@[simp] theorem setDelayTime_errInfo (cfg : Cfg) (t : F32) (s : State) : (setDelayTime cfg t s).errInfo = s.errInfo := (rfl)
@[simp] theorem setDelayTime_writeIndex (cfg : Cfg) (t : F32) (s : State) : (setDelayTime cfg t s).writeIndex = s.writeIndex := (rfl)
@[simp] theorem setDelayTime_dcX1 (cfg : Cfg) (t : F32) (s : State) : (setDelayTime cfg t s).dcX1 = s.dcX1 := (rfl)
@[simp] theorem setDelayTime_dcY1 (cfg : Cfg) (t : F32) (s : State) : (setDelayTime cfg t s).dcY1 = s.dcY1 := (rfl)
@[simp] theorem setDelayTime_fbState (cfg : Cfg) (t : F32) (s : State) : (setDelayTime cfg t s).fbState = s.fbState := (rfl)
@[simp] theorem setDelayTime_lfoPhase (cfg : Cfg) (t : F32) (s : State) : (setDelayTime cfg t s).lfoPhase = s.lfoPhase := (rfl)
@[simp] theorem setDelayTime_kick (cfg : Cfg) (t : F32) (s : State) : (setDelayTime cfg t s).kick = s.kick := (rfl)
@[simp] theorem setDelayTime_snare (cfg : Cfg) (t : F32) (s : State) : (setDelayTime cfg t s).snare = s.snare := (rfl)
@[simp] theorem setDelayTime_hat (cfg : Cfg) (t : F32) (s : State) : (setDelayTime cfg t s).hat = s.hat := (rfl)
@[simp] theorem setDelayTime_click (cfg : Cfg) (t : F32) (s : State) : (setDelayTime cfg t s).click = s.click := (rfl)
@[simp] theorem setDelayTime_seqState (cfg : Cfg) (t : F32) (s : State) : (setDelayTime cfg t s).seqState = s.seqState := (rfl)
@[simp] theorem setDelayTime_stepIdx (cfg : Cfg) (t : F32) (s : State) : (setDelayTime cfg t s).stepIdx = s.stepIdx := (rfl)
@[simp] theorem setDelayTime_subdivCount (cfg : Cfg) (t : F32) (s : State) : (setDelayTime cfg t s).subdivCount = s.subdivCount := (rfl)
@[simp] theorem setDelayTime_beatCount (cfg : Cfg) (t : F32) (s : State) : (setDelayTime cfg t s).beatCount = s.beatCount := (rfl)
@[simp] theorem setDelayTime_btnPrev (cfg : Cfg) (t : F32) (s : State) : (setDelayTime cfg t s).btnPrev = s.btnPrev := (rfl)
@[simp] theorem setDelayTime_lfsr (cfg : Cfg) (t : F32) (s : State) : (setDelayTime cfg t s).lfsr = s.lfsr := (rfl)
@[simp] theorem setDelayTime_lastPre (cfg : Cfg) (t : F32) (s : State) : (setDelayTime cfg t s).lastPre = s.lastPre := (rfl)
@[simp] theorem setDelayTime_lastL (cfg : Cfg) (t : F32) (s : State) : (setDelayTime cfg t s).lastL = s.lastL := (rfl)
@[simp] theorem setDelayTime_lastWet (cfg : Cfg) (t : F32) (s : State) : (setDelayTime cfg t s).lastWet = s.lastWet := (rfl)
@[simp] theorem setDelayTime_lastDrumBus (cfg : Cfg) (t : F32) (s : State) : (setDelayTime cfg t s).lastDrumBus = s.lastDrumBus := (rfl)
@[simp] theorem setDelayTime_dbuf (cfg : Cfg) (t : F32) (s : State) : (setDelayTime cfg t s).dbuf = s.dbuf := (rfl)
@[simp] theorem setDelayTime_inbox (cfg : Cfg) (t : F32) (s : State) : (setDelayTime cfg t s).inbox = s.inbox := (rfl)
@[simp] theorem setDelayTime_rsp (cfg : Cfg) (t : F32) (s : State) : (setDelayTime cfg t s).rsp = s.rsp := (rfl)
@[simp] theorem setDelayTime_nanTick (cfg : Cfg) (t : F32) (s : State) : (setDelayTime cfg t s).nanTick = s.nanTick := (rfl)

/-! setFeedback -/

@[simp] theorem setFeedback_delayTime (g : F32) (s : State) : (setFeedback g s).delayTime = s.delayTime := (rfl)
@[simp] theorem setFeedback_feedback (g : F32) (s : State) : (setFeedback g s).feedback = F32.clamp g Config.zero Config.fbMax := (rfl)
@[simp] theorem setFeedback_lfoRate (g : F32) (s : State) : (setFeedback g s).lfoRate = s.lfoRate := (rfl)
@[simp] theorem setFeedback_lfoDepth (g : F32) (s : State) : (setFeedback g s).lfoDepth = s.lfoDepth := (rfl)
@[simp] theorem setFeedback_mix (g : F32) (s : State) : (setFeedback g s).mix = s.mix := (rfl)
@[simp] theorem setFeedback_tempoKnob (g : F32) (s : State) : (setFeedback g s).tempoKnob = s.tempoKnob := (rfl)
@[simp] theorem setFeedback_bpm (g : F32) (s : State) : (setFeedback g s).bpm = s.bpm := (rfl)
@[simp] theorem setFeedback_volume (g : F32) (s : State) : (setFeedback g s).volume = s.volume := (rfl)
@[simp] theorem setFeedback_baseDelay (g : F32) (s : State) : (setFeedback g s).baseDelay = s.baseDelay := (rfl)
@[simp] theorem setFeedback_lfoInc (g : F32) (s : State) : (setFeedback g s).lfoInc = s.lfoInc := (rfl)
@[simp] theorem setFeedback_drumset (g : F32) (s : State) : (setFeedback g s).drumset = s.drumset := (rfl)
@[simp] theorem setFeedback_ctrl (g : F32) (s : State) : (setFeedback g s).ctrl = s.ctrl := (rfl)
@[simp] theorem setFeedback_chg (g : F32) (s : State) : (setFeedback g s).chg = s.chg := (rfl)
@[simp] theorem setFeedback_err (g : F32) (s : State) : (setFeedback g s).err = s.err := (rfl)
@[simp] theorem setFeedback_ovf (g : F32) (s : State) : (setFeedback g s).ovf = s.ovf := (rfl)
@[simp] theorem setFeedback_errInfo (g : F32) (s : State) : (setFeedback g s).errInfo = s.errInfo := (rfl)
@[simp] theorem setFeedback_writeIndex (g : F32) (s : State) : (setFeedback g s).writeIndex = s.writeIndex := (rfl)
@[simp] theorem setFeedback_dcX1 (g : F32) (s : State) : (setFeedback g s).dcX1 = s.dcX1 := (rfl)
@[simp] theorem setFeedback_dcY1 (g : F32) (s : State) : (setFeedback g s).dcY1 = s.dcY1 := (rfl)
@[simp] theorem setFeedback_fbState (g : F32) (s : State) : (setFeedback g s).fbState = s.fbState := (rfl)
@[simp] theorem setFeedback_lfoPhase (g : F32) (s : State) : (setFeedback g s).lfoPhase = s.lfoPhase := (rfl)
@[simp] theorem setFeedback_kick (g : F32) (s : State) : (setFeedback g s).kick = s.kick := (rfl)
@[simp] theorem setFeedback_snare (g : F32) (s : State) : (setFeedback g s).snare = s.snare := (rfl)
@[simp] theorem setFeedback_hat (g : F32) (s : State) : (setFeedback g s).hat = s.hat := (rfl)
@[simp] theorem setFeedback_click (g : F32) (s : State) : (setFeedback g s).click = s.click := (rfl)
@[simp] theorem setFeedback_seqState (g : F32) (s : State) : (setFeedback g s).seqState = s.seqState := (rfl)
@[simp] theorem setFeedback_stepIdx (g : F32) (s : State) : (setFeedback g s).stepIdx = s.stepIdx := (rfl)
@[simp] theorem setFeedback_subdivCount (g : F32) (s : State) : (setFeedback g s).subdivCount = s.subdivCount := (rfl)
@[simp] theorem setFeedback_beatCount (g : F32) (s : State) : (setFeedback g s).beatCount = s.beatCount := (rfl)
@[simp] theorem setFeedback_btnPrev (g : F32) (s : State) : (setFeedback g s).btnPrev = s.btnPrev := (rfl)
@[simp] theorem setFeedback_lfsr (g : F32) (s : State) : (setFeedback g s).lfsr = s.lfsr := (rfl)
@[simp] theorem setFeedback_lastPre (g : F32) (s : State) : (setFeedback g s).lastPre = s.lastPre := (rfl)
@[simp] theorem setFeedback_lastL (g : F32) (s : State) : (setFeedback g s).lastL = s.lastL := (rfl)
@[simp] theorem setFeedback_lastWet (g : F32) (s : State) : (setFeedback g s).lastWet = s.lastWet := (rfl)
@[simp] theorem setFeedback_lastDrumBus (g : F32) (s : State) : (setFeedback g s).lastDrumBus = s.lastDrumBus := (rfl)
@[simp] theorem setFeedback_dbuf (g : F32) (s : State) : (setFeedback g s).dbuf = s.dbuf := (rfl)
@[simp] theorem setFeedback_inbox (g : F32) (s : State) : (setFeedback g s).inbox = s.inbox := (rfl)
@[simp] theorem setFeedback_rsp (g : F32) (s : State) : (setFeedback g s).rsp = s.rsp := (rfl)
@[simp] theorem setFeedback_nanTick (g : F32) (s : State) : (setFeedback g s).nanTick = s.nanTick := (rfl)

/-! setLfoRate -/

@[simp] theorem setLfoRate_delayTime (cfg : Cfg) (r : F32) (s : State) : (setLfoRate cfg r s).delayTime = s.delayTime := (rfl)
@[simp] theorem setLfoRate_feedback (cfg : Cfg) (r : F32) (s : State) : (setLfoRate cfg r s).feedback = s.feedback := (rfl)
@[simp] theorem setLfoRate_lfoRate (cfg : Cfg) (r : F32) (s : State) : (setLfoRate cfg r s).lfoRate = F32.clamp r Config.lfoMin Config.lfoMax := (rfl)
@[simp] theorem setLfoRate_lfoDepth (cfg : Cfg) (r : F32) (s : State) : (setLfoRate cfg r s).lfoDepth = s.lfoDepth := (rfl)
@[simp] theorem setLfoRate_mix (cfg : Cfg) (r : F32) (s : State) : (setLfoRate cfg r s).mix = s.mix := (rfl)
@[simp] theorem setLfoRate_tempoKnob (cfg : Cfg) (r : F32) (s : State) : (setLfoRate cfg r s).tempoKnob = s.tempoKnob := (rfl)
@[simp] theorem setLfoRate_bpm (cfg : Cfg) (r : F32) (s : State) : (setLfoRate cfg r s).bpm = s.bpm := (rfl)
@[simp] theorem setLfoRate_volume (cfg : Cfg) (r : F32) (s : State) : (setLfoRate cfg r s).volume = s.volume := (rfl)
@[simp] theorem setLfoRate_baseDelay (cfg : Cfg) (r : F32) (s : State) : (setLfoRate cfg r s).baseDelay = s.baseDelay := (rfl)
@[simp] theorem setLfoRate_lfoInc (cfg : Cfg) (r : F32) (s : State) :
    (setLfoRate cfg r s).lfoInc = phaseIncOf cfg (F32.clamp r Config.lfoMin Config.lfoMax) := (rfl)
@[simp] theorem setLfoRate_drumset (cfg : Cfg) (r : F32) (s : State) : (setLfoRate cfg r s).drumset = s.drumset := (rfl)
@[simp] theorem setLfoRate_ctrl (cfg : Cfg) (r : F32) (s : State) : (setLfoRate cfg r s).ctrl = s.ctrl := (rfl)
@[simp] theorem setLfoRate_chg (cfg : Cfg) (r : F32) (s : State) : (setLfoRate cfg r s).chg = s.chg := (rfl)
@[simp] theorem setLfoRate_err (cfg : Cfg) (r : F32) (s : State) : (setLfoRate cfg r s).err = s.err := (rfl)
@[simp] theorem setLfoRate_ovf (cfg : Cfg) (r : F32) (s : State) : (setLfoRate cfg r s).ovf = s.ovf := (rfl)
@[simp] theorem setLfoRate_errInfo (cfg : Cfg) (r : F32) (s : State) : (setLfoRate cfg r s).errInfo = s.errInfo := (rfl)
@[simp] theorem setLfoRate_writeIndex (cfg : Cfg) (r : F32) (s : State) : (setLfoRate cfg r s).writeIndex = s.writeIndex := (rfl)
@[simp] theorem setLfoRate_dcX1 (cfg : Cfg) (r : F32) (s : State) : (setLfoRate cfg r s).dcX1 = s.dcX1 := (rfl)
@[simp] theorem setLfoRate_dcY1 (cfg : Cfg) (r : F32) (s : State) : (setLfoRate cfg r s).dcY1 = s.dcY1 := (rfl)
@[simp] theorem setLfoRate_fbState (cfg : Cfg) (r : F32) (s : State) : (setLfoRate cfg r s).fbState = s.fbState := (rfl)
@[simp] theorem setLfoRate_lfoPhase (cfg : Cfg) (r : F32) (s : State) : (setLfoRate cfg r s).lfoPhase = s.lfoPhase := (rfl)
@[simp] theorem setLfoRate_kick (cfg : Cfg) (r : F32) (s : State) : (setLfoRate cfg r s).kick = s.kick := (rfl)
@[simp] theorem setLfoRate_snare (cfg : Cfg) (r : F32) (s : State) : (setLfoRate cfg r s).snare = s.snare := (rfl)
@[simp] theorem setLfoRate_hat (cfg : Cfg) (r : F32) (s : State) : (setLfoRate cfg r s).hat = s.hat := (rfl)
@[simp] theorem setLfoRate_click (cfg : Cfg) (r : F32) (s : State) : (setLfoRate cfg r s).click = s.click := (rfl)
@[simp] theorem setLfoRate_seqState (cfg : Cfg) (r : F32) (s : State) : (setLfoRate cfg r s).seqState = s.seqState := (rfl)
@[simp] theorem setLfoRate_stepIdx (cfg : Cfg) (r : F32) (s : State) : (setLfoRate cfg r s).stepIdx = s.stepIdx := (rfl)
@[simp] theorem setLfoRate_subdivCount (cfg : Cfg) (r : F32) (s : State) : (setLfoRate cfg r s).subdivCount = s.subdivCount := (rfl)
@[simp] theorem setLfoRate_beatCount (cfg : Cfg) (r : F32) (s : State) : (setLfoRate cfg r s).beatCount = s.beatCount := (rfl)
@[simp] theorem setLfoRate_btnPrev (cfg : Cfg) (r : F32) (s : State) : (setLfoRate cfg r s).btnPrev = s.btnPrev := (rfl)
@[simp] theorem setLfoRate_lfsr (cfg : Cfg) (r : F32) (s : State) : (setLfoRate cfg r s).lfsr = s.lfsr := (rfl)
@[simp] theorem setLfoRate_lastPre (cfg : Cfg) (r : F32) (s : State) : (setLfoRate cfg r s).lastPre = s.lastPre := (rfl)
@[simp] theorem setLfoRate_lastL (cfg : Cfg) (r : F32) (s : State) : (setLfoRate cfg r s).lastL = s.lastL := (rfl)
@[simp] theorem setLfoRate_lastWet (cfg : Cfg) (r : F32) (s : State) : (setLfoRate cfg r s).lastWet = s.lastWet := (rfl)
@[simp] theorem setLfoRate_lastDrumBus (cfg : Cfg) (r : F32) (s : State) : (setLfoRate cfg r s).lastDrumBus = s.lastDrumBus := (rfl)
@[simp] theorem setLfoRate_dbuf (cfg : Cfg) (r : F32) (s : State) : (setLfoRate cfg r s).dbuf = s.dbuf := (rfl)
@[simp] theorem setLfoRate_inbox (cfg : Cfg) (r : F32) (s : State) : (setLfoRate cfg r s).inbox = s.inbox := (rfl)
@[simp] theorem setLfoRate_rsp (cfg : Cfg) (r : F32) (s : State) : (setLfoRate cfg r s).rsp = s.rsp := (rfl)
@[simp] theorem setLfoRate_nanTick (cfg : Cfg) (r : F32) (s : State) : (setLfoRate cfg r s).nanTick = s.nanTick := (rfl)

/-! setTempo -/

@[simp] theorem setTempo_delayTime (cfg : Cfg) (k : F32) (s : State) : (setTempo cfg k s).delayTime = s.delayTime := (rfl)
@[simp] theorem setTempo_feedback (cfg : Cfg) (k : F32) (s : State) : (setTempo cfg k s).feedback = s.feedback := (rfl)
@[simp] theorem setTempo_lfoRate (cfg : Cfg) (k : F32) (s : State) : (setTempo cfg k s).lfoRate = s.lfoRate := (rfl)
@[simp] theorem setTempo_lfoDepth (cfg : Cfg) (k : F32) (s : State) : (setTempo cfg k s).lfoDepth = s.lfoDepth := (rfl)
@[simp] theorem setTempo_mix (cfg : Cfg) (k : F32) (s : State) : (setTempo cfg k s).mix = s.mix := (rfl)
@[simp] theorem setTempo_tempoKnob (cfg : Cfg) (k : F32) (s : State) : (setTempo cfg k s).tempoKnob = knobValue k := (rfl)
@[simp] theorem setTempo_bpm (cfg : Cfg) (k : F32) (s : State) : (setTempo cfg k s).bpm = bpmOf cfg (knobValue k) := (rfl)
@[simp] theorem setTempo_volume (cfg : Cfg) (k : F32) (s : State) : (setTempo cfg k s).volume = s.volume := (rfl)
@[simp] theorem setTempo_baseDelay (cfg : Cfg) (k : F32) (s : State) : (setTempo cfg k s).baseDelay = s.baseDelay := (rfl)
@[simp] theorem setTempo_lfoInc (cfg : Cfg) (k : F32) (s : State) : (setTempo cfg k s).lfoInc = s.lfoInc := (rfl)
@[simp] theorem setTempo_drumset (cfg : Cfg) (k : F32) (s : State) : (setTempo cfg k s).drumset = s.drumset := (rfl)
@[simp] theorem setTempo_ctrl (cfg : Cfg) (k : F32) (s : State) : (setTempo cfg k s).ctrl = s.ctrl := (rfl)
@[simp] theorem setTempo_chg (cfg : Cfg) (k : F32) (s : State) : (setTempo cfg k s).chg = s.chg := (rfl)
@[simp] theorem setTempo_err (cfg : Cfg) (k : F32) (s : State) : (setTempo cfg k s).err = s.err := (rfl)
@[simp] theorem setTempo_ovf (cfg : Cfg) (k : F32) (s : State) : (setTempo cfg k s).ovf = s.ovf := (rfl)
@[simp] theorem setTempo_errInfo (cfg : Cfg) (k : F32) (s : State) : (setTempo cfg k s).errInfo = s.errInfo := (rfl)
@[simp] theorem setTempo_writeIndex (cfg : Cfg) (k : F32) (s : State) : (setTempo cfg k s).writeIndex = s.writeIndex := (rfl)
@[simp] theorem setTempo_dcX1 (cfg : Cfg) (k : F32) (s : State) : (setTempo cfg k s).dcX1 = s.dcX1 := (rfl)
@[simp] theorem setTempo_dcY1 (cfg : Cfg) (k : F32) (s : State) : (setTempo cfg k s).dcY1 = s.dcY1 := (rfl)
@[simp] theorem setTempo_fbState (cfg : Cfg) (k : F32) (s : State) : (setTempo cfg k s).fbState = s.fbState := (rfl)
@[simp] theorem setTempo_lfoPhase (cfg : Cfg) (k : F32) (s : State) : (setTempo cfg k s).lfoPhase = s.lfoPhase := (rfl)
@[simp] theorem setTempo_kick (cfg : Cfg) (k : F32) (s : State) : (setTempo cfg k s).kick = s.kick := (rfl)
@[simp] theorem setTempo_snare (cfg : Cfg) (k : F32) (s : State) : (setTempo cfg k s).snare = s.snare := (rfl)
@[simp] theorem setTempo_hat (cfg : Cfg) (k : F32) (s : State) : (setTempo cfg k s).hat = s.hat := (rfl)
@[simp] theorem setTempo_click (cfg : Cfg) (k : F32) (s : State) : (setTempo cfg k s).click = s.click := (rfl)
@[simp] theorem setTempo_seqState (cfg : Cfg) (k : F32) (s : State) : (setTempo cfg k s).seqState = s.seqState := (rfl)
@[simp] theorem setTempo_stepIdx (cfg : Cfg) (k : F32) (s : State) : (setTempo cfg k s).stepIdx = s.stepIdx := (rfl)
@[simp] theorem setTempo_subdivCount (cfg : Cfg) (k : F32) (s : State) : (setTempo cfg k s).subdivCount = s.subdivCount := (rfl)
@[simp] theorem setTempo_beatCount (cfg : Cfg) (k : F32) (s : State) : (setTempo cfg k s).beatCount = s.beatCount := (rfl)
@[simp] theorem setTempo_btnPrev (cfg : Cfg) (k : F32) (s : State) : (setTempo cfg k s).btnPrev = s.btnPrev := (rfl)
@[simp] theorem setTempo_lfsr (cfg : Cfg) (k : F32) (s : State) : (setTempo cfg k s).lfsr = s.lfsr := (rfl)
@[simp] theorem setTempo_lastPre (cfg : Cfg) (k : F32) (s : State) : (setTempo cfg k s).lastPre = s.lastPre := (rfl)
@[simp] theorem setTempo_lastL (cfg : Cfg) (k : F32) (s : State) : (setTempo cfg k s).lastL = s.lastL := (rfl)
@[simp] theorem setTempo_lastWet (cfg : Cfg) (k : F32) (s : State) : (setTempo cfg k s).lastWet = s.lastWet := (rfl)
@[simp] theorem setTempo_lastDrumBus (cfg : Cfg) (k : F32) (s : State) : (setTempo cfg k s).lastDrumBus = s.lastDrumBus := (rfl)
@[simp] theorem setTempo_dbuf (cfg : Cfg) (k : F32) (s : State) : (setTempo cfg k s).dbuf = s.dbuf := (rfl)
@[simp] theorem setTempo_inbox (cfg : Cfg) (k : F32) (s : State) : (setTempo cfg k s).inbox = s.inbox := (rfl)
@[simp] theorem setTempo_rsp (cfg : Cfg) (k : F32) (s : State) : (setTempo cfg k s).rsp = s.rsp := (rfl)
@[simp] theorem setTempo_nanTick (cfg : Cfg) (k : F32) (s : State) : (setTempo cfg k s).nanTick = s.nanTick := (rfl)

/-! clockStep -/

@[simp] theorem clockStep_delayTime (cfg : Cfg) (nu : NanRule) (s : State) : (clockStep cfg nu s).delayTime = s.delayTime := mk_delayTime ..
@[simp] theorem clockStep_feedback (cfg : Cfg) (nu : NanRule) (s : State) : (clockStep cfg nu s).feedback = s.feedback := mk_feedback ..
@[simp] theorem clockStep_lfoRate (cfg : Cfg) (nu : NanRule) (s : State) : (clockStep cfg nu s).lfoRate = s.lfoRate := mk_lfoRate ..
@[simp] theorem clockStep_lfoDepth (cfg : Cfg) (nu : NanRule) (s : State) : (clockStep cfg nu s).lfoDepth = s.lfoDepth := mk_lfoDepth ..
@[simp] theorem clockStep_mix (cfg : Cfg) (nu : NanRule) (s : State) : (clockStep cfg nu s).mix = s.mix := mk_mix ..
@[simp] theorem clockStep_tempoKnob (cfg : Cfg) (nu : NanRule) (s : State) : (clockStep cfg nu s).tempoKnob = s.tempoKnob := mk_tempoKnob ..
@[simp] theorem clockStep_bpm (cfg : Cfg) (nu : NanRule) (s : State) : (clockStep cfg nu s).bpm = s.bpm := mk_bpm ..
@[simp] theorem clockStep_volume (cfg : Cfg) (nu : NanRule) (s : State) : (clockStep cfg nu s).volume = s.volume := mk_volume ..
@[simp] theorem clockStep_baseDelay (cfg : Cfg) (nu : NanRule) (s : State) : (clockStep cfg nu s).baseDelay = s.baseDelay := mk_baseDelay ..
@[simp] theorem clockStep_lfoInc (cfg : Cfg) (nu : NanRule) (s : State) : (clockStep cfg nu s).lfoInc = s.lfoInc := mk_lfoInc ..
@[simp] theorem clockStep_drumset (cfg : Cfg) (nu : NanRule) (s : State) : (clockStep cfg nu s).drumset = s.drumset := mk_drumset ..
@[simp] theorem clockStep_ctrl (cfg : Cfg) (nu : NanRule) (s : State) : (clockStep cfg nu s).ctrl = s.ctrl := mk_ctrl ..
@[simp] theorem clockStep_chg (cfg : Cfg) (nu : NanRule) (s : State) : (clockStep cfg nu s).chg = s.chg := mk_chg ..
@[simp] theorem clockStep_err (cfg : Cfg) (nu : NanRule) (s : State) : (clockStep cfg nu s).err = s.err := mk_err ..
@[simp] theorem clockStep_ovf (cfg : Cfg) (nu : NanRule) (s : State) : (clockStep cfg nu s).ovf = s.ovf := mk_ovf ..
@[simp] theorem clockStep_errInfo (cfg : Cfg) (nu : NanRule) (s : State) : (clockStep cfg nu s).errInfo = s.errInfo := mk_errInfo ..
@[simp] theorem clockStep_writeIndex (cfg : Cfg) (nu : NanRule) (s : State) : (clockStep cfg nu s).writeIndex = s.writeIndex := mk_writeIndex ..
@[simp] theorem clockStep_dcX1 (cfg : Cfg) (nu : NanRule) (s : State) : (clockStep cfg nu s).dcX1 = s.dcX1 := mk_dcX1 ..
@[simp] theorem clockStep_dcY1 (cfg : Cfg) (nu : NanRule) (s : State) : (clockStep cfg nu s).dcY1 = s.dcY1 := mk_dcY1 ..
@[simp] theorem clockStep_fbState (cfg : Cfg) (nu : NanRule) (s : State) : (clockStep cfg nu s).fbState = s.fbState := mk_fbState ..
@[simp] theorem clockStep_lfoPhase (cfg : Cfg) (nu : NanRule) (s : State) : (clockStep cfg nu s).lfoPhase = s.lfoPhase := mk_lfoPhase ..
@[simp] theorem clockStep_kick (cfg : Cfg) (nu : NanRule) (s : State) :
    (clockStep cfg nu s).kick = { s.kick with env := s.kick.env.triggerIf (stepFires cfg nu .kick s) } := mk_kick ..
@[simp] theorem clockStep_snare (cfg : Cfg) (nu : NanRule) (s : State) :
    (clockStep cfg nu s).snare = { s.snare with env := s.snare.env.triggerIf (stepFires cfg nu .snare s) } := mk_snare ..
@[simp] theorem clockStep_hat (cfg : Cfg) (nu : NanRule) (s : State) :
    (clockStep cfg nu s).hat = { s.hat with env := s.hat.env.triggerIf (stepFires cfg nu .hat s) } := mk_hat ..
@[simp] theorem clockStep_click (cfg : Cfg) (nu : NanRule) (s : State) :
    (clockStep cfg nu s).click = { s.click with env := s.click.env.triggerIf (beatWraps cfg nu s) } := mk_click ..
@[simp] theorem clockStep_seqState (cfg : Cfg) (nu : NanRule) (s : State) :
    (clockStep cfg nu s).seqState = if patternEnds cfg nu s then .armed else s.seqState := mk_seqState ..
@[simp] theorem clockStep_stepIdx (cfg : Cfg) (nu : NanRule) (s : State) :
    (clockStep cfg nu s).stepIdx = if patternEnds cfg nu s then 0 else if seqFires cfg nu s then s.stepIdx + 1 else s.stepIdx := mk_stepIdx ..
@[simp] theorem clockStep_subdivCount (cfg : Cfg) (nu : NanRule) (s : State) :
    (clockStep cfg nu s).subdivCount = counterNext nu s.subdivCount (subInterval cfg nu s.bpm) := mk_subdivCount ..
@[simp] theorem clockStep_beatCount (cfg : Cfg) (nu : NanRule) (s : State) :
    (clockStep cfg nu s).beatCount = counterNext nu s.beatCount (beatInterval cfg nu s.bpm) := mk_beatCount ..
@[simp] theorem clockStep_btnPrev (cfg : Cfg) (nu : NanRule) (s : State) : (clockStep cfg nu s).btnPrev = s.btnPrev := mk_btnPrev ..
@[simp] theorem clockStep_lfsr (cfg : Cfg) (nu : NanRule) (s : State) : (clockStep cfg nu s).lfsr = s.lfsr := mk_lfsr ..
@[simp] theorem clockStep_lastPre (cfg : Cfg) (nu : NanRule) (s : State) : (clockStep cfg nu s).lastPre = s.lastPre := mk_lastPre ..
@[simp] theorem clockStep_lastL (cfg : Cfg) (nu : NanRule) (s : State) : (clockStep cfg nu s).lastL = s.lastL := mk_lastL ..
@[simp] theorem clockStep_lastWet (cfg : Cfg) (nu : NanRule) (s : State) : (clockStep cfg nu s).lastWet = s.lastWet := mk_lastWet ..
@[simp] theorem clockStep_lastDrumBus (cfg : Cfg) (nu : NanRule) (s : State) : (clockStep cfg nu s).lastDrumBus = s.lastDrumBus := mk_lastDrumBus ..
@[simp] theorem clockStep_dbuf (cfg : Cfg) (nu : NanRule) (s : State) : (clockStep cfg nu s).dbuf = s.dbuf := mk_dbuf ..
@[simp] theorem clockStep_inbox (cfg : Cfg) (nu : NanRule) (s : State) : (clockStep cfg nu s).inbox = s.inbox := mk_inbox ..
@[simp] theorem clockStep_rsp (cfg : Cfg) (nu : NanRule) (s : State) : (clockStep cfg nu s).rsp = s.rsp := mk_rsp ..
@[simp] theorem clockStep_nanTick (cfg : Cfg) (nu : NanRule) (s : State) : (clockStep cfg nu s).nanTick = s.nanTick := mk_nanTick ..

/-! voicesStep -/

@[simp] theorem voicesStep_delayTime (cfg : Cfg) (nu : NanRule) (s : State) : (voicesStep cfg nu s).delayTime = s.delayTime := (rfl)
@[simp] theorem voicesStep_feedback (cfg : Cfg) (nu : NanRule) (s : State) : (voicesStep cfg nu s).feedback = s.feedback := (rfl)
@[simp] theorem voicesStep_lfoRate (cfg : Cfg) (nu : NanRule) (s : State) : (voicesStep cfg nu s).lfoRate = s.lfoRate := (rfl)
@[simp] theorem voicesStep_lfoDepth (cfg : Cfg) (nu : NanRule) (s : State) : (voicesStep cfg nu s).lfoDepth = s.lfoDepth := (rfl)
@[simp] theorem voicesStep_mix (cfg : Cfg) (nu : NanRule) (s : State) : (voicesStep cfg nu s).mix = s.mix := (rfl)
@[simp] theorem voicesStep_tempoKnob (cfg : Cfg) (nu : NanRule) (s : State) : (voicesStep cfg nu s).tempoKnob = s.tempoKnob := (rfl)
@[simp] theorem voicesStep_bpm (cfg : Cfg) (nu : NanRule) (s : State) : (voicesStep cfg nu s).bpm = s.bpm := (rfl)
@[simp] theorem voicesStep_volume (cfg : Cfg) (nu : NanRule) (s : State) : (voicesStep cfg nu s).volume = s.volume := (rfl)
@[simp] theorem voicesStep_baseDelay (cfg : Cfg) (nu : NanRule) (s : State) : (voicesStep cfg nu s).baseDelay = s.baseDelay := (rfl)
@[simp] theorem voicesStep_lfoInc (cfg : Cfg) (nu : NanRule) (s : State) : (voicesStep cfg nu s).lfoInc = s.lfoInc := (rfl)
@[simp] theorem voicesStep_drumset (cfg : Cfg) (nu : NanRule) (s : State) : (voicesStep cfg nu s).drumset = s.drumset := (rfl)
@[simp] theorem voicesStep_ctrl (cfg : Cfg) (nu : NanRule) (s : State) : (voicesStep cfg nu s).ctrl = s.ctrl := (rfl)
@[simp] theorem voicesStep_chg (cfg : Cfg) (nu : NanRule) (s : State) : (voicesStep cfg nu s).chg = s.chg := (rfl)
@[simp] theorem voicesStep_err (cfg : Cfg) (nu : NanRule) (s : State) : (voicesStep cfg nu s).err = s.err := (rfl)
@[simp] theorem voicesStep_ovf (cfg : Cfg) (nu : NanRule) (s : State) : (voicesStep cfg nu s).ovf = s.ovf := (rfl)
@[simp] theorem voicesStep_errInfo (cfg : Cfg) (nu : NanRule) (s : State) : (voicesStep cfg nu s).errInfo = s.errInfo := (rfl)
@[simp] theorem voicesStep_writeIndex (cfg : Cfg) (nu : NanRule) (s : State) : (voicesStep cfg nu s).writeIndex = s.writeIndex := (rfl)
@[simp] theorem voicesStep_dcX1 (cfg : Cfg) (nu : NanRule) (s : State) : (voicesStep cfg nu s).dcX1 = s.dcX1 := (rfl)
@[simp] theorem voicesStep_dcY1 (cfg : Cfg) (nu : NanRule) (s : State) : (voicesStep cfg nu s).dcY1 = s.dcY1 := (rfl)
@[simp] theorem voicesStep_fbState (cfg : Cfg) (nu : NanRule) (s : State) : (voicesStep cfg nu s).fbState = s.fbState := (rfl)
@[simp] theorem voicesStep_lfoPhase (cfg : Cfg) (nu : NanRule) (s : State) : (voicesStep cfg nu s).lfoPhase = s.lfoPhase := (rfl)
@[simp] theorem voicesStep_kick (cfg : Cfg) (nu : NanRule) (s : State) : (voicesStep cfg nu s).kick = s.kick.next nu := (rfl)
@[simp] theorem voicesStep_snare (cfg : Cfg) (nu : NanRule) (s : State) : (voicesStep cfg nu s).snare = s.snare.next nu (noiseValue nu s.lfsr) := (rfl)
@[simp] theorem voicesStep_hat (cfg : Cfg) (nu : NanRule) (s : State) : (voicesStep cfg nu s).hat = s.hat.next nu (noiseValue nu s.lfsr) := (rfl)
@[simp] theorem voicesStep_click (cfg : Cfg) (nu : NanRule) (s : State) : (voicesStep cfg nu s).click = s.click.next nu := (rfl)
@[simp] theorem voicesStep_seqState (cfg : Cfg) (nu : NanRule) (s : State) : (voicesStep cfg nu s).seqState = s.seqState := (rfl)
@[simp] theorem voicesStep_stepIdx (cfg : Cfg) (nu : NanRule) (s : State) : (voicesStep cfg nu s).stepIdx = s.stepIdx := (rfl)
@[simp] theorem voicesStep_subdivCount (cfg : Cfg) (nu : NanRule) (s : State) : (voicesStep cfg nu s).subdivCount = s.subdivCount := (rfl)
@[simp] theorem voicesStep_beatCount (cfg : Cfg) (nu : NanRule) (s : State) : (voicesStep cfg nu s).beatCount = s.beatCount := (rfl)
@[simp] theorem voicesStep_btnPrev (cfg : Cfg) (nu : NanRule) (s : State) : (voicesStep cfg nu s).btnPrev = s.btnPrev := (rfl)
@[simp] theorem voicesStep_lfsr (cfg : Cfg) (nu : NanRule) (s : State) : (voicesStep cfg nu s).lfsr = noiseNext s.lfsr := (rfl)
@[simp] theorem voicesStep_lastPre (cfg : Cfg) (nu : NanRule) (s : State) : (voicesStep cfg nu s).lastPre = s.lastPre := (rfl)
@[simp] theorem voicesStep_lastL (cfg : Cfg) (nu : NanRule) (s : State) : (voicesStep cfg nu s).lastL = s.lastL := (rfl)
@[simp] theorem voicesStep_lastWet (cfg : Cfg) (nu : NanRule) (s : State) : (voicesStep cfg nu s).lastWet = s.lastWet := (rfl)
@[simp] theorem voicesStep_lastDrumBus (cfg : Cfg) (nu : NanRule) (s : State) : (voicesStep cfg nu s).lastDrumBus = drumBus cfg nu s := (rfl)
@[simp] theorem voicesStep_dbuf (cfg : Cfg) (nu : NanRule) (s : State) : (voicesStep cfg nu s).dbuf = s.dbuf := (rfl)
@[simp] theorem voicesStep_inbox (cfg : Cfg) (nu : NanRule) (s : State) : (voicesStep cfg nu s).inbox = s.inbox := (rfl)
@[simp] theorem voicesStep_rsp (cfg : Cfg) (nu : NanRule) (s : State) : (voicesStep cfg nu s).rsp = s.rsp := (rfl)
@[simp] theorem voicesStep_nanTick (cfg : Cfg) (nu : NanRule) (s : State) : (voicesStep cfg nu s).nanTick = s.nanTick := (rfl)

/-! delayProcess -/

@[simp] theorem delayProcess_delayTime (cfg : Cfg) (nu : NanRule) (xin : F32) (s : State) : (delayProcess cfg nu xin s).delayTime = s.delayTime := (rfl)
@[simp] theorem delayProcess_feedback (cfg : Cfg) (nu : NanRule) (xin : F32) (s : State) : (delayProcess cfg nu xin s).feedback = s.feedback := (rfl)
@[simp] theorem delayProcess_lfoRate (cfg : Cfg) (nu : NanRule) (xin : F32) (s : State) : (delayProcess cfg nu xin s).lfoRate = s.lfoRate := (rfl)
@[simp] theorem delayProcess_lfoDepth (cfg : Cfg) (nu : NanRule) (xin : F32) (s : State) : (delayProcess cfg nu xin s).lfoDepth = s.lfoDepth := (rfl)
@[simp] theorem delayProcess_mix (cfg : Cfg) (nu : NanRule) (xin : F32) (s : State) : (delayProcess cfg nu xin s).mix = s.mix := (rfl)
@[simp] theorem delayProcess_tempoKnob (cfg : Cfg) (nu : NanRule) (xin : F32) (s : State) : (delayProcess cfg nu xin s).tempoKnob = s.tempoKnob := (rfl)
@[simp] theorem delayProcess_bpm (cfg : Cfg) (nu : NanRule) (xin : F32) (s : State) : (delayProcess cfg nu xin s).bpm = s.bpm := (rfl)
@[simp] theorem delayProcess_volume (cfg : Cfg) (nu : NanRule) (xin : F32) (s : State) : (delayProcess cfg nu xin s).volume = s.volume := (rfl)
@[simp] theorem delayProcess_baseDelay (cfg : Cfg) (nu : NanRule) (xin : F32) (s : State) : (delayProcess cfg nu xin s).baseDelay = s.baseDelay := (rfl)
@[simp] theorem delayProcess_lfoInc (cfg : Cfg) (nu : NanRule) (xin : F32) (s : State) : (delayProcess cfg nu xin s).lfoInc = s.lfoInc := (rfl)
@[simp] theorem delayProcess_drumset (cfg : Cfg) (nu : NanRule) (xin : F32) (s : State) : (delayProcess cfg nu xin s).drumset = s.drumset := (rfl)
@[simp] theorem delayProcess_ctrl (cfg : Cfg) (nu : NanRule) (xin : F32) (s : State) : (delayProcess cfg nu xin s).ctrl = s.ctrl := (rfl)
@[simp] theorem delayProcess_chg (cfg : Cfg) (nu : NanRule) (xin : F32) (s : State) : (delayProcess cfg nu xin s).chg = s.chg := (rfl)
@[simp] theorem delayProcess_err (cfg : Cfg) (nu : NanRule) (xin : F32) (s : State) : (delayProcess cfg nu xin s).err = s.err := (rfl)
@[simp] theorem delayProcess_ovf (cfg : Cfg) (nu : NanRule) (xin : F32) (s : State) : (delayProcess cfg nu xin s).ovf = s.ovf := (rfl)
@[simp] theorem delayProcess_errInfo (cfg : Cfg) (nu : NanRule) (xin : F32) (s : State) : (delayProcess cfg nu xin s).errInfo = s.errInfo := (rfl)
@[simp] theorem delayProcess_writeIndex (cfg : Cfg) (nu : NanRule) (xin : F32) (s : State) : (delayProcess cfg nu xin s).writeIndex = (s.writeIndex + 1) % cfg.cap := (rfl)
@[simp] theorem delayProcess_dcX1 (cfg : Cfg) (nu : NanRule) (xin : F32) (s : State) : (delayProcess cfg nu xin s).dcX1 = xin := (rfl)
@[simp] theorem delayProcess_dcY1 (cfg : Cfg) (nu : NanRule) (xin : F32) (s : State) : (delayProcess cfg nu xin s).dcY1 = dcBlock nu xin s.dcX1 s.dcY1 := (rfl)
@[simp] theorem delayProcess_fbState (cfg : Cfg) (nu : NanRule) (xin : F32) (s : State) :
    (delayProcess cfg nu xin s).fbState = feedbackFilter nu s.fbState s.feedback (delayProcess cfg nu xin s).lastWet := (rfl)
@[simp] theorem delayProcess_lfoPhase (cfg : Cfg) (nu : NanRule) (xin : F32) (s : State) : (delayProcess cfg nu xin s).lfoPhase = phaseNext nu s.lfoPhase s.lfoInc := (rfl)
@[simp] theorem delayProcess_kick (cfg : Cfg) (nu : NanRule) (xin : F32) (s : State) : (delayProcess cfg nu xin s).kick = s.kick := (rfl)
@[simp] theorem delayProcess_snare (cfg : Cfg) (nu : NanRule) (xin : F32) (s : State) : (delayProcess cfg nu xin s).snare = s.snare := (rfl)
@[simp] theorem delayProcess_hat (cfg : Cfg) (nu : NanRule) (xin : F32) (s : State) : (delayProcess cfg nu xin s).hat = s.hat := (rfl)
@[simp] theorem delayProcess_click (cfg : Cfg) (nu : NanRule) (xin : F32) (s : State) : (delayProcess cfg nu xin s).click = s.click := (rfl)
@[simp] theorem delayProcess_seqState (cfg : Cfg) (nu : NanRule) (xin : F32) (s : State) : (delayProcess cfg nu xin s).seqState = s.seqState := (rfl)
@[simp] theorem delayProcess_stepIdx (cfg : Cfg) (nu : NanRule) (xin : F32) (s : State) : (delayProcess cfg nu xin s).stepIdx = s.stepIdx := (rfl)
@[simp] theorem delayProcess_subdivCount (cfg : Cfg) (nu : NanRule) (xin : F32) (s : State) : (delayProcess cfg nu xin s).subdivCount = s.subdivCount := (rfl)
@[simp] theorem delayProcess_beatCount (cfg : Cfg) (nu : NanRule) (xin : F32) (s : State) : (delayProcess cfg nu xin s).beatCount = s.beatCount := (rfl)
@[simp] theorem delayProcess_btnPrev (cfg : Cfg) (nu : NanRule) (xin : F32) (s : State) : (delayProcess cfg nu xin s).btnPrev = s.btnPrev := (rfl)
@[simp] theorem delayProcess_lfsr (cfg : Cfg) (nu : NanRule) (xin : F32) (s : State) : (delayProcess cfg nu xin s).lfsr = s.lfsr := (rfl)
@[simp] theorem delayProcess_lastPre (cfg : Cfg) (nu : NanRule) (xin : F32) (s : State) : (delayProcess cfg nu xin s).lastPre = s.lastPre := (rfl)
@[simp] theorem delayProcess_lastL (cfg : Cfg) (nu : NanRule) (xin : F32) (s : State) :
    (delayProcess cfg nu xin s).lastL = delayLength cfg nu s.baseDelay s.lfoDepth (sineAt cfg nu s.lfoPhase) := (rfl)
@[simp] theorem delayProcess_lastWet (cfg : Cfg) (nu : NanRule) (xin : F32) (s : State) :
    (delayProcess cfg nu xin s).lastWet = interpolate cfg nu s.dbuf (readPos cfg nu s.writeIndex (delayProcess cfg nu xin s).lastL) := (rfl)
@[simp] theorem delayProcess_lastDrumBus (cfg : Cfg) (nu : NanRule) (xin : F32) (s : State) : (delayProcess cfg nu xin s).lastDrumBus = s.lastDrumBus := (rfl)
@[simp] theorem delayProcess_dbuf (cfg : Cfg) (nu : NanRule) (xin : F32) (s : State) :
    (delayProcess cfg nu xin s).dbuf = Memory.write s.dbuf (s.writeIndex % cfg.cap)
      (F32.add nu (dcBlock nu xin s.dcX1 s.dcY1) (delayProcess cfg nu xin s).fbState) := (rfl)
@[simp] theorem delayProcess_inbox (cfg : Cfg) (nu : NanRule) (xin : F32) (s : State) : (delayProcess cfg nu xin s).inbox = s.inbox := (rfl)
@[simp] theorem delayProcess_rsp (cfg : Cfg) (nu : NanRule) (xin : F32) (s : State) : (delayProcess cfg nu xin s).rsp = s.rsp := (rfl)
@[simp] theorem delayProcess_nanTick (cfg : Cfg) (nu : NanRule) (xin : F32) (s : State) : (delayProcess cfg nu xin s).nanTick = s.nanTick := (rfl)

/-! sampleStep -/

@[simp] theorem sampleStep_delayTime (cfg : Cfg) (xin : F32) (s : State) : (sampleStep cfg xin s).delayTime = s.delayTime := mk_delayTime ..
@[simp] theorem sampleStep_feedback (cfg : Cfg) (xin : F32) (s : State) : (sampleStep cfg xin s).feedback = s.feedback := mk_feedback ..
@[simp] theorem sampleStep_lfoRate (cfg : Cfg) (xin : F32) (s : State) : (sampleStep cfg xin s).lfoRate = s.lfoRate := mk_lfoRate ..
@[simp] theorem sampleStep_lfoDepth (cfg : Cfg) (xin : F32) (s : State) : (sampleStep cfg xin s).lfoDepth = s.lfoDepth := mk_lfoDepth ..
@[simp] theorem sampleStep_mix (cfg : Cfg) (xin : F32) (s : State) : (sampleStep cfg xin s).mix = s.mix := mk_mix ..
@[simp] theorem sampleStep_tempoKnob (cfg : Cfg) (xin : F32) (s : State) : (sampleStep cfg xin s).tempoKnob = s.tempoKnob := mk_tempoKnob ..
@[simp] theorem sampleStep_bpm (cfg : Cfg) (xin : F32) (s : State) : (sampleStep cfg xin s).bpm = s.bpm := mk_bpm ..
@[simp] theorem sampleStep_volume (cfg : Cfg) (xin : F32) (s : State) : (sampleStep cfg xin s).volume = s.volume := mk_volume ..
@[simp] theorem sampleStep_baseDelay (cfg : Cfg) (xin : F32) (s : State) : (sampleStep cfg xin s).baseDelay = s.baseDelay := mk_baseDelay ..
@[simp] theorem sampleStep_lfoInc (cfg : Cfg) (xin : F32) (s : State) : (sampleStep cfg xin s).lfoInc = s.lfoInc := mk_lfoInc ..
@[simp] theorem sampleStep_drumset (cfg : Cfg) (xin : F32) (s : State) : (sampleStep cfg xin s).drumset = s.drumset := mk_drumset ..
@[simp] theorem sampleStep_ctrl (cfg : Cfg) (xin : F32) (s : State) : (sampleStep cfg xin s).ctrl = s.ctrl := mk_ctrl ..
@[simp] theorem sampleStep_chg (cfg : Cfg) (xin : F32) (s : State) : (sampleStep cfg xin s).chg = s.chg := mk_chg ..
@[simp] theorem sampleStep_err (cfg : Cfg) (xin : F32) (s : State) : (sampleStep cfg xin s).err = s.err := mk_err ..
@[simp] theorem sampleStep_ovf (cfg : Cfg) (xin : F32) (s : State) : (sampleStep cfg xin s).ovf = s.ovf := mk_ovf ..
@[simp] theorem sampleStep_errInfo (cfg : Cfg) (xin : F32) (s : State) : (sampleStep cfg xin s).errInfo = s.errInfo := mk_errInfo ..
@[simp] theorem sampleStep_writeIndex (cfg : Cfg) (xin : F32) (s : State) : (sampleStep cfg xin s).writeIndex = (s.writeIndex + 1) % cfg.cap := (mk_writeIndex ..).trans (by simp only [delayProcess_writeIndex, voicesStep_writeIndex, clockStep_writeIndex])
@[simp] theorem sampleStep_dcX1 (cfg : Cfg) (xin : F32) (s : State) :
    (sampleStep cfg xin s).dcX1 = 
      (delayProcess cfg (sampleNan cfg s) (delayInput cfg (sampleNan cfg s) xin (drumBus cfg (sampleNan cfg s) (clockStep cfg (sampleNan cfg s) s))) (voicesStep cfg (sampleNan cfg s) (clockStep cfg (sampleNan cfg s) s))).dcX1 := mk_dcX1 ..
@[simp] theorem sampleStep_dcY1 (cfg : Cfg) (xin : F32) (s : State) :
    (sampleStep cfg xin s).dcY1 = 
      (delayProcess cfg (sampleNan cfg s) (delayInput cfg (sampleNan cfg s) xin (drumBus cfg (sampleNan cfg s) (clockStep cfg (sampleNan cfg s) s))) (voicesStep cfg (sampleNan cfg s) (clockStep cfg (sampleNan cfg s) s))).dcY1 := mk_dcY1 ..
@[simp] theorem sampleStep_fbState (cfg : Cfg) (xin : F32) (s : State) :
    (sampleStep cfg xin s).fbState = 
      (delayProcess cfg (sampleNan cfg s) (delayInput cfg (sampleNan cfg s) xin (drumBus cfg (sampleNan cfg s) (clockStep cfg (sampleNan cfg s) s))) (voicesStep cfg (sampleNan cfg s) (clockStep cfg (sampleNan cfg s) s))).fbState := mk_fbState ..
@[simp] theorem sampleStep_lfoPhase (cfg : Cfg) (xin : F32) (s : State) :
    (sampleStep cfg xin s).lfoPhase = phaseNext (sampleNan cfg s) s.lfoPhase s.lfoInc := (mk_lfoPhase ..).trans (by simp only [delayProcess_lfoPhase, voicesStep_lfoPhase, clockStep_lfoPhase, voicesStep_lfoInc, clockStep_lfoInc])
@[simp] theorem sampleStep_kick (cfg : Cfg) (xin : F32) (s : State) :
    (sampleStep cfg xin s).kick = (clockStep cfg (sampleNan cfg s) s).kick.next (sampleNan cfg s) := (mk_kick ..).trans (by simp only [voicesStep_kick])
@[simp] theorem sampleStep_snare (cfg : Cfg) (xin : F32) (s : State) :
    (sampleStep cfg xin s).snare = (clockStep cfg (sampleNan cfg s) s).snare.next (sampleNan cfg s) (noiseValue (sampleNan cfg s) s.lfsr) := (mk_snare ..).trans (by simp only [voicesStep_snare, clockStep_lfsr])
@[simp] theorem sampleStep_hat (cfg : Cfg) (xin : F32) (s : State) :
    (sampleStep cfg xin s).hat = (clockStep cfg (sampleNan cfg s) s).hat.next (sampleNan cfg s) (noiseValue (sampleNan cfg s) s.lfsr) := (mk_hat ..).trans (by simp only [voicesStep_hat, clockStep_lfsr])
@[simp] theorem sampleStep_click (cfg : Cfg) (xin : F32) (s : State) :
    (sampleStep cfg xin s).click = (clockStep cfg (sampleNan cfg s) s).click.next (sampleNan cfg s) := (mk_click ..).trans (by simp only [voicesStep_click])
@[simp] theorem sampleStep_seqState (cfg : Cfg) (xin : F32) (s : State) :
    (sampleStep cfg xin s).seqState = (clockStep cfg (sampleNan cfg s) s).seqState := mk_seqState ..
@[simp] theorem sampleStep_stepIdx (cfg : Cfg) (xin : F32) (s : State) :
    (sampleStep cfg xin s).stepIdx = (clockStep cfg (sampleNan cfg s) s).stepIdx := mk_stepIdx ..
@[simp] theorem sampleStep_subdivCount (cfg : Cfg) (xin : F32) (s : State) :
    (sampleStep cfg xin s).subdivCount = (clockStep cfg (sampleNan cfg s) s).subdivCount := mk_subdivCount ..
@[simp] theorem sampleStep_beatCount (cfg : Cfg) (xin : F32) (s : State) :
    (sampleStep cfg xin s).beatCount = (clockStep cfg (sampleNan cfg s) s).beatCount := mk_beatCount ..
@[simp] theorem sampleStep_btnPrev (cfg : Cfg) (xin : F32) (s : State) : (sampleStep cfg xin s).btnPrev = s.btnPrev := mk_btnPrev ..
@[simp] theorem sampleStep_lfsr (cfg : Cfg) (xin : F32) (s : State) : (sampleStep cfg xin s).lfsr = noiseNext s.lfsr := (mk_lfsr ..).trans (by simp only [voicesStep_lfsr, clockStep_lfsr])
@[simp] theorem sampleStep_lastL (cfg : Cfg) (xin : F32) (s : State) :
    (sampleStep cfg xin s).lastL = 
      (delayProcess cfg (sampleNan cfg s) (delayInput cfg (sampleNan cfg s) xin (drumBus cfg (sampleNan cfg s) (clockStep cfg (sampleNan cfg s) s))) (voicesStep cfg (sampleNan cfg s) (clockStep cfg (sampleNan cfg s) s))).lastL := mk_lastL ..
@[simp] theorem sampleStep_lastWet (cfg : Cfg) (xin : F32) (s : State) :
    (sampleStep cfg xin s).lastWet = 
      (delayProcess cfg (sampleNan cfg s) (delayInput cfg (sampleNan cfg s) xin (drumBus cfg (sampleNan cfg s) (clockStep cfg (sampleNan cfg s) s))) (voicesStep cfg (sampleNan cfg s) (clockStep cfg (sampleNan cfg s) s))).lastWet := mk_lastWet ..
@[simp] theorem sampleStep_lastDrumBus (cfg : Cfg) (xin : F32) (s : State) :
    (sampleStep cfg xin s).lastDrumBus = drumBus cfg (sampleNan cfg s) (clockStep cfg (sampleNan cfg s) s) := (mk_lastDrumBus ..).trans (by simp only [voicesStep_lastDrumBus])
@[simp] theorem sampleStep_dbuf (cfg : Cfg) (xin : F32) (s : State) :
    (sampleStep cfg xin s).dbuf = 
      (delayProcess cfg (sampleNan cfg s) (delayInput cfg (sampleNan cfg s) xin (drumBus cfg (sampleNan cfg s) (clockStep cfg (sampleNan cfg s) s))) (voicesStep cfg (sampleNan cfg s) (clockStep cfg (sampleNan cfg s) s))).dbuf := mk_dbuf ..
@[simp] theorem sampleStep_inbox (cfg : Cfg) (xin : F32) (s : State) : (sampleStep cfg xin s).inbox = s.inbox := mk_inbox ..
@[simp] theorem sampleStep_nanTick (cfg : Cfg) (xin : F32) (s : State) : (sampleStep cfg xin s).nanTick = s.nanTick + 1 := mk_nanTick ..

/-! trigger .kick -/

@[simp] theorem trigger_kick_delayTime (s : State) : (trigger .kick s).delayTime = s.delayTime := (rfl)
@[simp] theorem trigger_kick_feedback (s : State) : (trigger .kick s).feedback = s.feedback := (rfl)
@[simp] theorem trigger_kick_lfoRate (s : State) : (trigger .kick s).lfoRate = s.lfoRate := (rfl)
@[simp] theorem trigger_kick_lfoDepth (s : State) : (trigger .kick s).lfoDepth = s.lfoDepth := (rfl)
@[simp] theorem trigger_kick_mix (s : State) : (trigger .kick s).mix = s.mix := (rfl)
@[simp] theorem trigger_kick_tempoKnob (s : State) : (trigger .kick s).tempoKnob = s.tempoKnob := (rfl)
@[simp] theorem trigger_kick_bpm (s : State) : (trigger .kick s).bpm = s.bpm := (rfl)
@[simp] theorem trigger_kick_volume (s : State) : (trigger .kick s).volume = s.volume := (rfl)
@[simp] theorem trigger_kick_baseDelay (s : State) : (trigger .kick s).baseDelay = s.baseDelay := (rfl)
@[simp] theorem trigger_kick_lfoInc (s : State) : (trigger .kick s).lfoInc = s.lfoInc := (rfl)
@[simp] theorem trigger_kick_drumset (s : State) : (trigger .kick s).drumset = s.drumset := (rfl)
@[simp] theorem trigger_kick_ctrl (s : State) : (trigger .kick s).ctrl = s.ctrl := (rfl)
@[simp] theorem trigger_kick_chg (s : State) : (trigger .kick s).chg = s.chg := (rfl)
@[simp] theorem trigger_kick_err (s : State) : (trigger .kick s).err = s.err := (rfl)
@[simp] theorem trigger_kick_ovf (s : State) : (trigger .kick s).ovf = s.ovf := (rfl)
@[simp] theorem trigger_kick_errInfo (s : State) : (trigger .kick s).errInfo = s.errInfo := (rfl)
@[simp] theorem trigger_kick_writeIndex (s : State) : (trigger .kick s).writeIndex = s.writeIndex := (rfl)
@[simp] theorem trigger_kick_dcX1 (s : State) : (trigger .kick s).dcX1 = s.dcX1 := (rfl)
@[simp] theorem trigger_kick_dcY1 (s : State) : (trigger .kick s).dcY1 = s.dcY1 := (rfl)
@[simp] theorem trigger_kick_fbState (s : State) : (trigger .kick s).fbState = s.fbState := (rfl)
@[simp] theorem trigger_kick_lfoPhase (s : State) : (trigger .kick s).lfoPhase = s.lfoPhase := (rfl)
@[simp] theorem trigger_kick_kick (s : State) : (trigger .kick s).kick = { s.kick with env := s.kick.env.trigger } := (rfl)
@[simp] theorem trigger_kick_snare (s : State) : (trigger .kick s).snare = s.snare := (rfl)
@[simp] theorem trigger_kick_hat (s : State) : (trigger .kick s).hat = s.hat := (rfl)
@[simp] theorem trigger_kick_click (s : State) : (trigger .kick s).click = s.click := (rfl)
@[simp] theorem trigger_kick_seqState (s : State) : (trigger .kick s).seqState = s.seqState := (rfl)
@[simp] theorem trigger_kick_stepIdx (s : State) : (trigger .kick s).stepIdx = s.stepIdx := (rfl)
@[simp] theorem trigger_kick_subdivCount (s : State) : (trigger .kick s).subdivCount = s.subdivCount := (rfl)
@[simp] theorem trigger_kick_beatCount (s : State) : (trigger .kick s).beatCount = s.beatCount := (rfl)
@[simp] theorem trigger_kick_btnPrev (s : State) : (trigger .kick s).btnPrev = s.btnPrev := (rfl)
@[simp] theorem trigger_kick_lfsr (s : State) : (trigger .kick s).lfsr = s.lfsr := (rfl)
@[simp] theorem trigger_kick_lastPre (s : State) : (trigger .kick s).lastPre = s.lastPre := (rfl)
@[simp] theorem trigger_kick_lastL (s : State) : (trigger .kick s).lastL = s.lastL := (rfl)
@[simp] theorem trigger_kick_lastWet (s : State) : (trigger .kick s).lastWet = s.lastWet := (rfl)
@[simp] theorem trigger_kick_lastDrumBus (s : State) : (trigger .kick s).lastDrumBus = s.lastDrumBus := (rfl)
@[simp] theorem trigger_kick_dbuf (s : State) : (trigger .kick s).dbuf = s.dbuf := (rfl)
@[simp] theorem trigger_kick_inbox (s : State) : (trigger .kick s).inbox = s.inbox := (rfl)
@[simp] theorem trigger_kick_rsp (s : State) : (trigger .kick s).rsp = s.rsp := (rfl)
@[simp] theorem trigger_kick_nanTick (s : State) : (trigger .kick s).nanTick = s.nanTick := (rfl)

/-! trigger .snare -/

@[simp] theorem trigger_snare_delayTime (s : State) : (trigger .snare s).delayTime = s.delayTime := (rfl)
@[simp] theorem trigger_snare_feedback (s : State) : (trigger .snare s).feedback = s.feedback := (rfl)
@[simp] theorem trigger_snare_lfoRate (s : State) : (trigger .snare s).lfoRate = s.lfoRate := (rfl)
@[simp] theorem trigger_snare_lfoDepth (s : State) : (trigger .snare s).lfoDepth = s.lfoDepth := (rfl)
@[simp] theorem trigger_snare_mix (s : State) : (trigger .snare s).mix = s.mix := (rfl)
@[simp] theorem trigger_snare_tempoKnob (s : State) : (trigger .snare s).tempoKnob = s.tempoKnob := (rfl)
@[simp] theorem trigger_snare_bpm (s : State) : (trigger .snare s).bpm = s.bpm := (rfl)
@[simp] theorem trigger_snare_volume (s : State) : (trigger .snare s).volume = s.volume := (rfl)
@[simp] theorem trigger_snare_baseDelay (s : State) : (trigger .snare s).baseDelay = s.baseDelay := (rfl)
@[simp] theorem trigger_snare_lfoInc (s : State) : (trigger .snare s).lfoInc = s.lfoInc := (rfl)
@[simp] theorem trigger_snare_drumset (s : State) : (trigger .snare s).drumset = s.drumset := (rfl)
@[simp] theorem trigger_snare_ctrl (s : State) : (trigger .snare s).ctrl = s.ctrl := (rfl)
@[simp] theorem trigger_snare_chg (s : State) : (trigger .snare s).chg = s.chg := (rfl)
@[simp] theorem trigger_snare_err (s : State) : (trigger .snare s).err = s.err := (rfl)
@[simp] theorem trigger_snare_ovf (s : State) : (trigger .snare s).ovf = s.ovf := (rfl)
@[simp] theorem trigger_snare_errInfo (s : State) : (trigger .snare s).errInfo = s.errInfo := (rfl)
@[simp] theorem trigger_snare_writeIndex (s : State) : (trigger .snare s).writeIndex = s.writeIndex := (rfl)
@[simp] theorem trigger_snare_dcX1 (s : State) : (trigger .snare s).dcX1 = s.dcX1 := (rfl)
@[simp] theorem trigger_snare_dcY1 (s : State) : (trigger .snare s).dcY1 = s.dcY1 := (rfl)
@[simp] theorem trigger_snare_fbState (s : State) : (trigger .snare s).fbState = s.fbState := (rfl)
@[simp] theorem trigger_snare_lfoPhase (s : State) : (trigger .snare s).lfoPhase = s.lfoPhase := (rfl)
@[simp] theorem trigger_snare_kick (s : State) : (trigger .snare s).kick = s.kick := (rfl)
@[simp] theorem trigger_snare_snare (s : State) : (trigger .snare s).snare = { s.snare with env := s.snare.env.trigger } := (rfl)
@[simp] theorem trigger_snare_hat (s : State) : (trigger .snare s).hat = s.hat := (rfl)
@[simp] theorem trigger_snare_click (s : State) : (trigger .snare s).click = s.click := (rfl)
@[simp] theorem trigger_snare_seqState (s : State) : (trigger .snare s).seqState = s.seqState := (rfl)
@[simp] theorem trigger_snare_stepIdx (s : State) : (trigger .snare s).stepIdx = s.stepIdx := (rfl)
@[simp] theorem trigger_snare_subdivCount (s : State) : (trigger .snare s).subdivCount = s.subdivCount := (rfl)
@[simp] theorem trigger_snare_beatCount (s : State) : (trigger .snare s).beatCount = s.beatCount := (rfl)
@[simp] theorem trigger_snare_btnPrev (s : State) : (trigger .snare s).btnPrev = s.btnPrev := (rfl)
@[simp] theorem trigger_snare_lfsr (s : State) : (trigger .snare s).lfsr = s.lfsr := (rfl)
@[simp] theorem trigger_snare_lastPre (s : State) : (trigger .snare s).lastPre = s.lastPre := (rfl)
@[simp] theorem trigger_snare_lastL (s : State) : (trigger .snare s).lastL = s.lastL := (rfl)
@[simp] theorem trigger_snare_lastWet (s : State) : (trigger .snare s).lastWet = s.lastWet := (rfl)
@[simp] theorem trigger_snare_lastDrumBus (s : State) : (trigger .snare s).lastDrumBus = s.lastDrumBus := (rfl)
@[simp] theorem trigger_snare_dbuf (s : State) : (trigger .snare s).dbuf = s.dbuf := (rfl)
@[simp] theorem trigger_snare_inbox (s : State) : (trigger .snare s).inbox = s.inbox := (rfl)
@[simp] theorem trigger_snare_rsp (s : State) : (trigger .snare s).rsp = s.rsp := (rfl)
@[simp] theorem trigger_snare_nanTick (s : State) : (trigger .snare s).nanTick = s.nanTick := (rfl)

/-! trigger .hat -/

@[simp] theorem trigger_hat_delayTime (s : State) : (trigger .hat s).delayTime = s.delayTime := (rfl)
@[simp] theorem trigger_hat_feedback (s : State) : (trigger .hat s).feedback = s.feedback := (rfl)
@[simp] theorem trigger_hat_lfoRate (s : State) : (trigger .hat s).lfoRate = s.lfoRate := (rfl)
@[simp] theorem trigger_hat_lfoDepth (s : State) : (trigger .hat s).lfoDepth = s.lfoDepth := (rfl)
@[simp] theorem trigger_hat_mix (s : State) : (trigger .hat s).mix = s.mix := (rfl)
@[simp] theorem trigger_hat_tempoKnob (s : State) : (trigger .hat s).tempoKnob = s.tempoKnob := (rfl)
@[simp] theorem trigger_hat_bpm (s : State) : (trigger .hat s).bpm = s.bpm := (rfl)
@[simp] theorem trigger_hat_volume (s : State) : (trigger .hat s).volume = s.volume := (rfl)
@[simp] theorem trigger_hat_baseDelay (s : State) : (trigger .hat s).baseDelay = s.baseDelay := (rfl)
@[simp] theorem trigger_hat_lfoInc (s : State) : (trigger .hat s).lfoInc = s.lfoInc := (rfl)
@[simp] theorem trigger_hat_drumset (s : State) : (trigger .hat s).drumset = s.drumset := (rfl)
@[simp] theorem trigger_hat_ctrl (s : State) : (trigger .hat s).ctrl = s.ctrl := (rfl)
@[simp] theorem trigger_hat_chg (s : State) : (trigger .hat s).chg = s.chg := (rfl)
@[simp] theorem trigger_hat_err (s : State) : (trigger .hat s).err = s.err := (rfl)
@[simp] theorem trigger_hat_ovf (s : State) : (trigger .hat s).ovf = s.ovf := (rfl)
@[simp] theorem trigger_hat_errInfo (s : State) : (trigger .hat s).errInfo = s.errInfo := (rfl)
@[simp] theorem trigger_hat_writeIndex (s : State) : (trigger .hat s).writeIndex = s.writeIndex := (rfl)
@[simp] theorem trigger_hat_dcX1 (s : State) : (trigger .hat s).dcX1 = s.dcX1 := (rfl)
@[simp] theorem trigger_hat_dcY1 (s : State) : (trigger .hat s).dcY1 = s.dcY1 := (rfl)
@[simp] theorem trigger_hat_fbState (s : State) : (trigger .hat s).fbState = s.fbState := (rfl)
@[simp] theorem trigger_hat_lfoPhase (s : State) : (trigger .hat s).lfoPhase = s.lfoPhase := (rfl)
@[simp] theorem trigger_hat_kick (s : State) : (trigger .hat s).kick = s.kick := (rfl)
@[simp] theorem trigger_hat_snare (s : State) : (trigger .hat s).snare = s.snare := (rfl)
@[simp] theorem trigger_hat_hat (s : State) : (trigger .hat s).hat = { s.hat with env := s.hat.env.trigger } := (rfl)
@[simp] theorem trigger_hat_click (s : State) : (trigger .hat s).click = s.click := (rfl)
@[simp] theorem trigger_hat_seqState (s : State) : (trigger .hat s).seqState = s.seqState := (rfl)
@[simp] theorem trigger_hat_stepIdx (s : State) : (trigger .hat s).stepIdx = s.stepIdx := (rfl)
@[simp] theorem trigger_hat_subdivCount (s : State) : (trigger .hat s).subdivCount = s.subdivCount := (rfl)
@[simp] theorem trigger_hat_beatCount (s : State) : (trigger .hat s).beatCount = s.beatCount := (rfl)
@[simp] theorem trigger_hat_btnPrev (s : State) : (trigger .hat s).btnPrev = s.btnPrev := (rfl)
@[simp] theorem trigger_hat_lfsr (s : State) : (trigger .hat s).lfsr = s.lfsr := (rfl)
@[simp] theorem trigger_hat_lastPre (s : State) : (trigger .hat s).lastPre = s.lastPre := (rfl)
@[simp] theorem trigger_hat_lastL (s : State) : (trigger .hat s).lastL = s.lastL := (rfl)
@[simp] theorem trigger_hat_lastWet (s : State) : (trigger .hat s).lastWet = s.lastWet := (rfl)
@[simp] theorem trigger_hat_lastDrumBus (s : State) : (trigger .hat s).lastDrumBus = s.lastDrumBus := (rfl)
@[simp] theorem trigger_hat_dbuf (s : State) : (trigger .hat s).dbuf = s.dbuf := (rfl)
@[simp] theorem trigger_hat_inbox (s : State) : (trigger .hat s).inbox = s.inbox := (rfl)
@[simp] theorem trigger_hat_rsp (s : State) : (trigger .hat s).rsp = s.rsp := (rfl)
@[simp] theorem trigger_hat_nanTick (s : State) : (trigger .hat s).nanTick = s.nanTick := (rfl)

/-! trigger .click -/

@[simp] theorem trigger_click_delayTime (s : State) : (trigger .click s).delayTime = s.delayTime := (rfl)
@[simp] theorem trigger_click_feedback (s : State) : (trigger .click s).feedback = s.feedback := (rfl)
@[simp] theorem trigger_click_lfoRate (s : State) : (trigger .click s).lfoRate = s.lfoRate := (rfl)
@[simp] theorem trigger_click_lfoDepth (s : State) : (trigger .click s).lfoDepth = s.lfoDepth := (rfl)
@[simp] theorem trigger_click_mix (s : State) : (trigger .click s).mix = s.mix := (rfl)
@[simp] theorem trigger_click_tempoKnob (s : State) : (trigger .click s).tempoKnob = s.tempoKnob := (rfl)
@[simp] theorem trigger_click_bpm (s : State) : (trigger .click s).bpm = s.bpm := (rfl)
@[simp] theorem trigger_click_volume (s : State) : (trigger .click s).volume = s.volume := (rfl)
@[simp] theorem trigger_click_baseDelay (s : State) : (trigger .click s).baseDelay = s.baseDelay := (rfl)
@[simp] theorem trigger_click_lfoInc (s : State) : (trigger .click s).lfoInc = s.lfoInc := (rfl)
@[simp] theorem trigger_click_drumset (s : State) : (trigger .click s).drumset = s.drumset := (rfl)
@[simp] theorem trigger_click_ctrl (s : State) : (trigger .click s).ctrl = s.ctrl := (rfl)
@[simp] theorem trigger_click_chg (s : State) : (trigger .click s).chg = s.chg := (rfl)
@[simp] theorem trigger_click_err (s : State) : (trigger .click s).err = s.err := (rfl)
@[simp] theorem trigger_click_ovf (s : State) : (trigger .click s).ovf = s.ovf := (rfl)
@[simp] theorem trigger_click_errInfo (s : State) : (trigger .click s).errInfo = s.errInfo := (rfl)
@[simp] theorem trigger_click_writeIndex (s : State) : (trigger .click s).writeIndex = s.writeIndex := (rfl)
@[simp] theorem trigger_click_dcX1 (s : State) : (trigger .click s).dcX1 = s.dcX1 := (rfl)
@[simp] theorem trigger_click_dcY1 (s : State) : (trigger .click s).dcY1 = s.dcY1 := (rfl)
@[simp] theorem trigger_click_fbState (s : State) : (trigger .click s).fbState = s.fbState := (rfl)
@[simp] theorem trigger_click_lfoPhase (s : State) : (trigger .click s).lfoPhase = s.lfoPhase := (rfl)
@[simp] theorem trigger_click_kick (s : State) : (trigger .click s).kick = s.kick := (rfl)
@[simp] theorem trigger_click_snare (s : State) : (trigger .click s).snare = s.snare := (rfl)
@[simp] theorem trigger_click_hat (s : State) : (trigger .click s).hat = s.hat := (rfl)
@[simp] theorem trigger_click_click (s : State) : (trigger .click s).click = { s.click with env := s.click.env.trigger } := (rfl)
@[simp] theorem trigger_click_seqState (s : State) : (trigger .click s).seqState = s.seqState := (rfl)
@[simp] theorem trigger_click_stepIdx (s : State) : (trigger .click s).stepIdx = s.stepIdx := (rfl)
@[simp] theorem trigger_click_subdivCount (s : State) : (trigger .click s).subdivCount = s.subdivCount := (rfl)
@[simp] theorem trigger_click_beatCount (s : State) : (trigger .click s).beatCount = s.beatCount := (rfl)
@[simp] theorem trigger_click_btnPrev (s : State) : (trigger .click s).btnPrev = s.btnPrev := (rfl)
@[simp] theorem trigger_click_lfsr (s : State) : (trigger .click s).lfsr = s.lfsr := (rfl)
@[simp] theorem trigger_click_lastPre (s : State) : (trigger .click s).lastPre = s.lastPre := (rfl)
@[simp] theorem trigger_click_lastL (s : State) : (trigger .click s).lastL = s.lastL := (rfl)
@[simp] theorem trigger_click_lastWet (s : State) : (trigger .click s).lastWet = s.lastWet := (rfl)
@[simp] theorem trigger_click_lastDrumBus (s : State) : (trigger .click s).lastDrumBus = s.lastDrumBus := (rfl)
@[simp] theorem trigger_click_dbuf (s : State) : (trigger .click s).dbuf = s.dbuf := (rfl)
@[simp] theorem trigger_click_inbox (s : State) : (trigger .click s).inbox = s.inbox := (rfl)
@[simp] theorem trigger_click_rsp (s : State) : (trigger .click s).rsp = s.rsp := (rfl)
@[simp] theorem trigger_click_nanTick (s : State) : (trigger .click s).nanTick = s.nanTick := (rfl)

end Sys2Proof.Laws
end

