-- ==== Sys2Proof/Laws/Ops.lean ====
section
/-! SUPPORT. One lemma for each shared operation that says once what it can do, and the small lemmas of the voices' parts. -/

namespace Sys2Proof.Laws

open Sys2Proof.Machine

/-! The port. -/

theorem fetch_eq_none {s : State} (h : s.inbox = []) : fetch s = none := by simp [fetch, h]

theorem fetch_eq_some {s : State} {c : Command} {rest : List Command} (h : s.inbox = c :: rest) :
    fetch s = some (c, { s with inbox := rest }) := by simp [fetch, h]

/-- Everything a step can do: hold with no command presented, take the error of a command that does not decode, or execute
the command that decodes. -/
theorem step_cases (s : State) :
    (s.inbox = [] ∧ step s = .next s) ∨
    ∃ c rest, s.inbox = c :: rest ∧
      ((∃ e, decode c.cmd c.data = .error e ∧ step s = .next (takeError e c.cmd { s with inbox := rest })) ∨
       ∃ i, decode c.cmd c.data = .ok i ∧ step s = exec i { s with inbox := rest }) := by
  rcases h : s.inbox with _ | ⟨c, rest⟩
  · exact .inl ⟨rfl, by simp only [step, fetch_eq_none h]⟩
  · refine .inr ⟨c, rest, rfl, ?_⟩
    rcases hd : decode c.cmd c.data with e | i
    · exact .inl ⟨e, rfl, by simp only [step, fetch_eq_some h, hd]⟩
    · exact .inr ⟨i, rfl, by simp only [step, fetch_eq_some h, hd]⟩

/-- The command presented last by `withFetchWord` is the one at the head of the port. -/
theorem withFetchWord_inbox (s : State) (nbits w : Nat) :
    (s.withFetchWord nbits w).inbox = commandOfBits nbits w :: s.inbox := rfl

/-! The exception. -/

/-- The first error since ERR was cleared is recorded. -/
theorem takeError_of_clear (c : ErrCause) (cmd : Word) {s : State} (h : s.err = false) :
    takeError c cmd s = { s with errInfo := errInfoWord c cmd, err := true, rsp := 0#32 } := by
  simp [takeError, recordError, respond, h]

/-- A later error only sets OVF. -/
theorem takeError_of_set (c : ErrCause) (cmd : Word) {s : State} (h : s.err = true) :
    takeError c cmd s = { s with ovf := true, rsp := 0#32 } := by
  simp [takeError, recordError, respond, h]

/-! Envelopes and voices. -/

@[simp] theorem trigger_stage (e : Envelope) : e.trigger.stage = .attack := (rfl)
@[simp] theorem trigger_level (e : Envelope) : e.trigger.level = Config.zero := (rfl)
@[simp] theorem trigger_ainc (e : Envelope) : e.trigger.ainc = e.ainc := (rfl)
@[simp] theorem trigger_dinc (e : Envelope) : e.trigger.dinc = e.dinc := (rfl)

@[simp] theorem triggerIf_false (e : Envelope) : e.triggerIf false = e := (rfl)
@[simp] theorem triggerIf_true (e : Envelope) : e.triggerIf true = e.trigger := (rfl)
@[simp] theorem triggerIf_ainc (b : Bool) (e : Envelope) : (e.triggerIf b).ainc = e.ainc := (rfl)
@[simp] theorem triggerIf_dinc (b : Bool) (e : Envelope) : (e.triggerIf b).dinc = e.dinc := (rfl)
@[simp] theorem triggerIf_level (b : Bool) (e : Envelope) :
    (e.triggerIf b).level = if b then Config.zero else e.level := (rfl)
@[simp] theorem triggerIf_stage (b : Bool) (e : Envelope) :
    (e.triggerIf b).stage = if b then .attack else e.stage := (rfl)

/-- What one EnvStep can do to an envelope. -/
theorem envelope_next_cases (nu : NanRule) (e : Envelope) :
    (e.stage = .idle ∧ e.next nu = e) ∨
    (e.stage = .attack ∧ F32.ge (F32.add nu e.level e.ainc) Config.one = true ∧
      e.next nu = { e with stage := .decay, level := Config.one }) ∨
    (e.stage = .attack ∧ F32.ge (F32.add nu e.level e.ainc) Config.one = false ∧
      e.next nu = { e with level := F32.add nu e.level e.ainc }) ∨
    (e.stage = .decay ∧ F32.le (F32.sub nu e.level e.dinc) Config.zero = true ∧
      e.next nu = { e with stage := .idle, level := Config.zero }) ∨
    (e.stage = .decay ∧ F32.le (F32.sub nu e.level e.dinc) Config.zero = false ∧
      e.next nu = { e with level := F32.sub nu e.level e.dinc }) := by
  rcases hs : e.stage
  · exact .inl ⟨rfl, by simp only [Envelope.next, hs]⟩
  · rcases hc : F32.ge (F32.add nu e.level e.ainc) Config.one
    · exact .inr (.inr (.inl ⟨rfl, rfl, by simp only [Envelope.next, hs, hc, Bool.false_eq_true, if_false]⟩))
    · exact .inr (.inl ⟨rfl, rfl, by simp only [Envelope.next, hs, hc, if_true]⟩)
  · rcases hc : F32.le (F32.sub nu e.level e.dinc) Config.zero
    · exact .inr (.inr (.inr (.inr ⟨rfl, rfl, by simp only [Envelope.next, hs, hc, Bool.false_eq_true, if_false]⟩)))
    · exact .inr (.inr (.inr (.inl ⟨rfl, rfl, by simp only [Envelope.next, hs, hc, if_true]⟩)))

@[simp] theorem next_ainc (nu : NanRule) (e : Envelope) : (e.next nu).ainc = e.ainc := by
  rcases envelope_next_cases nu e with ⟨-, h⟩ | ⟨-, -, h⟩ | ⟨-, -, h⟩ | ⟨-, -, h⟩ | ⟨-, -, h⟩ <;> rw [h]

@[simp] theorem next_dinc (nu : NanRule) (e : Envelope) : (e.next nu).dinc = e.dinc := by
  rcases envelope_next_cases nu e with ⟨-, h⟩ | ⟨-, -, h⟩ | ⟨-, -, h⟩ | ⟨-, -, h⟩ | ⟨-, -, h⟩ <;> rw [h]

@[simp] theorem osc_next_env (nu : NanRule) (v : OscVoice) : (v.next nu).env = v.env.next nu := (rfl)
@[simp] theorem osc_next_freq (nu : NanRule) (v : OscVoice) : (v.next nu).freq = v.freq := (rfl)
@[simp] theorem osc_next_phase (nu : NanRule) (v : OscVoice) : (v.next nu).phase = phaseNext nu v.phase v.inc := (rfl)
@[simp] theorem osc_next_inc (nu : NanRule) (v : OscVoice) : (v.next nu).inc = v.inc := (rfl)

@[simp] theorem filter_next_env (nu : NanRule) (x : F32) (v : FilterVoice) : (v.next nu x).env = v.env.next nu := (rfl)
@[simp] theorem filter_next_freq (nu : NanRule) (x : F32) (v : FilterVoice) : (v.next nu x).freq = v.freq := (rfl)
@[simp] theorem filter_next_ic1 (nu : NanRule) (x : F32) (v : FilterVoice) :
    (v.next nu x).ic1 = F32.sub nu (F32.mul nu Config.two (v.band nu x)) v.ic1 := (rfl)
@[simp] theorem filter_next_ic2 (nu : NanRule) (x : F32) (v : FilterVoice) :
    (v.next nu x).ic2 = F32.sub nu (F32.mul nu Config.two (v.low nu x)) v.ic2 := (rfl)
@[simp] theorem filter_next_a1 (nu : NanRule) (x : F32) (v : FilterVoice) : (v.next nu x).a1 = v.a1 := (rfl)
@[simp] theorem filter_next_a2 (nu : NanRule) (x : F32) (v : FilterVoice) : (v.next nu x).a2 = v.a2 := (rfl)
@[simp] theorem filter_next_a3 (nu : NanRule) (x : F32) (v : FilterVoice) : (v.next nu x).a3 = v.a3 := (rfl)
@[simp] theorem filter_next_k (nu : NanRule) (x : F32) (v : FilterVoice) : (v.next nu x).k = v.k := (rfl)

@[simp] theorem osc_load_freq (cfg : Cfg) (f d : F32) (v : OscVoice) : (v.load cfg f d).freq = f := (rfl)
@[simp] theorem osc_load_phase (cfg : Cfg) (f d : F32) (v : OscVoice) : (v.load cfg f d).phase = v.phase := (rfl)
@[simp] theorem osc_load_inc (cfg : Cfg) (f d : F32) (v : OscVoice) : (v.load cfg f d).inc = phaseIncOf cfg f := (rfl)
@[simp] theorem osc_load_env (cfg : Cfg) (f d : F32) (v : OscVoice) :
    (v.load cfg f d).env = { v.env with dinc := envInc cfg d } := (rfl)

@[simp] theorem filter_load_freq (cfg : Cfg) (f d : F32) (v : FilterVoice) : (v.load cfg f d).freq = f := (rfl)
@[simp] theorem filter_load_ic1 (cfg : Cfg) (f d : F32) (v : FilterVoice) : (v.load cfg f d).ic1 = v.ic1 := (rfl)
@[simp] theorem filter_load_ic2 (cfg : Cfg) (f d : F32) (v : FilterVoice) : (v.load cfg f d).ic2 = v.ic2 := (rfl)
@[simp] theorem filter_load_a1 (cfg : Cfg) (f d : F32) (v : FilterVoice) : (v.load cfg f d).a1 = svfA1 cfg f v.k := (rfl)
@[simp] theorem filter_load_a2 (cfg : Cfg) (f d : F32) (v : FilterVoice) : (v.load cfg f d).a2 = svfA2 cfg f v.k := (rfl)
@[simp] theorem filter_load_a3 (cfg : Cfg) (f d : F32) (v : FilterVoice) : (v.load cfg f d).a3 = svfA3 cfg f v.k := (rfl)
@[simp] theorem filter_load_k (cfg : Cfg) (f d : F32) (v : FilterVoice) : (v.load cfg f d).k = v.k := (rfl)
@[simp] theorem filter_load_env (cfg : Cfg) (f d : F32) (v : FilterVoice) :
    (v.load cfg f d).env = { v.env with dinc := envInc cfg d } := (rfl)

/-! The input commands. -/

/-- What a button level can do: record itself, and on a rising edge have the edge's effect. -/
theorem buttonLevel_cases (b : Nat) (lvl : Bool) (s : State) :
    (s.btnPrev.getLsbD b = false ∧ lvl = true ∧
      buttonLevel b lvl s = risingEdge b { s with btnPrev := recordLevel b lvl s.btnPrev }) ∨
    ((s.btnPrev.getLsbD b = true ∨ lvl = false) ∧
      buttonLevel b lvl s = { s with btnPrev := recordLevel b lvl s.btnPrev }) := by
  rcases hp : s.btnPrev.getLsbD b <;> rcases lvl <;> simp [buttonLevel, hp]

/-- What an edge can do: toggle the mode, start playback, trigger the kick or the snare, or nothing. -/
theorem risingEdge_cases (b : Nat) (s : State) :
    (b = 2 ∧ risingEdge b s =
      { s with seqState := (if s.seqState = .manual then .armed else .manual), stepIdx := 0, chg := true }) ∨
    (b = 0 ∧ s.seqState = .armed ∧
      risingEdge b s = { s with seqState := .playing, stepIdx := 0, subdivCount := Config.zero }) ∨
    (b = 0 ∧ s.seqState = .manual ∧ risingEdge b s = trigger .kick s) ∨
    (b ≠ 0 ∧ b ≠ 2 ∧ s.seqState = .manual ∧ risingEdge b s = trigger .snare s) ∨
    (b ≠ 2 ∧ s.seqState ≠ .manual ∧ (b = 0 → s.seqState = .playing) ∧ risingEdge b s = s) := by
  rcases b with _ | _ | _ | b <;> rcases hs : s.seqState <;> simp [risingEdge, hs]

/-- What an encoder increment can do: select a drum set in MANUAL, change MIX otherwise. -/
theorem encStep_cases (cfg : Cfg) (inc : Int) (s : State) :
    (s.seqState = .manual ∧ encStep cfg inc s = selectDrumSet cfg (encDrumset s.drumset inc) s) ∨
    (s.seqState ≠ .manual ∧ encStep cfg inc s =
      { s with
        mix := F32.clamp (F32.add (setupNan cfg) s.mix (F32.mul (setupNan cfg) (F32.ofInt inc) cfg.mixStep))
          Config.zero Config.one }) := by
  rcases hs : s.seqState <;> simp [encStep, hs]

/-! The commands with more than one outcome: everything each can answer. -/

theorem exec_button_cases {b : BitVec 8} {lvl : Bool} {s t : State} (h : exec (.button b lvl) s = .next t) :
    (b.toNat ≤ 2 ∧ t = respond 0#32 (buttonLevel b.toNat lvl s)) ∨
    (2 < b.toNat ∧ t = argRangeError (.button b lvl) s) := by
  simp only [exec, execButton, Operand.buttonOk, decide_eq_true_eq] at h
  split at h <;> cases h
  · exact .inl ⟨by assumption, rfl⟩
  · exact .inr ⟨by omega, rfl⟩

theorem exec_trigger_cases {v : BitVec 8} {s t : State} (h : exec (.trigger v) s = .next t) :
    (∃ w, voiceOf v = some w ∧ t = respond 0#32 (trigger w s)) ∨
    (voiceOf v = none ∧ t = argRangeError (.trigger v) s) := by
  simp only [exec, execTrigger] at h
  rcases hv : voiceOf v with _ | w <;> rw [hv] at h <;> cases h
  · exact .inr ⟨rfl, rfl⟩
  · exact .inl ⟨w, rfl, rfl⟩

theorem exec_setDrumset_cases {j : BitVec 8} {s t : State} (h : exec (.setDrumset j) s = .next t) :
    (∃ hj : j.toNat < 6, t = respond 0#32 (selectDrumSet Config.cfg ⟨j.toNat, hj⟩ s)) ∨
    (6 ≤ j.toNat ∧ t = argRangeError (.setDrumset j) s) := by
  simp only [exec, execSetDrumset] at h
  split at h <;> cases h
  · exact .inl ⟨by assumption, rfl⟩
  · exact .inr ⟨by omega, rfl⟩

theorem exec_readParam_cases {n : BitVec 8} {s t : State} (h : exec (.readParam n) s = .next t) :
    (∃ v, readReg s n = some v ∧ t = respond v s) ∨ (readReg s n = none ∧ t = argRangeError (.readParam n) s) := by
  simp only [exec, execReadParam] at h
  rcases hv : readReg s n with _ | v <;> rw [hv] at h <;> cases h
  · exact .inr ⟨rfl, rfl⟩
  · exact .inl ⟨v, rfl, rfl⟩

/-- Taking ARG_RANGE on a command, as one update. -/
theorem argRangeError_eq (i : Instr) (s : State) : argRangeError i s =
    { s with
      rsp := 0#32
      errInfo := if s.err then s.errInfo else errInfoWord .argRange (encode i).cmd
      err := true
      ovf := s.ovf || s.err } := (rfl)

end Sys2Proof.Laws
end

