-- ==== Sys2Proof/Laws/PerInstr.lean ====
section
/-! SUPPORT. Statements made of every command as syntax, one lemma per constructor. -/

namespace Sys2Proof.Laws

-- One theorem after another: the kernel evaluations in parallel hold more threads than memory has room for.
set_option Elab.async false

/-- A command word has the OPC of a row, matches that row's mask and match value, and its RSV field is 0. -/
def layoutOk (cmd : Word) : Bool :=
  opTable.any (fun r => r.opc == Operand.opc cmd && cmd &&& r.mask == r.matchBits) && Operand.rsv cmd == 0#16

/-- A command without ARG, by its word. -/
theorem layout_of_cmd {i : Instr} (w : Word) (hi : (encode i).cmd = w) (hw : layoutOk w = true) :
    layoutOk (encode i).cmd = true := hi ▸ hw

/-- The layout of a command word (30_encoding.md R301, R305): the encoded command has the OPC of a row of the opcode map,
matches that row's mask and match value, and its RSV field is 0. -/
def Layout.Statement (i : Instr) : Prop := layoutOk (encode i).cmd = true

theorem Layout.nop : Layout.Statement .nop :=
  layout_of_cmd (cmdWord 0x00#8 0#8) rfl (by decide +kernel)

theorem Layout.sample (x : F32) : Layout.Statement (.sample x) :=
  layout_of_cmd (cmdWord 0x01#8 0#8) rfl (by decide +kernel)

theorem Layout.setDelayTime (t : F32) : Layout.Statement (.setDelayTime t) :=
  layout_of_cmd (cmdWord 0x10#8 0#8) rfl (by decide +kernel)

theorem Layout.setFeedback (g : F32) : Layout.Statement (.setFeedback g) :=
  layout_of_cmd (cmdWord 0x11#8 0#8) rfl (by decide +kernel)

theorem Layout.setLfoRate (r : F32) : Layout.Statement (.setLfoRate r) :=
  layout_of_cmd (cmdWord 0x12#8 0#8) rfl (by decide +kernel)

theorem Layout.setLfoDepth (d : F32) : Layout.Statement (.setLfoDepth d) :=
  layout_of_cmd (cmdWord 0x13#8 0#8) rfl (by decide +kernel)

theorem Layout.setMix (m : F32) : Layout.Statement (.setMix m) :=
  layout_of_cmd (cmdWord 0x14#8 0#8) rfl (by decide +kernel)

theorem Layout.knobTempo (k : F32) : Layout.Statement (.knobTempo k) :=
  layout_of_cmd (cmdWord 0x20#8 0#8) rfl (by decide +kernel)

theorem Layout.knobVolume (k : F32) : Layout.Statement (.knobVolume k) :=
  layout_of_cmd (cmdWord 0x21#8 0#8) rfl (by decide +kernel)

theorem Layout.knobDelay (k : F32) : Layout.Statement (.knobDelay k) :=
  layout_of_cmd (cmdWord 0x22#8 0#8) rfl (by decide +kernel)

theorem Layout.knobFeedback (k : F32) : Layout.Statement (.knobFeedback k) :=
  layout_of_cmd (cmdWord 0x23#8 0#8) rfl (by decide +kernel)

theorem Layout.encInc (inc : Word) : Layout.Statement (.encInc inc) :=
  layout_of_cmd (cmdWord 0x30#8 0#8) rfl (by decide +kernel)

theorem Layout.button (b : BitVec 8) (lvl : Bool) : Layout.Statement (.button b lvl) := by
  unfold Layout.Statement; revert b lvl; decide +kernel

theorem Layout.trigger (v : BitVec 8) : Layout.Statement (.trigger v) := by
  unfold Layout.Statement; revert v; decide +kernel

theorem Layout.setDrumset (j : BitVec 8) : Layout.Statement (.setDrumset j) := by
  unfold Layout.Statement; revert j; decide +kernel

theorem Layout.readStatus : Layout.Statement .readStatus :=
  layout_of_cmd (cmdWord 0x50#8 0#8) rfl (by decide +kernel)

theorem Layout.readParam (n : BitVec 8) : Layout.Statement (.readParam n) := by
  unfold Layout.Statement; revert n; decide +kernel

theorem Layout.writeCtrl (u : Word) : Layout.Statement (.writeCtrl u) :=
  layout_of_cmd (cmdWord 0x52#8 0#8) rfl (by decide +kernel)

theorem Layout.reset : Layout.Statement .reset :=
  layout_of_cmd (cmdWord 0xFF#8 0#8) rfl (by decide +kernel)

end Sys2Proof.Laws
end

