-- ==== Sys2Proof/Tests/Slice0.lean ====
section
/-! SUPPORT. The model's own tests, each on one step, with results from the spec's examples and tables; and for each statement
with hypotheses a state and operands that meet them. -/

namespace Sys2Proof.Tests

-- One theorem after another: the kernel evaluations in parallel hold more threads than memory has room for.
set_option Elab.async false

open Sys2Proof.Machine Sys2Proof.Safety Sys2Proof.Laws

/-! The well-formedness checks refuse what they should (30_encoding.md R306; 10_state.md R118). -/

theorem test_wf_trigger : Instr.wellFormed (.trigger 3#8) = true ∧ Instr.wellFormed (.trigger 4#8) = false := by decide

theorem test_wf_setDrumset : Instr.wellFormed (.setDrumset 5#8) = true ∧ Instr.wellFormed (.setDrumset 6#8) = false := by
  decide

theorem test_wf_button : Instr.wellFormed (.button 2#8 true) = true ∧ Instr.wellFormed (.button 3#8 true) = false := by
  decide

theorem test_wf_readParam_ok :
    ∀ n ∈ [0x0D#8, 0x10#8, 0x14#8, 0x20#8, 0x2C#8, 0x30#8, 0x5C#8, 0x60#8, 0x69#8], Instr.wellFormed (.readParam n) = true := by
  decide

theorem test_wf_readParam_reserved :
    ∀ n ∈ [0x0E#8, 0x0F#8, 0x15#8, 0x1F#8, 0x2D#8, 0x2F#8, 0x3E#8, 0x4D#8, 0x5F#8, 0x6A#8, 0xFF#8],
      Instr.wellFormed (.readParam n) = false := by decide

/-! Every constructor from its word, the fields OPC, ARG and RSV written out (30_encoding.md R301, R306). -/

theorem test_decode_nop : decode (0b00000000#8 ++ 0b00000000#8 ++ 0b0000000000000000#16) 0#32 = .ok .nop := by decide

theorem test_decode_sample :
    decode (0b00000001#8 ++ 0b00000000#8 ++ 0b0000000000000000#16) 0x3F800000#32 = .ok (.sample 0x3F800000#32) := by decide

theorem test_decode_setDelayTime :
    decode (0b00010000#8 ++ 0b00000000#8 ++ 0b0000000000000000#16) 0x3F000000#32 = .ok (.setDelayTime 0x3F000000#32) := by
  decide

theorem test_decode_setFeedback :
    decode (0b00010001#8 ++ 0b00000000#8 ++ 0b0000000000000000#16) 0x80000000#32 = .ok (.setFeedback 0x80000000#32) := by
  decide

theorem test_decode_setLfoRate :
    decode (0b00010010#8 ++ 0b00000000#8 ++ 0b0000000000000000#16) 0x40000000#32 = .ok (.setLfoRate 0x40000000#32) := by
  decide

theorem test_decode_setLfoDepth :
    decode (0b00010011#8 ++ 0b00000000#8 ++ 0b0000000000000000#16) 0x3E800000#32 = .ok (.setLfoDepth 0x3E800000#32) := by
  decide

theorem test_decode_setMix :
    decode (0b00010100#8 ++ 0b00000000#8 ++ 0b0000000000000000#16) 0x7FC00000#32 = .ok (.setMix 0x7FC00000#32) := by decide

theorem test_decode_knobTempo :
    decode (0b00100000#8 ++ 0b00000000#8 ++ 0b0000000000000000#16) 0x3F000001#32 = .ok (.knobTempo 0x3F000001#32) := by
  decide

theorem test_decode_knobVolume :
    decode (0b00100001#8 ++ 0b00000000#8 ++ 0b0000000000000000#16) 0x3F000002#32 = .ok (.knobVolume 0x3F000002#32) := by
  decide

theorem test_decode_knobDelay :
    decode (0b00100010#8 ++ 0b00000000#8 ++ 0b0000000000000000#16) 0x3F000003#32 = .ok (.knobDelay 0x3F000003#32) := by
  decide

theorem test_decode_knobFeedback :
    decode (0b00100011#8 ++ 0b00000000#8 ++ 0b0000000000000000#16) 0x3F000004#32 = .ok (.knobFeedback 0x3F000004#32) := by
  decide

theorem test_decode_encInc :
    decode (0b00110000#8 ++ 0b00000000#8 ++ 0b0000000000000000#16) 0xFFFFFFFF#32 = .ok (.encInc 0xFFFFFFFF#32) := by decide

theorem test_decode_button :
    decode (0b00110001#8 ++ 0b00000010#8 ++ 0b0000000000000000#16) 0xFFFFFFFF#32 = .ok (.button 2#8 true) ∧
    decode (0b00110001#8 ++ 0b00000001#8 ++ 0b0000000000000000#16) 0xFFFFFFFE#32 = .ok (.button 1#8 false) := by decide

theorem test_decode_trigger :
    decode (0b01000000#8 ++ 0b00000010#8 ++ 0b0000000000000000#16) 0#32 = .ok (.trigger 2#8) := by decide

theorem test_decode_setDrumset :
    decode (0b01000001#8 ++ 0b00000101#8 ++ 0b0000000000000000#16) 0#32 = .ok (.setDrumset 5#8) := by decide

theorem test_decode_readStatus :
    decode (0b01010000#8 ++ 0b00000000#8 ++ 0b0000000000000000#16) 0x12345678#32 = .ok .readStatus := by decide

theorem test_decode_readParam :
    decode (0b01010001#8 ++ 0b01100001#8 ++ 0b0000000000000000#16) 0#32 = .ok (.readParam 0x61#8) := by decide

theorem test_decode_writeCtrl :
    decode (0b01010010#8 ++ 0b00000000#8 ++ 0b0000000000000000#16) 0xFFFFFFFF#32 = .ok (.writeCtrl 0xFFFFFFFF#32) := by
  decide

theorem test_decode_reset : decode (0b11111111#8 ++ 0b00000000#8 ++ 0b0000000000000000#16) 0#32 = .ok .reset := by decide

/-- Least significant byte first (20_memory.md R206): BUTTON enc 1. -/
theorem test_decodeBytes :
    decodeBytes [0x00#8, 0x00#8, 0x02#8, 0x31#8, 0x01#8, 0x00#8, 0x00#8, 0x00#8, 0xAA#8] =
      .ok (.button 2#8 true, [0xAA#8]) := by decide

theorem test_decodeBytes_short : decodeBytes [0x00#8, 0x00#8, 0x02#8, 0x31#8, 0x01#8] = .error .truncated := by decide

/-- A row whose table bits end at 32 gets an operand word of zeros. -/
theorem test_decodeTableWord :
    decodeTableWord 32 0x31020000 = some (.button 2#8 false) ∧ decodeTableWord 64 0x3F80000001000000 = some (.sample 0x3F800000#32) := by
  decide

/-! The constants are the binary32 values nearest to the decimals of 00_scope.md R8 and R9. -/

theorem test_constants :
    Config.cDc = F32.ofRat 1 1000 ∧ Config.dcR = F32.ofRat 999 1000 ∧ Config.cFb = F32.ofRat 3 10 ∧
    Config.resSnare = F32.ofRat 7 10 ∧ Config.resHat = F32.ofRat 7 10 ∧ Config.atkKick = F32.ofRat 1 1000 ∧
    Config.atkSnare = F32.ofRat 1 1000 ∧ Config.atkHat = F32.ofRat 5 10000 ∧ Config.atkClick = F32.ofRat 5 10000 ∧
    Config.decClick = F32.ofRat 10 1000 ∧ Config.fClick = F32.ofRat 1000 1 ∧ Config.delayMin = F32.ofRat 10 1000 ∧
    Config.delayMax = F32.ofRat 900 1000 := by decide +kernel

theorem test_constants_ranges :
    Config.fbMax = F32.ofRat 85 100 ∧ Config.lfoMin = F32.ofRat 1 100 ∧ Config.lfoMax = F32.ofRat 10 1 ∧
    Config.depthMax = F32.ofRat 8 10 ∧ Config.bpmBase = F32.ofRat 60 1 ∧ Config.bpmSpan = F32.ofRat 120 1 ∧
    Config.fcMin = F32.ofRat 20 1 ∧ Config.fcMaxFrac = F32.ofRat 45 100 ∧
    Config.twoPi = F32.ofRat 6283185307179586 1000000000000000 ∧
    Config.piF = F32.ofRat 3141592653589793 1000000000000000 ∧ Config.noiseScale = F32.ofRat 1 (2 ^ 31) := by decide +kernel

theorem test_constants_options :
    Config.cfg.subdivFrac = F32.ofRat 25 100 ∧ Config.cfg.fbKnobScale = F32.ofRat 85 100 ∧
    Config.cfg.dkOff = F32.ofRat 1 100 ∧ Config.cfg.dkSpan = F32.ofRat 49 100 ∧ Config.cfg.mixStep = F32.ofRat 5 100 := by
  decide +kernel

/-- DC_R = 1 - C_DC computed in binary32 (00_scope.md R9). -/
theorem test_dcR : F32.sub (Config.cfg.nan 0) Config.one Config.cDc = Config.dcR := by decide +kernel

/-! One step of each command, on the state after reset or one close to it. -/

/-- The state after a command, where it answers one. -/
def after (i : Instr) (s : State) : State :=
  match exec i s with
  | .next t => t
  | .fault _ => s
  | .refused _ => s

/-- The state after reset in preset mode, waiting for the trigger button, with the given mix. -/
def armed (mix : F32) : State := { State.reset with seqState := .armed, mix }

/-- Just before the last step of the pattern fires at 60 BPM: sub_iv is 12000.0 (43_clock_sequencer.md R600). -/
def lastStep : State := { State.reset with seqState := .playing, stepIdx := 31, subdivCount := F32.ofNat 11999 }

theorem test_nop : after .nop { State.reset with rsp := 7#32 } = State.reset := by rfl

/-- 41_delay_line.md R410: the example. -/
theorem test_setDelayTime :
    (after (.setDelayTime 0x3F000000#32) State.reset).delayTime = 0x3F000000#32 ∧
    (after (.setDelayTime 0x3F000000#32) State.reset).baseDelay = 0x46BB8000#32 := by decide +kernel

/-- R410: the corner cases. -/
theorem test_setDelayTime_corners :
    (after (.setDelayTime 0xFF800000#32) State.reset).delayTime = 0x3C23D70A#32 ∧
    (after (.setDelayTime 0x7FC00001#32) State.reset).delayTime = 0x3C23D70A#32 ∧
    (after (.setDelayTime 0x7F800000#32) State.reset).delayTime = 0x3F666666#32 := by decide +kernel

/-- R411: the corner cases. -/
theorem test_setFeedback :
    (after (.setFeedback 0x80000000#32) State.reset).feedback = 0x80000000#32 ∧
    (after (.setFeedback 0x3F800000#32) State.reset).feedback = 0x3F59999A#32 := by decide +kernel

/-- R412: the example and the corner cases. -/
theorem test_setLfoRate :
    (after (.setLfoRate 0x40000000#32) State.reset).lfoInc = 0x382EC33E#32 ∧
    (after (.setLfoRate 0x41800000#32) State.reset).lfoRate = 0x41200000#32 ∧
    (after (.setLfoRate 0xFFC00000#32) State.reset).lfoRate = 0x3C23D70A#32 := by decide +kernel

/-- R413: the example and the corner case. -/
theorem test_setLfoDepth :
    (after (.setLfoDepth 0x3E800000#32) State.reset).lfoDepth = 0x3E800000#32 ∧
    (after (.setLfoDepth 0x3F800000#32) State.reset).lfoDepth = 0x3F4CCCCD#32 := by decide +kernel

/-- R414: the example and the corner case. -/
theorem test_setMix :
    (after (.setMix 0x3F000000#32) State.reset).mix = 0x3F000000#32 ∧
    (after (.setMix 0x7FC00000#32) (armed 0x3F000000#32)).mix = 0#32 := by decide +kernel

/-- 44_host_commands.md R705: the examples. -/
theorem test_knobTempo :
    (after (.knobTempo 0x3F000000#32) State.reset).bpm = 0x42F00000#32 ∧
    (after (.knobTempo 0x3F800000#32) State.reset).bpm = F32.ofNat 180 ∧
    (after (.knobTempo 0x7FC00000#32) State.reset).bpm = F32.ofNat 60 := by decide +kernel

/-- R706: the example. -/
theorem test_knobVolume :
    (after (.knobVolume 0x3F400000#32) State.reset).volume = 0x3F400000#32 ∧
    (after (.knobVolume 0x40000000#32) State.reset).volume = Config.one := by decide +kernel

/-- R707: the example, KNOB_DELAY 0.2. -/
theorem test_knobDelay :
    (after (.knobDelay (F32.ofRat 2 10)) State.reset).delayTime = 0x3DDD2F1B#32 ∧
    (after (.knobDelay (F32.ofRat 2 10)) State.reset).baseDelay = 0x45A20000#32 := by decide +kernel

/-- R708: the example and the corner case. -/
theorem test_knobFeedback :
    (after (.knobFeedback 0x3F000000#32) State.reset).feedback = 0x3ED9999A#32 ∧
    (after (.knobFeedback 0x3F800000#32) State.reset).feedback = 0x3F59999A#32 := by decide +kernel

/-- 43_clock_sequencer.md R621: the examples in MANUAL. -/
theorem test_encInc_manual :
    (after (.encInc 1#32) { State.reset with drumset := 5 }).drumset = 0 ∧
    (after (.encInc 1#32) { State.reset with drumset := 5 }).chg = true ∧
    (after (.encInc 0xFFFFFFFF#32) State.reset).drumset = 5 ∧
    (after (.encInc 6#32) State.reset).chg = false := by decide +kernel

/-- R621: the examples in ARMED. -/
theorem test_encInc_armed :
    (after (.encInc 3#32) (armed 0x3F000000#32)).mix = 0x3F266666#32 ∧
    (after (.encInc 5#32) (armed (F32.ofRat 9 10))).mix = Config.one ∧
    (after (.encInc 0x80000000#32) (armed 0x3F000000#32)).mix = Config.zero := by decide +kernel

/-- R620: the example, and the arm. -/
theorem test_button_b0 :
    (after (.button 0#8 true) State.reset).kick.env.stage = .attack ∧
    (after (.button 0#8 true) State.reset).btnPrev = 1#3 ∧
    (after (.button 0#8 true) (armed 0#32)).seqState = .playing ∧
    (after (.button 0#8 true) { armed 0#32 with btnPrev := 1#3 }).seqState = .armed := by decide +kernel

/-- R605: enc toggles the mode, b1 triggers the snare in MANUAL only. -/
theorem test_button_enc_b1 :
    (after (.button 2#8 true) lastStep).seqState = .manual ∧ (after (.button 2#8 true) lastStep).stepIdx = 0 ∧
    (after (.button 2#8 true) lastStep).chg = true ∧ (after (.button 1#8 true) State.reset).snare.env.stage = .attack ∧
    (after (.button 1#8 true) lastStep).snare.env.stage = .idle := by decide +kernel

/-- 42_drum_voices.md R520: the example. -/
theorem test_trigger :
    let s := { State.reset with kick := { State.reset.kick with env := ⟨.decay, 0x3F000000#32, 1#32, 2#32⟩ } }
    (after (.trigger 0#8) s).kick.env = ⟨.attack, 0#32, 1#32, 2#32⟩ := by decide +kernel

/-- R521: the example. -/
theorem test_setDrumset :
    (after (.setDrumset 2#8) State.reset).drumset = 2 ∧ (after (.setDrumset 2#8) State.reset).chg = true ∧
    (after (.setDrumset 0#8) State.reset).chg = false := by decide +kernel

/-- 44_host_commands.md R712: the example. -/
theorem test_readStatus :
    let s := { State.reset with drumset := 3, chg := true }
    (after .readStatus s).rsp = 0x00000103#32 ∧ (after .readStatus (after .readStatus s)).rsp = 0x00000003#32 := by
  decide +kernel

/-- 44_host_commands.md R713: the example, and a register without state (10_state.md R112). -/
theorem test_readParam :
    (after (.readParam 0x08#8) State.reset).rsp = 0x43F00000#32 ∧ (after (.readParam 0x27#8) State.reset).rsp = 0#32 := by
  decide +kernel

/-- 44_host_commands.md R714: the example. -/
theorem test_writeCtrl : (after (.writeCtrl 0xFFFFFFFF#32) State.reset).ctrl = 0x00000001#32 := by decide

theorem test_reset : after .reset { lastStep with lfsr := 9#32, dbuf := [(3, Config.one)] } = State.reset := by rfl

/-- 45_sample_pipeline.md R800: the write index of the example; 43_clock_sequencer.md R603: the last step completes. -/
theorem test_sample :
    (after (.sample 0#32) State.reset).writeIndex = 1 ∧ (after (.sample 0#32) lastStep).seqState = .armed := by
  refine ⟨(sampleStep_writeIndex Config.cfg 0#32 State.reset).trans (by decide), ?_⟩
  refine (sampleStep_seqState Config.cfg 0#32 lastStep).trans ((clockStep_seqState _ _ _).trans ?_)
  decide +kernel

/-- A configuration without open fields, whose sine is 0. -/
def fixture : Cfg :=
  { Config.cfg with
    drumset := fun _ => Config.someLegalRow, pattern := fun _ _ => true, voiceGain := fun _ => Config.one
    sin := fun _ => Config.zero, tan := fun _ => Config.one
    tanh := fun x => if F32.isInf x then (if F32.sign x then Config.negOne else Config.one) else x
    nan := fun _ _ _ _ => 0#32 }

theorem fixture_legal : fixture.Legal :=
  { cfg_legal with
    drumset := fun _ => (by decide +kernel : Config.someLegalRow.legal 48000 = true)
    tanh_nan := fun x h => by
      have : F32.isInf x = false := by
        simp only [F32.isNaN, Bool.and_eq_true, bne_iff_ne] at h
        simp [F32.isInf, h.2]
      show F32.isNaN (if F32.isInf x then _ else x) = true
      rw [this]
      exact h
    tanh_inf := fun neg => by cases neg <;> decide
    tanh_zero := fun neg => by cases neg <;> decide }

/-- 45_sample_pipeline.md R810: at VOLUME 0.0 the response is a zero with the sign of `pre`, whatever TANH is. -/
theorem test_tanh_zero :
    outputSample Config.cfg (Config.cfg.nan 1) 0x00000000#32 0x3F800000#32 = 0x00000000#32 ∧
    outputSample Config.cfg (Config.cfg.nan 1) 0x00000000#32 0xBF800000#32 = 0x80000000#32 := by decide +kernel

/-- 41_delay_line.md R417: the first SAMPLE of an impulse from reset passes at exactly 1.0, into cell 0 and, at MIX = 0, to
the output. -/
theorem test_sample_impulse :
    let t := sampleStep fixture Config.one { State.resetFor fixture with volume := Config.one }
    t.dcY1 = Config.one ∧ t.cell fixture 0 = Config.one ∧ t.rsp = Config.one ∧ t.lastL = 0x43F00000#32 := by decide +kernel

/-! Errors, the noise register and the arithmetic. -/

/-- 60_exceptions.md R905: TRIGGER of voice 4 as the first error, and as a second one. -/
theorem test_errInfo :
    (takeError .argRange 0x40040000#32 State.reset).errInfo = 0x00044003#32 ∧
    (takeError .argRange 0x40040000#32 State.reset).ovf = false ∧
    (takeError .illegalOpcode 0x02000000#32 (takeError .argRange 0x40040000#32 State.reset)).errInfo = 0x00044003#32 ∧
    (takeError .illegalOpcode 0x02000000#32 (takeError .argRange 0x40040000#32 State.reset)).ovf = true := by decide

/-- 42_drum_voices.md R509. -/
theorem test_noise :
    noiseNext 0x00000001#32 = 0x80200003#32 ∧ noiseNext 0x80000000#32 = 0x40000000#32 ∧
    noiseValue (Config.cfg.nan 0) 0x7FFFFFFF#32 = Config.one ∧
    noiseValue (Config.cfg.nan 0) 0x80000000#32 = Config.negOne := by decide +kernel

/-- A sum between two neighbours, ties to even; signed zeros; overflow; a subnormal quotient. -/
theorem test_arithmetic :
    F32.add (Config.cfg.nan 0) 0x3F800000#32 0x33800000#32 = 0x3F800000#32 ∧
    F32.add (Config.cfg.nan 0) 0x3F800001#32 0x33800000#32 = 0x3F800002#32 ∧
    F32.add (Config.cfg.nan 0) 0x00000000#32 0x80000000#32 = 0x00000000#32 ∧
    F32.mul (Config.cfg.nan 0) 0x7F7FFFFF#32 0x40000000#32 = 0x7F800000#32 ∧
    F32.div (Config.cfg.nan 0) 0x00800000#32 0xC0000000#32 = 0x80400000#32 := by decide +kernel

/-! Witnesses: a state and operands that meet the hypotheses of each statement. -/

/-- A state with one command presented. -/
def presented (cmd data : Word) : State := { State.reset with inbox := [⟨cmd, data⟩], volume := Config.one }

theorem witness_DecodeInvertsEncode : Instr.wellFormed (.readParam 0x69#8) = true := by decide

theorem witness_DecodedCommandHasOneWord : decode 0x40030000#32 0x12345678#32 = .ok (.trigger 3#8) := by decide

theorem witness_UnusedDataBitsAreIgnored :
    Operand.opc 0x51080000#32 ∈ [0x00#8, 0x50#8, 0xFF#8, 0x40#8, 0x41#8, 0x51#8] ∧
    Operand.opc 0x31020000#32 = 0x31#8 ∧ (0x00000001#32).getLsbD 0 = (0xFFFFFFFF#32).getLsbD 0 := by decide

theorem witness_StepRunsDecodedCommand :
    (presented 0x31020000#32 1#32).inbox = ⟨0x31020000#32, 1#32⟩ :: [] ∧
    decode 0x31020000#32 1#32 = .ok (.button 2#8 true) := by decide

theorem witness_StepRecordsCommandError :
    (presented 0x02000000#32 0#32).inbox = ⟨0x02000000#32, 0#32⟩ :: [] ∧
    decode 0x02000000#32 0#32 = .error .illegalOpcode := by decide

theorem witness_StepHoldsWithoutCommand : State.reset.inbox = [] := by decide

theorem witness_LaterCommandsDoNotAffectAStep :
    (presented 0#32 0#32).inbox = ⟨0#32, 0#32⟩ :: [] ∧
    step (presented 0#32 0#32) = .next { State.reset with volume := Config.one } := ⟨by decide, by rfl⟩

theorem witness_ErrorFlagsAreSticky_error :
    decode 0x01000001#32 0#32 = .error .reservedBits ∧
    step (presented 0x01000001#32 0#32) =
      .next { State.reset with volume := Config.one, err := true, errInfo := 0x00000102#32 } := ⟨by decide, by rfl⟩

theorem witness_ErrorFlagsAreSticky_clear :
    decode 0x50000000#32 0#32 = .ok .readStatus ∧
    step { presented 0x50000000#32 0#32 with err := true, ovf := true } =
      .next { State.reset with volume := Config.one, rsp := 0x00000600#32 } := ⟨by decide, by rfl⟩

theorem witness_ErrorFlagsAreSticky_keep :
    decode 0#32 0#32 = .ok .nop ∧ step (presented 0#32 0#32) = .next { State.reset with volume := Config.one } :=
  ⟨by decide, by rfl⟩

theorem witness_ChgTracksDrumsetAndMode :
    exec (.button 2#8 true) State.reset =
      .next { State.reset with seqState := .armed, chg := true, btnPrev := 4#3 } := by rfl

theorem witness_IrqRisesExactlyOnItsEvents :
    let s := { presented 0x31020000#32 1#32 with ctrl := 1#32 }
    s.irqEn = true ∧ s.irq = false ∧
    step s = .next { State.reset with
      volume := Config.one, ctrl := 1#32, seqState := .armed, chg := true, btnPrev := 4#3 } := ⟨by decide, by decide, by rfl⟩

/-- The other events, and a SAMPLE, which is none. -/
theorem witness_IrqRisesExactlyOnItsEvents_others :
    (∃ t, step { presented 0x02000000#32 0#32 with ctrl := 1#32 } = .next t ∧ t.irq = true) ∧
    (∃ t, step { presented 0x41050000#32 0#32 with ctrl := 1#32 } = .next t ∧ t.irq = true) ∧
    (∃ t, step { presented 0x30000000#32 0xFFFFFFFF#32 with ctrl := 1#32 } = .next t ∧ t.irq = true) ∧
    ∃ t, step { presented 0x30000000#32 6#32 with ctrl := 1#32 } = .next t ∧ t.irq = false :=
  ⟨⟨_, rfl, by decide +kernel⟩, ⟨_, rfl, by decide +kernel⟩, ⟨_, rfl, by decide +kernel⟩, ⟨_, rfl, by decide +kernel⟩⟩

theorem witness_OnlySampleAdvancesTime :
    exec (.writeCtrl 1#32) State.reset = .next { State.reset with ctrl := 1#32 } := by rfl

theorem witness_ParametersWrittenOnlyByTheirCommands :
    ∃ t, exec (.setMix Config.one) State.reset = .next t ∧ t.mix ≠ State.reset.mix := ⟨_, rfl, by decide⟩

theorem witness_StepKeepsStructureOk : StructureOk (presented 0x01000000#32 Config.one) :=
  ⟨by decide, by decide, by decide, by decide, by decide, by decide, by decide, by decide⟩

theorem witness_StepKeepsDerivedOk : DerivedOk (presented 0x01000000#32 Config.one) := ⟨rfl, rfl, rfl⟩

theorem witness_StepKeepsVoicesTuned : VoicesTuned (presented 0x41050000#32 0#32) :=
  ⟨⟨rfl, rfl, rfl, rfl⟩, ⟨rfl, rfl, rfl, rfl, rfl, rfl, rfl⟩, ⟨rfl, rfl, rfl, rfl, rfl, rfl, rfl⟩, ⟨rfl, rfl, rfl, rfl⟩⟩

theorem witness_StepKeepsGood : Good (presented 0x01000000#32 Config.one) where
  structureOk := witness_StepKeepsStructureOk
  parametersOk := ⟨by decide, by decide, by decide, by decide, by decide, by decide, by decide⟩
  derivedOk := witness_StepKeepsDerivedOk
  voicesTuned := ⟨⟨rfl, rfl, rfl, rfl⟩, ⟨rfl, rfl, rfl, rfl, rfl, rfl, rfl⟩, ⟨rfl, rfl, rfl, rfl, rfl, rfl, rfl⟩,
    ⟨rfl, rfl, rfl, rfl⟩⟩
  levelsOk := ⟨by decide, by decide, by decide, by decide⟩
  phasesOk := ⟨by decide, by decide, by decide⟩

/-- For each statement that says what every step keeps: the step answers a next state. -/
theorem witness_step_answers : ∃ t, step (presented 0x01000000#32 Config.one) = .next t := ⟨_, rfl⟩

/-- The same for a step that changes the drum set. -/
theorem witness_step_answers_setDrumset : ∃ t, step (presented 0x41050000#32 0#32) = .next t := ⟨_, rfl⟩

/-- At the two ends: an advance that wraps, and one just short of it. -/
theorem witness_PhaseAdvanceStaysInRange : PhaseOk 0x3F7FFFFF#32 ∧ PhaseOk 0x3F000000#32 ∧ PhaseOk 0x00000000#32 := by decide

theorem witness_SumsRoundToNearestEven :
    F32.isFinite 0x7F7FFFFF#32 = true ∧ F32.isFinite 0xBF800000#32 = true ∧
    F32.isFinite (F32.add (Config.cfg.nan 0) 0x3F800000#32 0x33800000#32) = true ∧
    F32.isInf (F32.sub (Config.cfg.nan 0) 0x7F7FFFFF#32 0xFF7FFFFF#32) = true := by decide +kernel

theorem witness_ProductsAndQuotientsRoundToNearestEven :
    F32.units 0xC0400000#32 ≠ 0 ∧ F32.isFinite (F32.div (Config.cfg.nan 0) 0x3F800000#32 0xC0400000#32) = true ∧
    F32.isFinite (F32.mul (Config.cfg.nan 0) 0x00000001#32 0x3F000000#32) = true := by decide +kernel

theorem witness_FloorIntIsTheLargestIntegerBelow :
    F32.le 0x00000000#32 0x4B7FFFFF#32 = true ∧ F32.lt 0x4B7FFFFF#32 0x4B800000#32 = true ∧
    F32.le 0x00000000#32 0x80000000#32 = true := by decide

theorem witness_ClampSaturates :
    F32.le 0x00000000#32 0x3F800000#32 = true ∧ F32.isNaN 0x7FC00000#32 = true ∧ F32.lt 0xBF800000#32 0x00000000#32 = true ∧
    F32.gt 0x40000000#32 0x3F800000#32 = true ∧ F32.lt 0x80000000#32 0x00000000#32 = false ∧
    F32.gt 0x80000000#32 0x3F800000#32 = false := by decide

/-- Both ends of the delay length, at both ends of the memory. -/
theorem witness_ReadPositionInRange :
    Config.cfg.Legal ∧ 0 < Config.cfg.cap ∧ 47999 < Config.cfg.cap ∧
    Between 0x3F800000#32 (F32.ofNat (Config.cfg.cap - 1)) 0x3F800000#32 ∧
    Between 0x3F800000#32 (F32.ofNat (Config.cfg.cap - 1)) (F32.ofNat 47999) :=
  ⟨cfg_legal, by decide, by decide, by decide +kernel, by decide +kernel⟩

/-- A read of the written cell exists, with no weight: L = 1.0 at WRITE_INDEX 0 reads cells 47999 and 0. -/
theorem witness_WrittenCellHasNoWeightInItsOwnSample :
    (F32.floorInt (readPos Config.cfg (Config.cfg.nan 0) 0 0x3F800000#32) + 1) % Config.cfg.cap = 0 := by decide +kernel

theorem witness_SampleDelayLine : Memory.wf State.reset.dbuf ∧ State.reset.writeIndex < Config.cfg.cap :=
  ⟨reset_dbuf_wf, by decide⟩

theorem witness_MixStepFollowsDrumsIntoDelay :
    Config.cfg.drumsIntoDelay = true ∧ ({ Config.cfg with drumsIntoDelay := false } : Cfg).drumsIntoDelay = false := by decide

/-- SeqFire at the last step, at an earlier step, and none. -/
theorem witness_SampleClockAndSequencer :
    (seqFires Config.cfg (Config.cfg.nan 1) lastStep = true ∧ lastStep.stepIdx + 1 = Config.cfg.patternLen) ∧
    (seqFires Config.cfg (Config.cfg.nan 1) { lastStep with stepIdx := 30 } = true ∧ 30 + 1 ≠ Config.cfg.patternLen) ∧
    seqFires Config.cfg (Config.cfg.nan 1) State.reset = false := by decide +kernel

theorem witness_OutputDoesNotReachTheNextState :
    (∃ t, exec (.sample 0#32) State.reset = .next t) ∧
    ∃ t, exec (.sample 0#32) { State.reset with volume := Config.one, rsp := 5#32 } = .next t := ⟨⟨_, rfl⟩, ⟨_, rfl⟩⟩

/-- A `pre` of each sign at VOLUME 0.0, and a first SAMPLE whose drum bus is a number; 47999 and 48000 are the numbers of
SAMPLEs where the clauses meet. -/
theorem witness_IdleFromReset :
    fixture.Legal ∧ fixture.fs = 48000 ∧ (State.resetFor fixture).volume = 0x00000000#32 ∧
    (sampleStep fixture 0x3F800000#32 (State.resetFor fixture)).lastPre = 0x3F800000#32 ∧
    (sampleStep fixture 0xBF800000#32 (State.resetFor fixture)).lastPre = 0xBF800000#32 ∧
    F32.isFinite 0x3F800000#32 = true ∧ F32.isFinite 0xBF800000#32 = true ∧
    F32.isNaN (sampleStep fixture 0x00000000#32 (State.resetFor fixture)).lastDrumBus = false ∧
    47999 < 48000 :=
  ⟨fixture_legal, rfl, rfl, by decide +kernel, by decide +kernel, by decide, by decide, by decide +kernel, by decide⟩

theorem witness_SamplesWriteConsecutiveCells :
    State.reset.writeIndex < Config.cfg.cap ∧ 5 < Config.cfg.cap ∧
    ∀ k, k < 2 → 5 ≠ (State.reset.writeIndex + k) % Config.cfg.cap := by decide

theorem witness_CanonicalMemoriesAreEqualData :
    Memory.wf [(3, Config.one), (47999, Config.two)] ∧ ¬Memory.wf [(3, Config.zero)] ∧
    ¬Memory.wf [(3, Config.one), (3, Config.two)] := by decide

/-- Each clause of EnvStep, at the value where it wraps and below it. -/
theorem witness_EnvStepFollowsItsStages :
    F32.ge (F32.add (Config.cfg.nan 1) 0x3F000000#32 0x3F000000#32) 0x3F800000#32 = true ∧
    F32.ge (F32.add (Config.cfg.nan 1) 0x3F000000#32 0x3E800000#32) 0x3F800000#32 = false ∧
    F32.le (F32.sub (Config.cfg.nan 1) 0x3F000000#32 0x3F000000#32) 0x00000000#32 = true ∧
    F32.le (F32.sub (Config.cfg.nan 1) 0x3F000000#32 0x3E800000#32) 0x00000000#32 = false := by decide +kernel

/-- With AINC = 0.25 the sum reaches 1.0 at the fourth copy. -/
theorem witness_AttackIsTheSumOfIncrements :
    let sum (j : Nat) : F32 := (fun l => F32.add (Config.cfg.nan 1) l 0x3E800000#32)^[j] 0x00000000#32
    (∀ j, j ≤ 3 → 1 ≤ j → F32.ge (sum j) 0x3F800000#32 = false) ∧ F32.ge (sum 4) 0x3F800000#32 = true := by decide +kernel

theorem witness_EnvIncFollowsItsRule :
    F32.gt (F32.mul (setupNan Config.cfg) Config.one (F32.ofNat Config.cfg.fs)) 0x3F800000#32 = true ∧
    F32.gt (F32.mul (setupNan Config.cfg) Config.zero (F32.ofNat Config.cfg.fs)) 0x3F800000#32 = false := by decide +kernel

theorem witness_SetDrumsetLoadsTheRow : (0#8).toNat < 6 ∧ (5#8).toNat < 6 := by decide

theorem witness_SelectingTheCurrentSetChangesNothing : VoicesTuned (presented 0x41000000#32 0#32) :=
  ⟨⟨rfl, rfl, rfl, rfl⟩, ⟨rfl, rfl, rfl, rfl, rfl, rfl, rfl⟩, ⟨rfl, rfl, rfl, rfl, rfl, rfl, rfl⟩, ⟨rfl, rfl, rfl, rfl⟩⟩

theorem witness_StoppedSequencerFiresNothing : State.reset.seqState ≠ .playing ∧ (armed 0#32).seqState ≠ .playing := by decide

/-- No edge, and an edge in each state that the clauses name. -/
theorem witness_ButtonDrivesTheSequencer :
    (2#8).toNat ≤ 2 ∧ State.reset.btnPrev.getLsbD 2 = false ∧ State.reset.seqState = .manual ∧
    (armed 0#32).btnPrev.getLsbD 0 = false ∧ (armed 0#32).seqState = .armed ∧
    lastStep.btnPrev.getLsbD 1 = false ∧ lastStep.seqState = .playing ∧
    ({ State.reset with btnPrev := 7#3 } : State).btnPrev.getLsbD 2 = true := by decide

theorem witness_EncIncTurnsTheSetOrTheMix : State.reset.seqState = .manual ∧ lastStep.seqState ≠ .manual := by decide

/-- The last register before the reserved ones. -/
theorem witness_ReadParamAnswersTheRegister :
    exec (.readParam 0x69#8) State.reset = .next { State.reset with rsp := State.reset.lastDrumBus } := by rfl

theorem witness_NoiseValueInRange : (1#32) ≠ 0#32 ∧ (0x80000000#32) ≠ 0#32 := by decide

theorem witness_NopChangesNothing :
    0x00000001#32 >>> 24 = 0#32 ∧ 0x00000001#32 ≠ 0x00000000#32 ∧ 0x00FFFFFF#32 >>> 24 = 0#32 := by decide

theorem witness_WriteCtrlWritesIrqEnOnly :
    0x52800000#32 >>> 24 = 0x52#32 ∧ 0x52800000#32 &&& 0x00FFFFFF#32 ≠ 0#32 ∧ (1#32).getLsbD 0 = true ∧
    ({ State.reset with chg := true } : State).chg = true := by decide

theorem witness_ExecOutsideTheArgRangeRecordsArgRange :
    Instr.wellFormed (.trigger 4#8) = false ∧ Instr.wellFormed (.setDrumset 6#8) = false ∧
    Instr.wellFormed (.button 3#8 false) = false ∧ Instr.wellFormed (.readParam 0x6A#8) = false := by decide

end Sys2Proof.Tests
end

/-! The effects of the commands: one relation that says once everything `exec` can do, from which the proofs about every
command go by cases. -/

namespace Sys2Proof.Laws

open Sys2Proof.Machine Sys2Proof.Safety

/-- Everything a command can do to the state: the arms of `exec` with their branches resolved. A button level that is no
edge, or whose edge has no effect, is `buttonRecorded`. -/
inductive Effect : Instr → State → State → Prop
  | nop (s) : Effect .nop s (respond 0#32 s)
  | sample (x s) : Effect (.sample x) s (sampleStep Config.cfg x s)
  | setDelayTime (x s) : Effect (.setDelayTime x) s (respond 0#32 (setDelayTime Config.cfg x s))
  | setFeedback (x s) : Effect (.setFeedback x) s (respond 0#32 (setFeedback x s))
  | setLfoRate (x s) : Effect (.setLfoRate x) s (respond 0#32 (setLfoRate Config.cfg x s))
  | setLfoDepth (x s) : Effect (.setLfoDepth x) s
      (respond 0#32 { s with lfoDepth := F32.clamp x Config.zero Config.depthMax })
  | setMix (x s) : Effect (.setMix x) s (respond 0#32 { s with mix := F32.clamp x Config.zero Config.one })
  | knobTempo (k s) : Effect (.knobTempo k) s (respond 0#32 (setTempo Config.cfg k s))
  | knobVolume (k s) : Effect (.knobVolume k) s (respond 0#32 { s with volume := knobValue k })
  | knobDelay (k s) : Effect (.knobDelay k) s
      (respond 0#32 (setDelayTime Config.cfg (knobDelayTime Config.cfg k) s))
  | knobFeedback (k s) : Effect (.knobFeedback k) s (respond 0#32 (setFeedback (knobFeedbackGain Config.cfg k) s))
  | encDrumset (n j s) : s.seqState = .manual → Effect (.encInc n) s (respond 0#32 (selectDrumSet Config.cfg j s))
  | encMix (n m s) : s.seqState ≠ .manual →
      Effect (.encInc n) s (respond 0#32 { s with mix := F32.clamp m Config.zero Config.one })
  | buttonRecorded (b lvl p s) : Effect (.button b lvl) s (respond 0#32 { s with btnPrev := p })
  | buttonToggle (b lvl p s) : Effect (.button b lvl) s (respond 0#32
      { s with btnPrev := p, seqState := (if s.seqState = .manual then .armed else .manual), stepIdx := 0, chg := true })
  | buttonPlay (b lvl p s) : s.seqState = .armed → Effect (.button b lvl) s (respond 0#32
      { s with btnPrev := p, seqState := .playing, stepIdx := 0, subdivCount := Config.zero })
  | buttonTrigger (b lvl p v s) : Effect (.button b lvl) s (respond 0#32 (trigger v { s with btnPrev := p }))
  | trigger (n v s) : Effect (.trigger n) s (respond 0#32 (trigger v s))
  | setDrumset (n j s) : Effect (.setDrumset n) s (respond 0#32 (selectDrumSet Config.cfg j s))
  | readStatus (s) : Effect .readStatus s (respond s.status s.clearSticky)
  | readParam (n v s) : Effect (.readParam n) s (respond v s)
  | writeCtrl (u s) : Effect (.writeCtrl u) s (respond 0#32 { s with ctrl := u &&& ctrlMask })
  | reset (s) : Effect .reset s (respond 0#32 (resetAll Config.cfg s))
  | argRange (i s) : Effect i s (argRangeError i s)

theorem buttonLevel_effect (b : BitVec 8) (lvl : Bool) (s : State) :
    Effect (.button b lvl) s (respond 0#32 (buttonLevel b.toNat lvl s)) := by
  rcases buttonLevel_cases b.toNat lvl s with ⟨-, -, h⟩ | ⟨-, h⟩ <;> rw [h]
  · rcases risingEdge_cases b.toNat { s with btnPrev := recordLevel b.toNat lvl s.btnPrev } with
      ⟨-, h⟩ | ⟨-, ha, h⟩ | ⟨-, -, h⟩ | ⟨-, -, -, h⟩ | ⟨-, -, -, h⟩ <;> rw [h]
    · exact .buttonToggle ..
    · exact .buttonPlay _ _ _ _ ha
    · exact .buttonTrigger ..
    · exact .buttonTrigger ..
    · exact .buttonRecorded ..
  · exact .buttonRecorded ..

theorem encStep_effect (n : Word) (s : State) :
    Effect (.encInc n) s (respond 0#32 (encStep Config.cfg (Operand.s32 n) s)) := by
  rcases encStep_cases Config.cfg (Operand.s32 n) s with ⟨hm, h⟩ | ⟨hm, h⟩ <;> rw [h]
  · exact .encDrumset _ _ _ hm
  · exact .encMix _ _ _ hm

/-- What `exec` answers is one of the effects of its command. -/
theorem exec_effect {i : Instr} {s t : State} (h : exec i s = .next t) : Effect i s t := by
  cases i with
  | encInc n => cases h; exact encStep_effect n s
  | button b lvl =>
    rcases exec_button_cases h with ⟨-, rfl⟩ | ⟨-, rfl⟩
    · exact buttonLevel_effect b lvl s
    · exact .argRange ..
  | trigger n =>
    rcases exec_trigger_cases h with ⟨v, -, rfl⟩ | ⟨-, rfl⟩
    · exact .trigger n v s
    · exact .argRange ..
  | setDrumset n =>
    rcases exec_setDrumset_cases h with ⟨hj, rfl⟩ | ⟨-, rfl⟩
    · exact .setDrumset ..
    · exact .argRange ..
  | readParam n =>
    rcases exec_readParam_cases h with ⟨v, -, rfl⟩ | ⟨-, rfl⟩
    · exact .readParam n v s
    · exact .argRange ..
  | _ => cases h; constructor

end Sys2Proof.Laws

/-! The CHG flag and the parameter registers over one command (spec 10_state.md R103, R109). -/

namespace Sys2Proof.Laws

open Sys2Proof.Machine Sys2Proof.Safety

/-- Only a sequencer that is PLAYING ends its pattern. -/
theorem patternEnds_playing {cfg : Cfg} {nu : NanRule} {s : State} (h : patternEnds cfg nu s = true) :
    s.seqState = .playing := by
  simp only [patternEnds, seqFires, State.playing, Bool.and_eq_true, beq_iff_eq] at h
  obtain ⟨⟨-, hp⟩, -⟩ := h
  exact hp

/-- A SAMPLE leaves MODE alone: the end of the pattern takes PLAYING to ARMED. -/
theorem sampleStep_manual_iff (cfg : Cfg) (x : F32) (s : State) :
    (sampleStep cfg x s).seqState = .manual ↔ s.seqState = .manual := by
  rw [sampleStep_seqState, clockStep_seqState]
  split
  · next h => simp [patternEnds_playing h]
  · rfl

@[simp] theorem trigger_chg (v : Voice) (s : State) : (trigger v s).chg = s.chg := by cases v <;> rfl
@[simp] theorem trigger_drumset (v : Voice) (s : State) : (trigger v s).drumset = s.drumset := by cases v <;> rfl
@[simp] theorem trigger_seqState (v : Voice) (s : State) : (trigger v s).seqState = s.seqState := by cases v <;> rfl

/-- CHG after a command that does not clear it (R109). -/
theorem Effect.chg_iff {i : Instr} {s t : State} (e : Effect i s t) (hs : i ≠ .readStatus) (hr : i ≠ .reset) :
    t.chg = true ↔ s.chg = true ∨ t.drumset ≠ s.drumset ∨ ¬(t.seqState = .manual ↔ s.seqState = .manual) := by
  cases e with
  | sample x => rw [sampleStep_manual_iff]; simp
  | buttonPlay _ _ _ _ ha => simp [ha]
  | readStatus => exact absurd rfl hs
  | reset => exact absurd rfl hr
  | argRange => simp [argRangeError]
  | _ => simp

/-- Settles O12, by the effects of the commands. -/
theorem chgTracksDrumsetAndMode : Obligations.ChgTracksDrumsetAndMode :=
  fun _ _ _ hs hr h => (exec_effect h).chg_iff hs hr

/-- What R103 says of one parameter register over a command `i`. -/
def ParameterRow (i : Instr) (s t : State) (get : State → F32) (lo hi init : F32) (writer : Prop) : Prop :=
  get t = get s ∨ (writer ∧ Between lo hi (get t)) ∨ (i = .reset ∧ get t = init)

theorem ParameterRow.between {i : Instr} {s t : State} {get : State → F32} {lo hi init : F32} {writer : Prop}
    (h : ParameterRow i s t get lo hi init writer) (hs : Between lo hi (get s)) (hr : Between lo hi init) :
    Between lo hi (get t) := by
  rcases h with h | ⟨-, h⟩ | ⟨-, h⟩
  · rwa [h]
  · exact h
  · rwa [h]

/-- The table of R103, with the writers of each row. -/
structure ParameterRows (i : Instr) (s t : State) : Prop where
  delayTime : ParameterRow i s t State.delayTime Config.delayMin Config.delayMax Config.delayMin
    ((∃ x, i = .setDelayTime x) ∨ ∃ k, i = .knobDelay k)
  feedback : ParameterRow i s t State.feedback Config.zero Config.fbMax Config.zero
    ((∃ g, i = .setFeedback g) ∨ ∃ k, i = .knobFeedback k)
  lfoRate : ParameterRow i s t State.lfoRate Config.lfoMin Config.lfoMax Config.lfoMin (∃ r, i = .setLfoRate r)
  lfoDepth : ParameterRow i s t State.lfoDepth Config.zero Config.depthMax Config.zero (∃ d, i = .setLfoDepth d)
  mix : ParameterRow i s t State.mix Config.zero Config.one Config.zero
    ((∃ m, i = .setMix m) ∨ ((∃ n, i = .encInc n) ∧ s.seqState ≠ .manual))
  tempoKnob : ParameterRow i s t State.tempoKnob Config.zero Config.one Config.zero (∃ k, i = .knobTempo k)
  volume : ParameterRow i s t State.volume Config.zero Config.one Config.zero (∃ k, i = .knobVolume k)

/-- A parameter register that its command wrote, through `clamp`. -/
theorem ParameterRow.clamped {i : Instr} {s t : State} {get : State → F32} {lo hi init x : F32} {writer : Prop}
    (hw : writer) (hx : get t = F32.clamp x lo hi) (h : F32.le lo hi = true) :
    ParameterRow i s t get lo hi init writer :=
  .inr (.inl ⟨hw, by rw [hx]; exact clamp_between h⟩)

theorem trigger_parameterRows (i : Instr) (v : Voice) (s : State) : ParameterRows i s (trigger v s) := by
  cases v <;> exact ⟨.inl rfl, .inl rfl, .inl rfl, .inl rfl, .inl rfl, .inl rfl, .inl rfl⟩

theorem sampleStep_parameterRows (i : Instr) (cfg : Cfg) (x : F32) (s : State) : ParameterRows i s (sampleStep cfg x s) :=
  ⟨.inl (sampleStep_delayTime ..), .inl (sampleStep_feedback ..), .inl (sampleStep_lfoRate ..),
    .inl (sampleStep_lfoDepth ..), .inl (sampleStep_mix ..), .inl (sampleStep_tempoKnob ..), .inl (sampleStep_volume ..)⟩

theorem ParameterRows.unchanged (i : Instr) (s : State) : ParameterRows i s s :=
  ⟨.inl rfl, .inl rfl, .inl rfl, .inl rfl, .inl rfl, .inl rfl, .inl rfl⟩

theorem Effect.parameterRows {i : Instr} {s t : State} (e : Effect i s t) : ParameterRows i s t := by
  have same := ParameterRows.unchanged i s
  cases e with
  | sample x => exact sampleStep_parameterRows ..
  | setDelayTime x => exact { same with delayTime := .clamped (.inl ⟨x, rfl⟩) rfl (by decide) }
  | setFeedback x => exact { same with feedback := .clamped (.inl ⟨x, rfl⟩) rfl (by decide) }
  | setLfoRate x => exact { same with lfoRate := .clamped ⟨x, rfl⟩ rfl (by decide) }
  | setLfoDepth x => exact { same with lfoDepth := .clamped ⟨x, rfl⟩ rfl (by decide) }
  | setMix x => exact { same with mix := .clamped (.inl ⟨x, rfl⟩) rfl (by decide) }
  | knobTempo k => exact { same with tempoKnob := .clamped ⟨k, rfl⟩ rfl (by decide) }
  | knobVolume k => exact { same with volume := .clamped ⟨k, rfl⟩ rfl (by decide) }
  | knobDelay k => exact { same with delayTime := .clamped (.inr ⟨k, rfl⟩) rfl (by decide) }
  | knobFeedback k => exact { same with feedback := .clamped (.inr ⟨k, rfl⟩) rfl (by decide) }
  | encMix n m s hm => exact { same with mix := .clamped (.inr ⟨⟨n, rfl⟩, hm⟩) rfl (by decide) }
  | buttonTrigger _ _ p v => exact { trigger_parameterRows _ v { s with btnPrev := p } with }
  | trigger _ v => exact { trigger_parameterRows _ v s with }
  | reset => exact ⟨.inr (.inr ⟨rfl, rfl⟩), .inr (.inr ⟨rfl, rfl⟩), .inr (.inr ⟨rfl, rfl⟩), .inr (.inr ⟨rfl, rfl⟩),
      .inr (.inr ⟨rfl, rfl⟩), .inr (.inr ⟨rfl, rfl⟩), .inr (.inr ⟨rfl, rfl⟩)⟩
  | _ => exact { same with }

/-- Settles O16: its table is `ParameterRows`. -/
theorem parametersWrittenOnlyByTheirCommands : Obligations.ParametersWrittenOnlyByTheirCommands := by
  intro i s t h
  have rows := (exec_effect h).parameterRows
  exact ⟨rows.delayTime, rows.feedback, rows.lfoRate, rows.lfoDepth, rows.mix, rows.tempoKnob, rows.volume⟩

end Sys2Proof.Laws

/-! The decoder on READ_PARAM's word (spec 10_state.md R118; 30_encoding.md R305). -/

namespace Sys2Proof.Laws

open Sys2Proof.Machine Sys2Proof.Safety

/-- READ_PARAM's word has the opcode 0x51, the register number as ARG and no reserved bit set (R301). -/
theorem readParam_word_fields (n : BitVec 8) :
    Operand.opc (0x51000000#32 ||| BitVec.ofNat 32 n.toNat <<< 16) = 0x51#8 ∧
    Operand.arg (0x51000000#32 ||| BitVec.ofNat 32 n.toNat <<< 16) = n ∧
    (0x51000000#32 ||| BitVec.ofNat 32 n.toNat <<< 16) &&& 0xFF00FFFF#32 = 0x51000000#32 := by
  revert n
  decide +kernel

/-- The decoder on a command word whose opcode is READ_PARAM's and whose reserved bits are 0 (R305). -/
theorem decode_of_readParam_fields {cmd : Word} (hopc : Operand.opc cmd = 0x51#8)
    (hmask : cmd &&& 0xFF00FFFF#32 = 0x51000000#32) (data : Word) :
    decode cmd data =
      if Operand.regOk (Operand.arg cmd) then .ok (.readParam (Operand.arg cmd)) else .error .argRange := by
  have hrow : opTable.find? (fun r => r.opc == 0x51#8) =
      some (argRow 0x51#8 0x51000000#32 Operand.regOk fun a _ => .readParam a) := rfl
  simp only [decode, hopc, hrow, argRow, hmask, ne_eq, not_true_eq_false, if_false]

/-- R118's list, the offsets 0xD to 0xF of the four voice blocks written out. -/
theorem regReserved_iff (n : BitVec 8) : Operand.regReserved n = true ↔
    n.toNat = 0x0E ∨ n.toNat = 0x0F ∨ (0x15 ≤ n.toNat ∧ n.toNat ≤ 0x1F) ∨ (0x2D ≤ n.toNat ∧ n.toNat ≤ 0x2F) ∨
      (0x3D ≤ n.toNat ∧ n.toNat ≤ 0x3F) ∨ (0x4D ≤ n.toNat ∧ n.toNat ≤ 0x4F) ∨ (0x5D ≤ n.toNat ∧ n.toNat ≤ 0x5F) ∨
      0x6A ≤ n.toNat := by
  simp only [Operand.regReserved, Bool.or_eq_true, Bool.and_eq_true, decide_eq_true_eq]
  omega

/-- Settles O54, by the decoder's range check on READ_PARAM's row. -/
theorem reservedRegistersAreArgRange : Obligations.ReservedRegistersAreArgRange := by
  intro n data
  obtain ⟨hopc, harg, hmask⟩ := readParam_word_fields n
  simp only [decode_of_readParam_fields hopc hmask, harg, ← regReserved_iff, Operand.regOk]
  by_cases hr : Operand.regReserved n = true <;> simp [hr]

end Sys2Proof.Laws

/-! Ranges that the arithmetic keeps: phases in [0, 1), envelope increments and levels in [0, 1] (spec 10_state.md R119, R120;
42_drum_voices.md R502, R503, R505). -/

namespace Sys2Proof.Laws

open Sys2Proof.Machine Sys2Proof.Safety
open Sys2Proof.F32 hiding min lt

theorem units_configZero : units Config.zero = 0 := by decide

theorem units_configOne_pos : 0 < units Config.one := by decide +kernel

/-- Below a positive representable value there is nothing above its predecessor. -/
theorem le_pred_of_lt {x : F32} {m : Nat} (hm : m < infBits) (h : F32.lt x (ofBits false (m + 1)) = true) :
    F32.le x (ofBits false m) = true := by
  have h31 : infBits < 2 ^ 31 := by decide
  obtain ⟨hx, -, hu⟩ := (f32_lt_iff _ _).1 h
  obtain ⟨k, hk, e⟩ := exists_ofBits hx
  refine (f32_le_iff _ _).2 ⟨hx, not_nan_ofBits false (by omega), ?_⟩
  rw [e, units_ofBits _ (by omega), units_ofBits _ (by omega)] at hu ⊢
  cases hs : sign x <;> simp only [hs, sval, if_true, Bool.false_eq_true, if_false] at hu ⊢
  · have hlt : magN k < magN (m + 1) := by exact_mod_cast hu
    exact_mod_cast magN_le_iff.2 (Nat.le_of_lt_succ (magN_lt_iff.1 hlt))
  · omega

theorem f32_lt_of_le_of_lt {x y z : F32} (h₁ : F32.le x y = true) (h₂ : F32.lt y z = true) : F32.lt x z = true := by
  obtain ⟨hx, -, hxy⟩ := (f32_le_iff _ _).1 h₁
  obtain ⟨-, hz, hyz⟩ := (f32_lt_iff _ _).1 h₂
  exact (f32_lt_iff _ _).2 ⟨hx, hz, by omega⟩

theorem f32_lt_of_not_ge {x y : F32} (hx : isNaN x = false) (hy : isNaN y = false) (h : ¬ F32.ge x y = true) :
    F32.lt x y = true := by
  refine (f32_lt_iff _ _).2 ⟨hx, hy, ?_⟩
  by_contra hc
  exact h ((f32_ge_iff x y).2 ⟨hx, hy, by omega⟩)

theorem f32_le_of_lt {x y : F32} (h : F32.lt x y = true) : F32.le x y = true := by
  obtain ⟨hx, hy, hu⟩ := (f32_lt_iff _ _).1 h
  exact (f32_le_iff _ _).2 ⟨hx, hy, hu.le⟩

theorem zero_between : Between Config.zero Config.one Config.zero := by decide

theorem one_between : Between Config.zero Config.one Config.one := by decide

/-- A value in [0, hi] is finite and its units are in [0, hi]'s. -/
theorem between_zero_units {x hi : F32} (hh : isFinite hi = true) (h : Between Config.zero hi x) :
    isFinite x = true ∧ 0 ≤ units x ∧ units x ≤ units hi := by
  obtain ⟨h0, h1⟩ := h
  obtain ⟨-, -, hu0⟩ := (f32_le_iff _ _).1 h0
  obtain ⟨-, -, hu1⟩ := (f32_le_iff _ _).1 h1
  exact ⟨finite_of_between h0 h1 (by decide) hh, units_configZero ▸ hu0, hu1⟩

/-- A phase is at most 1 - 2^-24, the predecessor of 1.0. -/
theorem phaseOk_between {p : F32} (h : PhaseOk p) : Between Config.zero 0x3F7FFFFF#32 p :=
  ⟨h.1, le_pred_of_lt (m := 0x3F7FFFFF) (by decide) h.2⟩

/-- The advance of a phase stays in [0, 1) (R120): the sum is at most 2 - 2^-23, so one subtraction of 1.0 brings it back. -/
theorem phaseNext_ok (nu : NanRule) {p c : F32} (hp : PhaseOk p) (hc : PhaseOk c) : PhaseOk (phaseNext nu p c) := by
  obtain ⟨hpf, hp0, hp1⟩ := between_zero_units (by decide) (phaseOk_between hp)
  obtain ⟨hcf, hc0, hc1⟩ := between_zero_units (by decide) (phaseOk_between hc)
  have hmax : units 0x3F7FFFFF#32 + units 0x3F7FFFFF#32 = units 0x3FFFFFFF#32 := by decide +kernel
  have hsum : Between Config.zero 0x3FFFFFFF#32 (F32.add nu p c) :=
    ⟨f32_le_add hpf hcf (by decide) (by rw [units_configZero]; omega), f32_add_le hpf hcf (by decide) (by omega)⟩
  obtain ⟨hsf, -, hs1⟩ := between_zero_units (by decide) hsum
  by_cases hge : F32.ge (F32.add nu p c) Config.one = true
  · obtain ⟨-, -, hle⟩ := (f32_ge_iff _ _).1 hge
    have hdiff : units 0x3FFFFFFF#32 - units Config.one = units 0x3F7FFFFE#32 := by decide +kernel
    simp only [phaseNext, hge, if_true]
    exact ⟨f32_le_sub hsf (by decide) (by decide) (by rw [units_configZero]; omega), f32_lt_of_le_of_lt
      (f32_sub_le (c := 0x3F7FFFFE#32) hsf (by decide) (by decide) (by omega)) (by decide +kernel)⟩
  · simp only [phaseNext, hge]
    exact ⟨hsum.1, f32_lt_of_not_ge ((f32_le_iff _ _).1 hsum.1).2.1 (by decide) hge⟩

/-- A frequency in [0, FS) advances a phase by an increment in [0, 1). -/
theorem phaseIncOf_ok {f : F32} (h₀ : F32.le Config.zero f = true) (h₁ : F32.lt f (fsF Config.cfg) = true) :
    PhaseOk (phaseIncOf Config.cfg f) := by
  have hfs : fsF Config.cfg = ofBits false (0x473B7FFF + 1) := by decide +kernel
  have hbetween : Between Config.zero 0x473B7FFF#32 f := ⟨h₀, le_pred_of_lt (by decide) (hfs ▸ h₁)⟩
  obtain ⟨hfin, hu0, hu1⟩ := between_zero_units (by decide) hbetween
  have hmax : units 0x473B7FFF#32 * 2 ^ 149 ≤ units 0x3F7FFFFF#32 * units 0x473B8000#32 := by decide +kernel
  have hpos : 0 < units 0x473B8000#32 := by decide +kernel
  have hdef : phaseIncOf Config.cfg f = F32.div (setupNan Config.cfg) f 0x473B8000#32 := by rw [phaseIncOf, hfs]; rfl
  rw [hdef]
  refine ⟨f32_le_div hfin (by decide) hpos (by decide) ?_, f32_lt_of_le_of_lt
    (f32_div_le (c := 0x3F7FFFFF#32) hfin (by decide) hpos (by decide) ?_) (by decide +kernel)⟩
  · rw [units_configZero, Int.zero_mul]
    exact Int.mul_nonneg hu0 (by decide)
  · exact Int.le_trans (Int.mul_le_mul_of_nonneg_right hu1 (by decide)) hmax

/-- 1 / x is in [0, 1] for x above 1.0, infinity included. -/
theorem one_div_between {nu : NanRule} {x : F32} (h : F32.gt x Config.one = true) :
    Between Config.zero Config.one (F32.div nu Config.one x) := by
  obtain ⟨hx, -, hlt⟩ := (f32_gt_iff _ _).1 h
  have hone := units_configOne_pos
  cases hinf : isInf x with
  | true =>
    have hdiv : F32.div nu Config.one x = ofBits (sign Config.one != sign x) 0 := by
      simp [F32.div, hx, hinf, show isNaN Config.one = false by decide, show isInf Config.one = false by decide]
    rw [hdiv]
    cases sign Config.one != sign x <;> decide
  | false =>
    have hfin : isFinite x = true := (isFinite_iff x).2 ⟨hx, hinf⟩
    have hunit : units Config.one = 2 ^ 149 := by decide +kernel
    refine ⟨f32_le_div (by decide) hfin (by omega) (by decide) ?_, f32_div_le (by decide) hfin (by omega) (by decide) ?_⟩
    · rw [units_configZero, Int.zero_mul]
      exact Int.mul_nonneg hone.le (by decide)
    · rw [← hunit]
      exact Int.mul_le_mul_of_nonneg_left hlt.le hone.le

/-- EnvInc answers a value in [0, 1] for every time (R503). -/
theorem envInc_between (cfg : Cfg) (t : F32) : Between Config.zero Config.one (envInc cfg t) := by
  by_cases h : F32.gt (F32.mul (setupNan cfg) t (fsF cfg)) Config.one = true
  · simp only [envInc, h, if_true]
    exact one_div_between h
  · simp only [envInc, h]
    exact one_between

/-- EnvStep keeps the level in [0, 1] (R502, R119). -/
theorem envelope_next_level (nu : NanRule) {e : Envelope} (hl : Between Config.zero Config.one e.level)
    (ha : Between Config.zero Config.one e.ainc) (hd : Between Config.zero Config.one e.dinc) :
    Between Config.zero Config.one (e.next nu).level := by
  obtain ⟨hlf, hl0, hl1⟩ := between_zero_units (by decide) hl
  obtain ⟨haf, ha0, ha1⟩ := between_zero_units (by decide) ha
  obtain ⟨hdf, hd0, hd1⟩ := between_zero_units (by decide) hd
  rcases envelope_next_cases nu e with ⟨-, h⟩ | ⟨-, -, h⟩ | ⟨-, hge, h⟩ | ⟨-, -, h⟩ | ⟨-, hle, h⟩ <;> rw [h]
  · exact hl
  · exact one_between
  · have h0 : F32.le Config.zero (F32.add nu e.level e.ainc) = true :=
      f32_le_add hlf haf (by decide) (by rw [units_configZero]; omega)
    obtain ⟨-, hn, -⟩ := (f32_le_iff _ _).1 h0
    exact ⟨h0, f32_le_of_lt (f32_lt_of_not_ge hn (by decide) (Bool.eq_false_iff.1 hge))⟩
  · exact zero_between
  · have h1 : F32.le (F32.sub nu e.level e.dinc) Config.one = true := f32_sub_le hlf hdf (by decide) (by omega)
    obtain ⟨hn, -, -⟩ := (f32_le_iff _ _).1 h1
    exact ⟨f32_le_of_lt (f32_lt_of_not_ge (by decide) hn (Bool.eq_false_iff.1 hle)), h1⟩

end Sys2Proof.Laws

/-! Every step keeps the invariants (spec 10_state.md R119): each part of `Good` over the effects, then the step. -/

namespace Sys2Proof.Laws

open Sys2Proof.Machine Sys2Proof.Safety

/-- The invariants at reset (R1000 to R1002); a RESET leaves the same registers. -/
theorem reset_good : Good State.reset where
  structureOk := ⟨reset_dbuf_wf, by decide, by decide, by decide, by decide, by decide, by decide, by decide⟩
  parametersOk := ⟨by decide, by decide, by decide, by decide, by decide, by decide, by decide⟩
  derivedOk := ⟨rfl, rfl, rfl⟩
  voicesTuned := ⟨⟨rfl, rfl, rfl, rfl⟩, ⟨rfl, rfl, rfl, rfl, rfl, rfl, rfl⟩, ⟨rfl, rfl, rfl, rfl, rfl, rfl, rfl⟩,
    ⟨rfl, rfl, rfl, rfl⟩⟩
  levelsOk := ⟨zero_between, zero_between, zero_between, zero_between⟩
  phasesOk := ⟨by decide, by decide, by decide⟩

/-! Structure. -/

/-- NoiseStep never reaches 0 (R509): a set low bit brings bit 31 in, a clear one leaves another bit to shift. -/
theorem noiseNext_ne_zero {l : Word} (h : l ≠ 0#32) : noiseNext l ≠ 0#32 := by
  unfold noiseNext
  split
  · intro hx
    have hmsb : ((l >>> 1) ^^^ 0x80200003#32).getLsbD 31 = true := by simp
    rw [hx] at hmsb
    cases hmsb
  · next hb =>
    intro hx
    have hlow : l.toNat % 2 = 0 := by simpa [BitVec.getLsbD, Nat.testBit_zero] using hb
    have hshift : l.toNat / 2 = 0 := by
      simpa [BitVec.toNat_ushiftRight, Nat.shiftRight_eq_div_pow] using congrArg BitVec.toNat hx
    exact h (BitVec.eq_of_toNat_eq (by simp; omega))

/-- The reserved bits of an ERRINFO word are 0 (R110). -/
theorem errInfoWord_reserved (c : ErrCause) (cmd : Word) : errInfoWord c cmd >>> 24 = 0#32 := by
  have hc : ErrCause.code c >>> 24 = 0#32 := by cases c <;> decide
  have ho : ((Operand.opc cmd).setWidth 32 <<< 8) >>> 24 = 0#32 := by
    generalize Operand.opc cmd = b
    revert b; decide
  have ha : ((Operand.arg cmd).setWidth 32 <<< 16) >>> 24 = 0#32 := by
    generalize Operand.arg cmd = b
    revert b; decide
  simp only [errInfoWord, BitVec.ushiftRight_or_distrib, hc, ho, ha, BitVec.or_self]

/-- WRITE_CTRL leaves the reserved bits of CTRL 0 (R107). -/
theorem ctrlMask_reserved (u : Word) : (u &&& ctrlMask) >>> 1 = 0#32 := by
  rw [BitVec.ushiftRight_and_distrib]
  simp [ctrlMask]

/-- STEP goes back to 0 where it would reach PATTERN_LEN (R603). -/
theorem clockStep_stepIdx_lt {nu : NanRule} {s : State} (h : s.stepIdx < Config.cfg.patternLen) :
    (clockStep Config.cfg nu s).stepIdx < Config.cfg.patternLen := by
  rw [clockStep_stepIdx]
  split
  · decide
  · next hend =>
    split
    · next hf =>
      have hne : s.stepIdx + 1 ≠ Config.cfg.patternLen := by simpa [patternEnds, hf] using hend
      omega
    · exact h

theorem takeError_structureOk (c : ErrCause) (cmd : Word) {s : State} (h : StructureOk s) :
    StructureOk (takeError c cmd s) :=
  { h with
    errInfo_reserved := by
      show (if s.err then s.errInfo else errInfoWord c cmd) >>> 24 = 0#32
      split
      · exact h.errInfo_reserved
      · exact errInfoWord_reserved c cmd
    ovf_err := fun _ => rfl }

theorem trigger_structureOk (v : Voice) {s : State} (h : StructureOk s) : StructureOk (trigger v s) := by
  cases v <;> exact { h with }

theorem sampleStep_structureOk (x : F32) {s : State} (h : StructureOk s) :
    StructureOk (sampleStep Config.cfg x s) where
  dbuf_wf := by
    rw [sampleStep_dbuf, delayProcess_dbuf, voicesStep_dbuf, clockStep_dbuf]
    exact mem_write_wf _ _ h.dbuf_wf
  dbuf_lt := by
    rw [sampleStep_dbuf, delayProcess_dbuf, voicesStep_dbuf, clockStep_dbuf]
    intro c hc
    rcases mem_write_entry hc with ⟨rfl, -⟩ | hc
    · exact Nat.mod_lt _ (by decide)
    · exact h.dbuf_lt c hc
  writeIndex_lt := by
    rw [sampleStep_writeIndex]
    exact Nat.mod_lt _ (by decide)
  stepIdx_lt := by
    rw [sampleStep_stepIdx]
    exact clockStep_stepIdx_lt h.stepIdx_lt
  lfsr_ne := by
    rw [sampleStep_lfsr]
    exact noiseNext_ne_zero h.lfsr_ne
  ctrl_reserved := by rw [sampleStep_ctrl]; exact h.ctrl_reserved
  errInfo_reserved := by rw [sampleStep_errInfo]; exact h.errInfo_reserved
  ovf_err := by rw [sampleStep_ovf, sampleStep_err]; exact h.ovf_err

theorem Effect.structureOk {i : Instr} {s t : State} (e : Effect i s t) (h : StructureOk s) : StructureOk t := by
  cases e with
  | sample x => exact sampleStep_structureOk x h
  | buttonToggle | buttonPlay => exact { h with stepIdx_lt := by show 0 < _; decide }
  | buttonTrigger _ _ p v => exact { trigger_structureOk v (s := { s with btnPrev := p }) { h with } with }
  | trigger _ v => exact { trigger_structureOk v h with }
  | readStatus => exact { h with ovf_err := fun ho => ho }
  | writeCtrl u => exact { h with ctrl_reserved := ctrlMask_reserved u }
  | reset => exact { reset_good.structureOk with }
  | argRange => exact takeError_structureOk _ _ h
  | _ => exact { h with }

/-! Parameters and derived registers. -/

theorem Effect.parametersOk {i : Instr} {s t : State} (e : Effect i s t) (h : ParametersOk s) : ParametersOk t where
  delayTime := e.parameterRows.delayTime.between h.delayTime (by decide)
  feedback := e.parameterRows.feedback.between h.feedback (by decide)
  lfoRate := e.parameterRows.lfoRate.between h.lfoRate (by decide)
  lfoDepth := e.parameterRows.lfoDepth.between h.lfoDepth (by decide)
  mix := e.parameterRows.mix.between h.mix (by decide)
  tempoKnob := e.parameterRows.tempoKnob.between h.tempoKnob (by decide)
  volume := e.parameterRows.volume.between h.volume (by decide)

theorem trigger_derivedOk (v : Voice) {s : State} (h : DerivedOk s) : DerivedOk (trigger v s) := by
  cases v <;> exact { h with }

theorem sampleStep_derivedOk (x : F32) {s : State} (h : DerivedOk s) : DerivedOk (sampleStep Config.cfg x s) where
  bpm := by rw [sampleStep_bpm, sampleStep_tempoKnob]; exact h.bpm
  baseDelay := by rw [sampleStep_baseDelay, sampleStep_delayTime]; exact h.baseDelay
  lfoInc := by rw [sampleStep_lfoInc, sampleStep_lfoRate]; exact h.lfoInc

theorem Effect.derivedOk {i : Instr} {s t : State} (e : Effect i s t) (h : DerivedOk s) : DerivedOk t := by
  cases e with
  | sample x => exact sampleStep_derivedOk x h
  | setDelayTime | knobDelay => exact { h with baseDelay := rfl }
  | setLfoRate => exact { h with lfoInc := rfl }
  | knobTempo => exact { h with bpm := rfl }
  | buttonTrigger _ _ p v => exact { trigger_derivedOk v (s := { s with btnPrev := p }) { h with } with }
  | trigger _ v => exact { trigger_derivedOk v h with }
  | reset => exact { reset_good.derivedOk with }
  | _ => exact { h with }

/-! Voice parameters. -/

theorem trigger_voicesTuned (v : Voice) {s : State} (h : VoicesTuned s) : VoicesTuned (trigger v s) := by
  cases v with
  | kick => exact { h with kick := { h.kick with } }
  | snare => exact { h with snare := { h.snare with } }
  | hat => exact { h with hat := { h.hat with } }
  | click => exact { h with click := { h.click with } }

/-- What a SAMPLE does to a kick or click, a trigger or none and one advance, leaves its parameters alone. -/
theorem oscTuned_advance {attack decay freq : F32} {v : OscVoice} (nu : NanRule) (b : Bool)
    (h : OscTuned attack decay freq v) :
    OscTuned attack decay freq (OscVoice.next nu { v with env := v.env.triggerIf b }) where
  ainc := by simpa using h.ainc
  dinc := by simpa using h.dinc
  freq_eq := h.freq_eq
  inc := h.inc

theorem filterTuned_advance {attack decay freq res : F32} {v : FilterVoice} (nu : NanRule) (b : Bool) (n : F32)
    (h : FilterTuned attack decay freq res v) :
    FilterTuned attack decay freq res (FilterVoice.next nu n { v with env := v.env.triggerIf b }) :=
  { h with
    ainc := by simpa using h.ainc
    dinc := by simpa using h.dinc }

theorem sampleStep_voicesTuned (x : F32) {s : State} (h : VoicesTuned s) :
    VoicesTuned (sampleStep Config.cfg x s) where
  kick := by rw [sampleStep_drumset, sampleStep_kick, clockStep_kick]; exact oscTuned_advance _ _ h.kick
  snare := by rw [sampleStep_drumset, sampleStep_snare, clockStep_snare]; exact filterTuned_advance _ _ _ h.snare
  hat := by rw [sampleStep_drumset, sampleStep_hat, clockStep_hat]; exact filterTuned_advance _ _ _ h.hat
  click := by rw [sampleStep_click, clockStep_click]; exact oscTuned_advance _ _ h.click

theorem oscTuned_load {attack decay freq : F32} {v : OscVoice} (f d : F32) (h : OscTuned attack decay freq v) :
    OscTuned attack d f (v.load Config.cfg f d) where
  ainc := h.ainc
  dinc := rfl
  freq_eq := rfl
  inc := rfl

theorem filterTuned_load {attack decay freq res : F32} {v : FilterVoice} (f d : F32)
    (h : FilterTuned attack decay freq res v) : FilterTuned attack d f res (v.load Config.cfg f d) where
  ainc := h.ainc
  dinc := rfl
  freq_eq := rfl
  k := h.k
  a1 := by rw [filter_load_a1, h.k]
  a2 := by rw [filter_load_a2, h.k]
  a3 := by rw [filter_load_a3, h.k]

theorem selectDrumSet_voicesTuned (j : Fin 6) {s : State} (h : VoicesTuned s) :
    VoicesTuned (selectDrumSet Config.cfg j s) where
  kick := oscTuned_load _ _ h.kick
  snare := filterTuned_load _ _ h.snare
  hat := filterTuned_load _ _ h.hat
  click := h.click

theorem Effect.voicesTuned {i : Instr} {s t : State} (e : Effect i s t) (h : VoicesTuned s) : VoicesTuned t := by
  cases e with
  | sample x => exact sampleStep_voicesTuned x h
  | encDrumset _ j | setDrumset _ j => exact { selectDrumSet_voicesTuned j h with }
  | buttonTrigger _ _ p v => exact { trigger_voicesTuned v (s := { s with btnPrev := p }) { h with } with }
  | trigger _ v => exact { trigger_voicesTuned v h with }
  | reset => exact { reset_good.voicesTuned with }
  | _ => exact { h with }

/-! Envelope levels. -/

theorem trigger_levelsOk (v : Voice) {s : State} (h : LevelsOk s) : LevelsOk (trigger v s) := by
  cases v with
  | kick => exact { h with kick := zero_between }
  | snare => exact { h with snare := zero_between }
  | hat => exact { h with hat := zero_between }
  | click => exact { h with click := zero_between }

/-- A trigger or none, then EnvStep, of an envelope whose increments EnvInc gave. -/
theorem triggerIf_next_level (nu : NanRule) (b : Bool) {e : Envelope} {attack decay : F32}
    (hl : Between Config.zero Config.one e.level) (ha : e.ainc = envInc Config.cfg attack)
    (hd : e.dinc = envInc Config.cfg decay) : Between Config.zero Config.one ((e.triggerIf b).next nu).level := by
  refine envelope_next_level nu ?_ ?_ ?_
  · cases b
    · exact hl
    · exact zero_between
  · rw [triggerIf_ainc, ha]; exact envInc_between _ _
  · rw [triggerIf_dinc, hd]; exact envInc_between _ _

theorem sampleStep_levelsOk (x : F32) {s : State} (hv : VoicesTuned s) (h : LevelsOk s) :
    LevelsOk (sampleStep Config.cfg x s) where
  kick := by
    rw [sampleStep_kick, clockStep_kick, osc_next_env]
    exact triggerIf_next_level _ _ h.kick hv.kick.ainc hv.kick.dinc
  snare := by
    rw [sampleStep_snare, clockStep_snare, filter_next_env]
    exact triggerIf_next_level _ _ h.snare hv.snare.ainc hv.snare.dinc
  hat := by
    rw [sampleStep_hat, clockStep_hat, filter_next_env]
    exact triggerIf_next_level _ _ h.hat hv.hat.ainc hv.hat.dinc
  click := by
    rw [sampleStep_click, clockStep_click, osc_next_env]
    exact triggerIf_next_level _ _ h.click hv.click.ainc hv.click.dinc

theorem Effect.levelsOk {i : Instr} {s t : State} (e : Effect i s t) (hv : VoicesTuned s) (h : LevelsOk s) :
    LevelsOk t := by
  cases e with
  | sample x => exact sampleStep_levelsOk x hv h
  | buttonTrigger _ _ p v => exact { trigger_levelsOk v (s := { s with btnPrev := p }) { h with } with }
  | trigger _ v => exact { trigger_levelsOk v h with }
  | reset => exact { reset_good.levelsOk with }
  | _ => exact { h with }

/-! Phases. -/

theorem trigger_phasesOk (v : Voice) {s : State} (h : PhasesOk s) : PhasesOk (trigger v s) := by
  cases v <;> exact { h with }

/-- LFO_INC is in [0, 1), since LFO_RATE is at most 10 Hz (R120). -/
theorem lfoInc_ok {s : State} (hp : ParametersOk s) (hd : DerivedOk s) : PhaseOk s.lfoInc := by
  rw [hd.lfoInc]
  exact phaseIncOf_ok (f32_le_trans (by decide) hp.lfoRate.1) (f32_lt_of_le_of_lt hp.lfoRate.2 (by decide +kernel))

/-- Every kick frequency of DRUMSET_TABLE is in (0, FS), whatever the free rows are (92_eei_decisions.md D22). -/
theorem drumset_kickF (i : Fin 6) : F32.lt Config.zero (Config.cfg.drumset i).kickF = true ∧
    F32.lt (Config.cfg.drumset i).kickF (fsF Config.cfg) = true := by
  have h := drumset_legal i
  simp only [DrumRow.legal, Bool.and_eq_true] at h
  obtain ⟨⟨⟨⟨⟨⟨⟨⟨h0, h1⟩, -⟩, -⟩, -⟩, -⟩, -⟩, -⟩, -⟩ := h
  exact ⟨h0, h1⟩

theorem kickInc_ok {s : State} (h : VoicesTuned s) : PhaseOk s.kick.inc := by
  obtain ⟨h0, h1⟩ := drumset_kickF s.drumset
  rw [h.kick.inc]
  exact phaseIncOf_ok (f32_le_of_lt h0) h1

theorem clickInc_ok {s : State} (h : VoicesTuned s) : PhaseOk s.click.inc := by
  rw [h.click.inc]
  exact phaseIncOf_ok (by decide) (by decide +kernel)

theorem sampleStep_phasesOk (x : F32) {s : State} (hp : ParametersOk s) (hd : DerivedOk s) (hv : VoicesTuned s)
    (h : PhasesOk s) : PhasesOk (sampleStep Config.cfg x s) where
  lfo := by rw [sampleStep_lfoPhase]; exact phaseNext_ok _ h.lfo (lfoInc_ok hp hd)
  kick := by rw [sampleStep_kick, clockStep_kick, osc_next_phase]; exact phaseNext_ok _ h.kick (kickInc_ok hv)
  click := by rw [sampleStep_click, clockStep_click, osc_next_phase]; exact phaseNext_ok _ h.click (clickInc_ok hv)

theorem Effect.phasesOk {i : Instr} {s t : State} (e : Effect i s t) (hp : ParametersOk s) (hd : DerivedOk s)
    (hv : VoicesTuned s) (h : PhasesOk s) : PhasesOk t := by
  cases e with
  | sample x => exact sampleStep_phasesOk x hp hd hv h
  | buttonTrigger _ _ p v => exact { trigger_phasesOk v (s := { s with btnPrev := p }) { h with } with }
  | trigger _ v => exact { trigger_phasesOk v h with }
  | reset => exact { reset_good.phasesOk with }
  | _ => exact { h with }

/-! The step. -/

theorem Effect.good {i : Instr} {s t : State} (e : Effect i s t) (h : Good s) : Good t where
  structureOk := e.structureOk h.structureOk
  parametersOk := e.parametersOk h.parametersOk
  derivedOk := e.derivedOk h.derivedOk
  voicesTuned := e.voicesTuned h.voicesTuned
  levelsOk := e.levelsOk h.voicesTuned h.levelsOk
  phasesOk := e.phasesOk h.parametersOk h.derivedOk h.voicesTuned h.phasesOk

/-- `Good` says nothing of the commands presented. -/
theorem good_of_inbox (cs : List Command) {s : State} (h : Good s) : Good { s with inbox := cs } where
  structureOk := { h.structureOk with }
  parametersOk := { h.parametersOk with }
  derivedOk := { h.derivedOk with }
  voicesTuned := { h.voicesTuned with }
  levelsOk := { h.levelsOk with }
  phasesOk := { h.phasesOk with }

theorem takeError_good (c : ErrCause) (cmd : Word) {s : State} (h : Good s) : Good (takeError c cmd s) where
  structureOk := takeError_structureOk c cmd h.structureOk
  parametersOk := { h.parametersOk with }
  derivedOk := { h.derivedOk with }
  voicesTuned := { h.voicesTuned with }
  levelsOk := { h.levelsOk with }
  phasesOk := { h.phasesOk with }

/-- Settles O21: a step holds, records a CommandError, or has an effect of its command, and each keeps `Good`. -/
theorem stepKeepsGood : Obligations.StepKeepsGood := by
  intro s t h hst
  rcases step_cases s with ⟨-, hs⟩ | ⟨c, rest, -, ⟨e, -, hs⟩ | ⟨i, -, hs⟩⟩
  · cases hs.symm.trans hst
    exact h
  · cases hs.symm.trans hst
    exact takeError_good e c.cmd (good_of_inbox rest h)
  · exact (exec_effect (hs.symm.trans hst)).good (good_of_inbox rest h)

end Sys2Proof.Laws

/-! The decoder, one equation per outcome (spec 30_encoding.md R305), and what it reads of the operand word (R309). -/

namespace Sys2Proof.Laws

/-- The row of the opcode map that has the command word's opcode (R306). -/
def rowOf (cmd : Word) : Option OpRow := opTable.find? fun r => r.opc == Operand.opc cmd

theorem rowOf_eq_some {cmd : Word} {r : OpRow} (h : rowOf cmd = some r) : r ∈ opTable ∧ r.opc = Operand.opc cmd :=
  ⟨List.mem_of_find?_eq_some h, by simpa using List.find?_some h⟩

theorem decode_of_no_row {cmd : Word} (hrow : rowOf cmd = none) (data : Word) :
    decode cmd data = .error .illegalOpcode := by
  rw [rowOf] at hrow
  simp only [decode, hrow]

section Row

variable {cmd : Word} {r : OpRow}

theorem decode_of_mask_ne (hrow : rowOf cmd = some r) (hmask : cmd &&& r.mask ≠ r.matchBits) (data : Word) :
    decode cmd data = .error .reservedBits := by
  rw [rowOf] at hrow
  simp only [decode, hrow, if_pos hmask]

theorem decode_of_arg_out_of_range (hrow : rowOf cmd = some r) (hmask : cmd &&& r.mask = r.matchBits)
    (harg : r.argOk (Operand.arg cmd) = false) (data : Word) : decode cmd data = .error .argRange := by
  rw [rowOf] at hrow
  simp [decode, hrow, hmask, harg]

theorem decode_of_row (hrow : rowOf cmd = some r) (hmask : cmd &&& r.mask = r.matchBits)
    (harg : r.argOk (Operand.arg cmd) = true) {data : Word} {i : Instr} (hbuild : r.build (Operand.arg cmd) data = i) :
    decode cmd data = .ok i := by
  rw [rowOf] at hrow
  simp [decode, hrow, hmask, harg, hbuild]

end Row

/-- The command word alone decides between an error and a row of the opcode map; the operand word only goes into the
operands that the row assembles. -/
theorem decode_cases (cmd : Word) :
    (∃ e, ∀ data, decode cmd data = .error e) ∨
    ∃ r ∈ opTable, r.opc = Operand.opc cmd ∧
      ∀ data, decode cmd data = .ok (r.build (Operand.arg cmd) data) := by
  rcases hrow : rowOf cmd with _ | r
  · exact .inl ⟨_, decode_of_no_row hrow⟩
  · by_cases hmask : cmd &&& r.mask = r.matchBits
    · cases harg : r.argOk (Operand.arg cmd) with
      | false => exact .inl ⟨_, decode_of_arg_out_of_range hrow hmask harg⟩
      | true =>
        obtain ⟨hmem, hopc⟩ := rowOf_eq_some hrow
        exact .inr ⟨r, hmem, hopc, fun _ => decode_of_row hrow hmask harg rfl⟩
    · exact .inl ⟨_, decode_of_mask_ne hrow hmask⟩

/-- Two operand words of which the opcode's row assembles the same command decode alike. -/
theorem decode_congr {cmd d d' : Word}
    (h : ∀ r ∈ opTable, r.opc = Operand.opc cmd → r.build (Operand.arg cmd) d = r.build (Operand.arg cmd) d') :
    decode cmd d = decode cmd d' := by
  rcases decode_cases cmd with ⟨e, he⟩ | ⟨r, hmem, hopc, hr⟩
  · rw [he, he]
  · rw [hr, hr, h r hmem hopc]

/-- The rows of formats F0 and FA assemble no operand from `data` (R303). -/
theorem build_f0_fa : ∀ r ∈ opTable, r.opc ∈ [0x00#8, 0x50#8, 0xFF#8, 0x40#8, 0x41#8, 0x51#8] →
    ∀ a d d', r.build a d = r.build a d' := by
  simp [opTable, plainRow, argRow]

/-- The row of format FAB assembles its level from `data[0]` (R303). -/
theorem build_fab : ∀ r ∈ opTable, r.opc = 0x31#8 → ∀ a d, r.build a d = .button a (d.getLsbD 0) := by
  simp [opTable, plainRow, argRow, Operand.level]

theorem decode_error_of_error {cmd d : Word} {e : ErrCause} (h : decode cmd d = .error e) (d' : Word) :
    decode cmd d' = .error e := by
  rcases decode_cases cmd with ⟨e', he⟩ | ⟨r, -, -, hr⟩
  · rw [he, ← he d, h]
  · cases (hr d).symm.trans h

/-- Settles O3, from the rows that each format has in the opcode map. -/
theorem unusedDataBitsAreIgnored : Obligations.UnusedDataBitsAreIgnored := by
  intro cmd d d'
  refine ⟨fun hopc => decode_congr fun r hmem hr => ?f0_fa, fun hopc hbit => decode_congr fun r hmem hr => ?fab,
    fun e => ⟨fun h => decode_error_of_error h d', fun h => decode_error_of_error h d⟩⟩
  case f0_fa => exact build_f0_fa r hmem (hr ▸ hopc) _ d d'
  case fab => rw [build_fab r hmem (hr.trans hopc), build_fab r hmem (hr.trans hopc), hbit]

/-- Settles O5: each word goes through the decoder's equation for its outcome. -/
theorem encodingExamplesHold : Obligations.EncodingExamplesHold :=
  ⟨decode_of_row rfl rfl rfl rfl, decode_of_row rfl rfl rfl rfl, decode_of_row rfl rfl rfl rfl, by decide,
    decode_of_row rfl rfl rfl rfl, decode_of_row rfl rfl rfl rfl,
    fun _ => decode_of_row rfl rfl rfl rfl, fun _ => decode_of_row rfl rfl rfl rfl,
    decode_of_mask_ne rfl (by decide), decode_of_arg_out_of_range rfl rfl rfl, decode_of_no_row rfl⟩

end Sys2Proof.Laws

/-! The read position lies in the delay memory (spec 41_delay_line.md R404, R405, R415). Each bound is an integer of at
most 24 bits, so rounding keeps it. -/

namespace Sys2Proof.Laws

open Sys2Proof.Machine Sys2Proof.Safety
open Sys2Proof.F32 hiding min lt

theorem isNaN_ofNat {n : Nat} (hn : n ≤ 2 ^ 24) : isNaN (F32.ofNat n) = false :=
  ((isFinite_iff _).1 (units_ofNat hn).2).1

theorem f32_le_of_not_lt {x y : F32} (hx : isNaN x = false) (hy : isNaN y = false) (h : ¬ F32.lt y x = true) :
    F32.le x y = true := by
  refine (f32_le_iff _ _).2 ⟨hx, hy, ?_⟩
  by_contra hc
  exact h ((f32_lt_iff y x).2 ⟨hy, hx, by omega⟩)

/-- A value in [0, n) has its integer part in [0, n - 1] (R14). -/
theorem floorInt_lt {n : Nat} {x : F32} (hn : n ≤ 2 ^ 24) (h₀ : F32.le Config.zero x = true)
    (h₁ : F32.lt x (F32.ofNat n) = true) : F32.floorInt x < n := by
  obtain ⟨-, -, hu0⟩ := (f32_le_iff _ _).1 h₀
  obtain ⟨-, -, hu1⟩ := (f32_lt_iff _ _).1 h₁
  obtain ⟨hun, -⟩ := units_ofNat hn
  have hmag := natAbs_units x
  rw [units_configZero] at hu0
  rw [F32.floorInt, Nat.div_lt_iff_lt_mul (Nat.two_pow_pos 149)]
  omega

section ReadPosition

variable {cap : Nat} (nu : NanRule)

/-- WRITE_INDEX - L lies in [-CAP, CAP]. R415 names the tighter [-(CAP - 1), CAP - 2]; the wrap needs only this. -/
theorem writeIndex_sub_length_between {w : Nat} {len : F32} (hcap : cap ≤ 2 ^ 24) (hw : w < cap)
    (hlen : Between Config.one (F32.ofNat (cap - 1)) len) :
    Between (F32.neg (F32.ofNat cap)) (F32.ofNat cap) (F32.sub nu (F32.ofNat w) len) := by
  obtain ⟨hl1, hl2⟩ := hlen
  obtain ⟨-, -, hu1⟩ := (f32_le_iff _ _).1 hl1
  obtain ⟨-, -, hu2⟩ := (f32_le_iff _ _).1 hl2
  obtain ⟨huw, hwf⟩ := units_ofNat (n := w) (by omega)
  obtain ⟨hupred, hpredf⟩ := units_ofNat (n := cap - 1) (by omega)
  obtain ⟨hucap, -⟩ := units_ofNat hcap
  have hone := units_configOne_pos
  have hlenf : isFinite len = true := finite_of_between hl1 hl2 (by decide) hpredf
  exact ⟨f32_le_sub hwf hlenf ((isNaN_neg _).trans (isNaN_ofNat hcap)) (by rw [units_neg]; omega),
    f32_sub_le hwf hlenf (isNaN_ofNat hcap) (by omega)⟩

/-- The first test of R404 takes [-CAP, CAP] into [0, CAP]; CAP itself is reached by rounding. -/
theorem wrapNegative_between {r : F32} (hcap : cap ≤ 2 ^ 24)
    (hr : Between (F32.neg (F32.ofNat cap)) (F32.ofNat cap) r) :
    Between Config.zero (F32.ofNat cap)
      (if F32.lt r Config.zero then F32.add nu r (F32.ofNat cap) else r) := by
  obtain ⟨hlo, hhi⟩ := hr
  obtain ⟨-, hrn, hulo⟩ := (f32_le_iff _ _).1 hlo
  obtain ⟨-, hcapf⟩ := units_ofNat hcap
  have hrf : isFinite r = true := finite_of_between hlo hhi (by rw [isFinite_neg]; exact hcapf) hcapf
  rw [units_neg] at hulo
  split
  case isTrue hneg =>
    obtain ⟨-, -, hu⟩ := (f32_lt_iff _ _).1 hneg
    rw [units_configZero] at hu
    exact ⟨f32_le_add hrf hcapf (by decide) (by rw [units_configZero]; omega),
      f32_add_le hrf hcapf (isNaN_ofNat hcap) (by omega)⟩
  case isFalse hneg => exact ⟨f32_le_of_not_lt (by decide) hrn hneg, hhi⟩

/-- The guard of R404 takes [0, CAP] into [0, CAP). -/
theorem wrapTop_inRange {r : F32} (hpos : 0 < cap) (hcap : cap ≤ 2 ^ 24)
    (hr : Between Config.zero (F32.ofNat cap) r) :
    let rp := if F32.ge r (F32.ofNat cap) then F32.sub nu r (F32.ofNat cap) else r
    F32.le Config.zero rp = true ∧ F32.lt rp (F32.ofNat cap) = true := by
  obtain ⟨hucap, hcapf⟩ := units_ofNat hcap
  obtain ⟨hrf, -, hu1⟩ := between_zero_units hcapf hr
  obtain ⟨hrn, -⟩ := (isFinite_iff _).1 hrf
  dsimp only
  split
  case isTrue htop =>
    obtain ⟨-, -, hu2⟩ := (f32_ge_iff _ _).1 htop
    have hzero : F32.lt Config.zero (F32.ofNat cap) = true :=
      (f32_lt_iff _ _).2 ⟨by decide, isNaN_ofNat hcap, by rw [units_configZero]; omega⟩
    exact ⟨f32_le_sub hrf hcapf (by decide) (by rw [units_configZero]; omega), f32_lt_of_le_of_lt
      (f32_sub_le hrf hcapf (by decide) (by rw [units_configZero]; omega)) hzero⟩
  case isFalse htop => exact ⟨hr.1, f32_lt_of_not_ge hrn (isNaN_ofNat hcap) htop⟩

end ReadPosition

/-- R404's read position lies in [0, CAP). -/
theorem readPos_inRange {cfg : Cfg} (nu : NanRule) {w : Nat} {len : F32} (hcfg : cfg.Legal) (hw : w < cfg.cap)
    (hlen : Between Config.one (F32.ofNat (cfg.cap - 1)) len) :
    F32.le Config.zero (readPos cfg nu w len) = true ∧ F32.lt (readPos cfg nu w len) (F32.ofNat cfg.cap) = true := by
  have hcap : cfg.cap ≤ 2 ^ 24 := hcfg.cap_le
  exact wrapTop_inRange nu (by omega) hcap
    (wrapNegative_between nu hcap (writeIndex_sub_length_between nu hcap hw hlen))

/-- Settles O27, from the range of the read position. -/
theorem readPositionInRange : Obligations.ReadPositionInRange := by
  intro cfg nu w len hcfg hw hlen
  obtain ⟨h0, h1⟩ := readPos_inRange nu hcfg hw hlen
  exact ⟨rfl, h0, h1, floorInt_lt hcfg.cap_le h0 h1, Nat.mod_lt _ (by omega)⟩

end Sys2Proof.Laws

/-! The commands that write the drum voices (spec 42_drum_voices.md R520, R521), each answered by the one operation it runs. -/

namespace Sys2Proof.Laws

open Sys2Proof.Machine

/-- TRIGGER on the number of a voice is EnvTrigger of that voice (R520). -/
theorem exec_trigger_of_voice {n : BitVec 8} {v : Voice} (hv : voiceOf n = some v) (s : State) :
    exec (.trigger n) s = .next (respond 0#32 (trigger v s)) := by
  simp only [exec, execTrigger, hv]

/-- Settles O42: each number names its voice, and EnvTrigger writes that voice's stage and level alone. -/
theorem triggerRestartsTheEnvelope : Obligations.TriggerRestartsTheEnvelope := by
  intro s
  refine ⟨?kick, ?snare, ?hat, ?click⟩
  case kick => exact exec_trigger_of_voice (v := .kick) rfl s
  case snare => exact exec_trigger_of_voice (v := .snare) rfl s
  case hat => exact exec_trigger_of_voice (v := .hat) rfl s
  case click => exact exec_trigger_of_voice (v := .click) rfl s

/-- SET_DRUMSET on an index in range is SelectDrumSet of that index (R521). -/
theorem exec_setDrumset_of_lt {j : BitVec 8} (hj : j.toNat < 6) (s : State) :
    exec (.setDrumset j) s = .next (respond 0#32 (selectDrumSet Config.cfg ⟨j.toNat, hj⟩ s)) := by
  simp only [exec, execSetDrumset, dif_pos hj]

/-- SelectDrumSet sets CHG when the index, as a number, is not the one in DRUMSET (R516; 10_state.md R109). -/
theorem selectDrumSet_eq (cfg : Cfg) (i : Fin 6) (s : State) :
    selectDrumSet cfg i s =
      applyDrumSet cfg i { s with chg := s.chg || decide (i.val ≠ s.drumset.val), drumset := i } := by
  rw [selectDrumSet, decide_eq_decide.2 Fin.val_ne_iff.symm]

/-- Settles O43: SelectDrumSet's flag and index, and the row that ApplyDrumSet loads written out voice by voice. -/
theorem setDrumsetLoadsTheRow : Obligations.SetDrumsetLoadsTheRow := by
  intro j s hj row
  rw [exec_setDrumset_of_lt hj, selectDrumSet_eq]
  rfl

end Sys2Proof.Laws

/-! NOP and WRITE_CTRL (spec 44_host_commands.md R700, R714): their words, whose reserved bits are all of cmd[23:0], and
their effects. -/

namespace Sys2Proof.Laws

open Sys2Proof.Machine

/-- OPC is what the shift to the top byte leaves (R301). -/
theorem opc_of_shift {cmd : Word} {b : BitVec 8} (h : cmd >>> 24 = b.setWidth 32) : Operand.opc cmd = b := by
  rw [Operand.opc, ← BitVec.setWidth_ushiftRight_eq_extractLsb, h]
  simp

/-- A word with the opcode of a format without ARG raises RESERVED_BITS unless it is the row's one word (R305). -/
theorem decode_of_plainRow_ne {cmd m : Word} {b : BitVec 8} {build : Word → Instr} (hopc : Operand.opc cmd = b)
    (hrow : opTable.find? (fun r => r.opc == b) = some (plainRow b m build)) (hne : cmd ≠ m) (data : Word) :
    decode cmd data = .error .reservedBits := by
  have hmask : cmd &&& (plainRow b m build).mask = cmd := BitVec.and_allOnes
  exact decode_of_mask_ne (by rw [rowOf, hopc, hrow]) (hmask.trans_ne hne) data

/-- NOP responds 0 and does nothing else (R700). -/
theorem exec_nop (s : State) : exec .nop s = .next (respond 0#32 s) := rfl

/-- WRITE_CTRL keeps the writable bit of its operand and responds 0 (R714). -/
theorem exec_writeCtrl (u : Word) (s : State) :
    exec (.writeCtrl u) s = .next (respond 0#32 { s with ctrl := u &&& ctrlMask }) := rfl

/-- IRQ is 1 when IRQ_EN is 1 while CHG or ERR is 1 (60_exceptions.md R920). -/
theorem irq_iff (s : State) : s.irq = true ↔ s.irqEn = true ∧ (s.chg = true ∨ s.err = true) := by
  simp only [State.irq, Bool.and_eq_true, Bool.or_eq_true]

/-- Bit 0 of CTRL, IRQ_EN, is writable (R107). -/
theorem ctrlMask_irqEn (u : Word) : (u &&& ctrlMask).getLsbD 0 = u.getLsbD 0 := by
  simp [ctrlMask]

/-- Settles O55: NOP's row of the opcode map has the one word 0, and `exec` only responds. -/
theorem nopChangesNothing : Obligations.NopChangesNothing := by
  refine ⟨fun _ => ?word, fun cmd data hopc hne => ?reserved, ?effect⟩
  case word => exact decode_of_row rfl rfl rfl rfl
  case reserved => exact decode_of_plainRow_ne (b := 0x00#8) (opc_of_shift hopc) rfl hne data
  case effect => exact exec_nop

/-- Settles O56: WRITE_CTRL's row has the one word 0x52000000, and the mask keeps IRQ_EN, which IRQ follows at once. -/
theorem writeCtrlWritesIrqEnOnly : Obligations.WriteCtrlWritesIrqEnOnly := by
  refine ⟨fun _ => ?word, fun cmd u hopc hlow => ?reserved, fun u s => ⟨?effect, fun hen hflag => ?irq⟩⟩
  case word => exact decode_of_row rfl rfl rfl rfl
  case reserved =>
    have hne : cmd ≠ 0x52000000#32 := by
      rintro rfl
      exact hlow (by decide)
    exact decode_of_plainRow_ne (b := 0x52#8) (opc_of_shift hopc) rfl hne u
  case effect => exact exec_writeCtrl u s
  case irq => exact (irq_iff _).2 ⟨(ctrlMask_irqEn u).trans hen, hflag⟩

end Sys2Proof.Laws

/-! The causes of CommandError by the command word's bits (spec 60_exceptions.md R902, R903): what each row of the opcode map
demands of the bits below OPC, and the ARG values that the ranges exclude. -/

namespace Sys2Proof.Laws

theorem opc_setWidth (cmd : Word) : (Operand.opc cmd).setWidth 32 = cmd >>> 24 := by
  apply BitVec.eq_of_toNat_eq
  simp [Operand.opc, Nat.shiftRight_eq_div_pow]
  omega

theorem arg_setWidth (cmd : Word) : (Operand.arg cmd).setWidth 32 = cmd >>> 16 &&& 0xFF#32 := by
  have low_byte : cmd.toNat >>> 16 &&& 255 = cmd.toNat >>> 16 % 256 := Nat.and_two_pow_sub_one_eq_mod _ 8
  apply BitVec.eq_of_toNat_eq
  simp [Operand.arg, low_byte]
  omega

theorem shift_toNat_eq_opc (cmd : Word) : (cmd >>> 24).toNat = (Operand.opc cmd).toNat := by
  rw [← opc_setWidth, BitVec.toNat_setWidth_of_le (by decide)]

theorem shift_toNat_eq_arg (cmd : Word) : (cmd >>> 16 &&& 0xFF#32).toNat = (Operand.arg cmd).toNat := by
  rw [← arg_setWidth, BitVec.toNat_setWidth_of_le (by decide)]

/-- A mask of two disjoint parts keeps what its first part keeps exactly when its second part keeps nothing. -/
theorem and_or_eq_and_iff {w : Nat} {x h l : BitVec w} (hd : h &&& l = 0#w) :
    x &&& (h ||| l) = x &&& h ↔ x &&& l = 0#w := by
  constructor
  · intro hx
    have absorb : (h ||| l) &&& l = l := by
      rw [BitVec.and_comm, BitVec.and_or_distrib_left, BitVec.and_comm, hd, BitVec.and_self, BitVec.zero_or]
    calc x &&& l = x &&& (h ||| l) &&& l := by rw [BitVec.and_assoc, absorb]
      _ = x &&& (h &&& l) := by rw [hx, BitVec.and_assoc]
      _ = 0#w := by rw [hd, BitVec.and_zero]
  · intro hx
    rw [BitVec.and_or_distrib_left, hx, BitVec.or_zero]

/-- The opcodes of the formats without ARG (R306). -/
def plainOpcodes : List Nat :=
  [0x00, 0x01, 0x10, 0x11, 0x12, 0x13, 0x14, 0x20, 0x21, 0x22, 0x23, 0x30, 0x50, 0x52, 0xFF]

/-- The opcodes of the formats with ARG (R306). -/
def indexedOpcodes : List Nat := [0x31, 0x40, 0x41, 0x51]

/-- The ARG values that raise ARG_RANGE, by opcode (R901; 10_state.md R118). -/
def ArgExcluded (opc arg : Nat) : Prop :=
  opc = 0x40 ∧ 3 < arg ∨ opc = 0x41 ∧ 5 < arg ∨ opc = 0x31 ∧ 2 < arg ∨
    opc = 0x51 ∧ (arg ∈ [0x0E, 0x0F] ∨ 0x15 ≤ arg ∧ arg ≤ 0x1F ∨
      arg ∈ [0x2D, 0x2E, 0x2F, 0x3D, 0x3E, 0x3F, 0x4D, 0x4E, 0x4F, 0x5D, 0x5E, 0x5F] ∨ 0x6A ≤ arg)

theorem ArgExcluded.indexed {opc arg : Nat} (h : ArgExcluded opc arg) : opc ∈ indexedOpcodes := by
  rcases h with ⟨rfl, -⟩ | ⟨rfl, -⟩ | ⟨rfl, -⟩ | ⟨rfl, -⟩ <;> decide

theorem not_indexed_of_plain : ∀ n ∈ plainOpcodes, n ∉ indexedOpcodes := by decide

theorem regOk_eq_false_iff (n : BitVec 8) : Operand.regOk n = false ↔ ArgExcluded 0x51 n.toNat := by
  simp only [Operand.regOk, Bool.not_eq_false', regReserved_iff, ArgExcluded, List.mem_cons, List.not_mem_nil, or_false,
    true_and]
  omega

/-- The map has a row for each opcode of either list. -/
theorem exists_row_of_opcode : ∀ n ∈ plainOpcodes ++ indexedOpcodes, ∃ r ∈ opTable, r.opc.toNat = n := by decide

theorem row_matchBits : ∀ r ∈ opTable, r.matchBits = r.opc.setWidth 32 <<< 24 := by decide

/-- Below OPC, a format without ARG demands 24 zero bits, a format with ARG 16 (R305). -/
theorem row_mask : ∀ r ∈ opTable,
    (r.opc.toNat ∈ plainOpcodes ∧ r.mask = 0xFF000000#32 ||| 0x00FFFFFF#32) ∨
    (r.opc.toNat ∈ indexedOpcodes ∧ r.mask = 0xFF000000#32 ||| 0x0000FFFF#32) := by decide

theorem row_argOk : ∀ r ∈ opTable, ∀ a, r.argOk a = false ↔ ArgExcluded r.opc.toNat a.toNat := by
  simp [opTable, plainRow, argRow, regOk_eq_false_iff, Operand.buttonOk, Operand.voiceOk, Operand.drumsetOk, ArgExcluded]

/-- With the row of its opcode found, a command word raises RESERVED_BITS when a bit that the row demands to be 0 is set,
and else ARG_RANGE when its ARG is excluded (R305, R903). -/
theorem decode_error_of_row {cmd : Word} {r : OpRow} {low : Word} (hrow : rowOf cmd = some r)
    (hmask : r.mask = 0xFF000000#32 ||| low) (hlow : 0xFF000000#32 &&& low = 0#32) (data : Word) (e : ErrCause) :
    decode cmd data = .error e ↔
      (e = .reservedBits ∧ cmd &&& low ≠ 0#32) ∨
      (e = .argRange ∧ cmd &&& low = 0#32 ∧ ArgExcluded (Operand.opc cmd).toNat (Operand.arg cmd).toNat) := by
  obtain ⟨hmem, hopc⟩ := rowOf_eq_some hrow
  have high : r.matchBits = cmd &&& 0xFF000000#32 := by
    rw [row_matchBits r hmem, hopc, opc_setWidth]
    exact BitVec.shiftLeft_ushiftRight
  have accepts : cmd &&& r.mask = r.matchBits ↔ cmd &&& low = 0#32 := by
    rw [high, hmask]
    exact and_or_eq_and_iff hlow
  have excluded := row_argOk r hmem (Operand.arg cmd)
  rw [hopc] at excluded
  by_cases hbits : cmd &&& low = 0#32
  · cases harg : r.argOk (Operand.arg cmd) with
    | false =>
      rw [decode_of_arg_out_of_range hrow (accepts.2 hbits) harg]
      simp [hbits, excluded.1 harg, eq_comm]
    | true =>
      rw [decode_of_row hrow (accepts.2 hbits) harg rfl]
      simp [hbits, ← excluded, harg]
  · rw [decode_of_mask_ne hrow (accepts.not.2 hbits)]
    simp [hbits, eq_comm]

/-- The causes of CommandError, by the opcode's format (R902, R903). -/
theorem decode_error_iff (cmd data : Word) (e : ErrCause) :
    decode cmd data = .error e ↔
      (e = .illegalOpcode ∧ (Operand.opc cmd).toNat ∉ plainOpcodes ∧ (Operand.opc cmd).toNat ∉ indexedOpcodes) ∨
      (e = .reservedBits ∧
        ((Operand.opc cmd).toNat ∈ plainOpcodes ∧ cmd &&& 0x00FFFFFF#32 ≠ 0#32 ∨
         (Operand.opc cmd).toNat ∈ indexedOpcodes ∧ cmd &&& 0x0000FFFF#32 ≠ 0#32)) ∨
      (e = .argRange ∧ cmd &&& 0x0000FFFF#32 = 0#32 ∧
        ArgExcluded (Operand.opc cmd).toNat (Operand.arg cmd).toNat) := by
  rcases hrow : rowOf cmd with _ | r
  · have unlisted : (Operand.opc cmd).toNat ∉ plainOpcodes ++ indexedOpcodes := by
      intro hlisted
      obtain ⟨r, hmem, hopc⟩ := exists_row_of_opcode _ hlisted
      exact List.find?_eq_none.1 hrow r hmem (beq_iff_eq.2 (BitVec.eq_of_toNat_eq hopc))
    obtain ⟨hplain, hindexed⟩ := not_or.1 (List.mem_append.not.1 unlisted)
    have inRange := mt (ArgExcluded.indexed (arg := (Operand.arg cmd).toNat)) hindexed
    rw [decode_of_no_row hrow]
    simp [hplain, hindexed, inRange, eq_comm]
  · obtain ⟨hmem, hopc⟩ := rowOf_eq_some hrow
    rcases row_mask r hmem with ⟨hplain, hmask⟩ | ⟨hindexed, hmask⟩
    · rw [hopc] at hplain
      have hindexed := not_indexed_of_plain _ hplain
      have inRange := mt (ArgExcluded.indexed (arg := (Operand.arg cmd).toNat)) hindexed
      rw [decode_error_of_row hrow hmask (by decide)]
      simp [hplain, hindexed, inRange]
    · rw [hopc] at hindexed
      have hplain : (Operand.opc cmd).toNat ∉ plainOpcodes := fun h => not_indexed_of_plain _ h hindexed
      rw [decode_error_of_row hrow hmask (by decide)]
      simp [hplain, hindexed]

/-- Settles O4: the causes by format, OPC and ARG read as the bytes they are. -/
theorem decodeErrorsExactly : Obligations.DecodeErrorsExactly := by
  refine ⟨fun cmd data e => ?causes, fun _ => decode_of_mask_ne rfl (by decide) _⟩
  case causes =>
    intro opc arg plain indexed
    have hopc : opc = (Operand.opc cmd).toNat := shift_toNat_eq_opc cmd
    have harg : arg = (Operand.arg cmd).toNat := shift_toNat_eq_arg cmd
    rw [hopc, harg]
    exact decode_error_iff cmd data e

end Sys2Proof.Laws

/-! The error flags and the interrupt over one step (spec 60_exceptions.md R904 to R906, R921). A command that decodes has
its ARG in range, so that its execution takes no CommandError. -/

namespace Sys2Proof.Laws

open Sys2Proof.Machine

/-! The step on a command that does not decode, and on one that does. -/

section Step

variable {s : State} {c : Command} {rest : List Command}

theorem step_of_decode_error {e : ErrCause} (hin : s.inbox = c :: rest) (hd : decode c.cmd c.data = .error e) :
    step s = .next (takeError e c.cmd { s with inbox := rest }) := by
  simp only [step, fetch_eq_some hin, hd]

theorem step_of_decode_ok {i : Instr} (hin : s.inbox = c :: rest) (hd : decode c.cmd c.data = .ok i) :
    step s = exec i { s with inbox := rest } := by
  simp only [step, fetch_eq_some hin, hd]

end Step

/-- READ_STATUS answers STATUS and clears the sticky flags (R712). -/
theorem exec_readStatus (s : State) : exec .readStatus s = .next (respond s.status s.clearSticky) := rfl

/-- The ERRINFO word by the command word's bits (R905). -/
theorem errInfoWord_eq (e : ErrCause) (cmd : Word) :
    errInfoWord e cmd = ErrCause.code e ||| ((cmd >>> 24) <<< 8) ||| ((cmd >>> 16 &&& 0xFF#32) <<< 16) := by
  rw [errInfoWord, opc_setWidth, arg_setWidth]

/-- Settles O7: the step takes the error, whose recording is one update; READ_STATUS does not write ERRINFO. -/
theorem stepRecordsCommandError : Obligations.StepRecordsCommandError := by
  refine ⟨fun s c rest e hin hd => ?error, fun s => ⟨_, exec_readStatus s, rfl, rfl⟩⟩
  case error =>
    intro code
    have hcode : code = ErrCause.code e := by cases e <;> rfl
    rw [hcode, ← errInfoWord_eq]
    exact step_of_decode_error hin hd

/-! A command that decodes has its ARG in range. -/

theorem build_wellFormed : ∀ r ∈ opTable, ∀ a d, r.argOk a = true → (r.build a d).wellFormed = true := by
  simp [opTable, plainRow, argRow, Instr.wellFormed]

theorem decode_ok_wellFormed {cmd data : Word} {i : Instr} (h : decode cmd data = .ok i) : i.wellFormed = true := by
  rcases hrow : rowOf cmd with _ | r
  · cases (decode_of_no_row hrow data).symm.trans h
  · by_cases hmask : cmd &&& r.mask = r.matchBits
    · cases harg : r.argOk (Operand.arg cmd) with
      | false => cases (decode_of_arg_out_of_range hrow hmask harg data).symm.trans h
      | true =>
        cases (decode_of_row hrow hmask harg rfl).symm.trans h
        obtain ⟨hmem, -⟩ := rowOf_eq_some hrow
        exact build_wellFormed r hmem _ _ harg
    · cases (decode_of_mask_ne hrow hmask data).symm.trans h

theorem voiceOf_ne_none {n : BitVec 8} (h : Operand.voiceOk n = true) : voiceOf n ≠ none := by
  revert n
  decide

/-! Each block of the register space has a register at every offset that R118 does not reserve. -/

theorem readControlReg_isSome (s : State) {k : Nat} (hk : k < 0xE) : (s.readControlReg k).isSome = true := by
  interval_cases k <;> rfl

theorem readDelayReg_isSome (s : State) {k : Nat} (hk : k < 0x5) : (s.readDelayReg k).isSome = true := by
  interval_cases k <;> rfl

theorem oscVoice_readReg_isSome (v : OscVoice) {k : Nat} (hk : k < 0xD) : (v.readReg k).isSome = true := by
  interval_cases k <;> rfl

theorem filterVoice_readReg_isSome (v : FilterVoice) {k : Nat} (hk : k < 0xD) : (v.readReg k).isSome = true := by
  interval_cases k <;> rfl

theorem readSeqReg_isSome (s : State) {k : Nat} (hk : k < 0xA) : (s.readSeqReg k).isSome = true := by
  interval_cases k <;> rfl

theorem readReg_isSome (s : State) {n : BitVec 8} (h : Operand.regOk n = true) : (readReg s n).isSome = true := by
  have hn : ¬ Operand.regReserved n = true := by simpa [Operand.regOk] using h
  rw [regReserved_iff] at hn
  have hblock : n.toNat / 16 < 7 := by omega
  rw [readReg]
  interval_cases hb : n.toNat / 16
  · exact readControlReg_isSome s (by omega)
  · exact readDelayReg_isSome s (by omega)
  · exact oscVoice_readReg_isSome s.kick (by omega)
  · exact filterVoice_readReg_isSome s.snare (by omega)
  · exact filterVoice_readReg_isSome s.hat (by omega)
  · exact oscVoice_readReg_isSome s.click (by omega)
  · exact readSeqReg_isSome s (by omega)

/-! The error registers over a command. -/

/-- ERR, OVF and ERRINFO keep their values. -/
def ErrorKept (s t : State) : Prop := t.err = s.err ∧ t.ovf = s.ovf ∧ t.errInfo = s.errInfo

theorem errorKept_trigger (v : Voice) (s : State) : ErrorKept s (trigger v s) := by
  cases v <;> exact ⟨rfl, rfl, rfl⟩

theorem errorKept_risingEdge (b : Nat) (s : State) : ErrorKept s (risingEdge b s) := by
  rcases risingEdge_cases b s with ⟨-, h⟩ | ⟨-, -, h⟩ | ⟨-, -, h⟩ | ⟨-, -, -, h⟩ | ⟨-, -, -, h⟩ <;> rw [h]
  case inr.inr.inl | inr.inr.inr.inl => exact errorKept_trigger _ s
  all_goals exact ⟨rfl, rfl, rfl⟩

theorem errorKept_buttonLevel (b : Nat) (lvl : Bool) (s : State) : ErrorKept s (buttonLevel b lvl s) := by
  rcases buttonLevel_cases b lvl s with ⟨-, -, h⟩ | ⟨-, h⟩ <;> rw [h]
  · exact errorKept_risingEdge b { s with btnPrev := recordLevel b lvl s.btnPrev }
  · exact ⟨rfl, rfl, rfl⟩

theorem errorKept_encStep (cfg : Cfg) (inc : Int) (s : State) : ErrorKept s (encStep cfg inc s) := by
  rcases encStep_cases cfg inc s with ⟨-, h⟩ | ⟨-, h⟩ <;> rw [h] <;> exact ⟨rfl, rfl, rfl⟩

/-- A command whose ARG is in range touches the error registers only if it clears them. -/
theorem exec_errorKept {i : Instr} {s t : State} (h : exec i s = .next t) (hwf : i.wellFormed = true)
    (hs : i ≠ .readStatus) (hr : i ≠ .reset) : ErrorKept s t := by
  cases i with
  | sample x => cases h; exact ⟨sampleStep_err .., sampleStep_ovf .., sampleStep_errInfo ..⟩
  | encInc n => cases h; exact errorKept_encStep _ _ s
  | button b lvl =>
    rcases exec_button_cases h with ⟨-, rfl⟩ | ⟨hb, -⟩
    · exact errorKept_buttonLevel _ lvl s
    · exact absurd (of_decide_eq_true hwf) (by omega)
  | trigger n =>
    rcases exec_trigger_cases h with ⟨v, -, rfl⟩ | ⟨hv, -⟩
    · exact errorKept_trigger v s
    · exact absurd hv (voiceOf_ne_none hwf)
  | setDrumset n =>
    rcases exec_setDrumset_cases h with ⟨-, rfl⟩ | ⟨hn, -⟩
    · exact ⟨rfl, rfl, rfl⟩
    · exact absurd (of_decide_eq_true hwf) (by omega)
  | readParam n =>
    rcases exec_readParam_cases h with ⟨v, -, rfl⟩ | ⟨hv, -⟩
    · exact ⟨rfl, rfl, rfl⟩
    · simpa [hv] using readReg_isSome s hwf
  | readStatus => exact absurd rfl hs
  | reset => exact absurd rfl hr
  | _ => cases h; exact ⟨rfl, rfl, rfl⟩

/-- The two commands that clear the sticky flags (R906). -/
theorem exec_clears_flags {i : Instr} {s t : State} (h : exec i s = .next t) (hi : i = .readStatus ∨ i = .reset) :
    t.chg = false ∧ t.err = false ∧ t.ovf = false := by
  rcases hi with rfl | rfl <;> cases h <;> exact ⟨rfl, rfl, rfl⟩

/-- Settles O11: the recording of an error, the two commands that clear, and the others, which keep. -/
theorem errorFlagsAreSticky : Obligations.ErrorFlagsAreSticky := by
  intro s t c rest hin hst
  refine ⟨fun e hd => ?error, fun i hd hi => ?clear, fun i hd hs hr => ?keep⟩
  case error =>
    cases (step_of_decode_error hin hd).symm.trans hst
    simp [or_comm]
  case clear =>
    obtain ⟨-, flags⟩ := exec_clears_flags ((step_of_decode_ok hin hd).symm.trans hst) hi
    exact flags
  case keep =>
    have kept := exec_errorKept ((step_of_decode_ok hin hd).symm.trans hst) (decode_ok_wellFormed hd) hs hr
    exact kept

/-! The interrupt. -/

/-- The executed commands that set CHG, and so raise IRQ where it is enabled and low (R921; 10_state.md R109). -/
def SetsChg (i : Instr) (s : State) : Prop :=
  (∃ j, i = .setDrumset j ∧ j.toNat ≠ s.drumset.val) ∨
  (∃ inc, i = .encInc inc ∧ s.seqState = .manual ∧ ((s.drumset.val : Int) + inc.toInt) % 6 ≠ (s.drumset.val : Int)) ∨
  (i = .button 2#8 true ∧ s.btnPrev.getLsbD 2 = false)

theorem encDrumset_ne_iff (j : Fin 6) (inc : Int) : encDrumset j inc ≠ j ↔ ((j.val : Int) + inc) % 6 ≠ (j.val : Int) := by
  have hj := j.isLt
  simp only [encDrumset, ne_eq, Fin.ext_iff, Fin.val_ofNat]
  omega

/-- Of the rising edges, the one that toggles the mode sets CHG (R605). -/
theorem risingEdge_chg (b : Nat) (s : State) : (risingEdge b s).chg = true ↔ s.chg = true ∨ b = 2 := by
  rcases risingEdge_cases b s with ⟨hb, h⟩ | ⟨hb, -, h⟩ | ⟨hb, -, h⟩ | ⟨-, hb, -, h⟩ | ⟨hb, -, -, h⟩ <;> rw [h] <;>
    simp [hb]

theorem buttonLevel_chg (b : Nat) (lvl : Bool) (s : State) :
    (buttonLevel b lvl s).chg = true ↔ s.chg = true ∨ (b = 2 ∧ lvl = true ∧ s.btnPrev.getLsbD 2 = false) := by
  rcases buttonLevel_cases b lvl s with ⟨hp, rfl, h⟩ | ⟨hp, h⟩ <;> rw [h]
  · rw [risingEdge_chg]
    exact or_congr_right ⟨fun hb => ⟨hb, rfl, hb ▸ hp⟩, fun ⟨hb, _⟩ => hb⟩
  · have noEdge : ¬ (b = 2 ∧ lvl = true ∧ s.btnPrev.getLsbD 2 = false) := by
      rintro ⟨rfl, rfl, hlow⟩
      rcases hp with hp | hl
      · exact Bool.false_ne_true (hlow.symm.trans hp)
      · cases hl
    exact (or_iff_left noEdge).symm

/-- CHG after a command that decodes, from CHG clear. -/
theorem exec_chg_iff {i : Instr} {s t : State} (h : exec i s = .next t) (hwf : i.wellFormed = true)
    (hc : s.chg = false) : t.chg = true ↔ SetsChg i s := by
  cases i with
  | sample x => cases h; simp [SetsChg, hc]
  | encInc n =>
    cases h
    rcases encStep_cases Config.cfg (Operand.s32 n) s with ⟨hm, h⟩ | ⟨hm, h⟩ <;> rw [h]
    · simp [SetsChg, hc, hm, encDrumset_ne_iff, Operand.s32]
    · simp [SetsChg, hc, hm]
  | button b lvl =>
    rcases exec_button_cases h with ⟨-, rfl⟩ | ⟨hb, -⟩
    · simp [SetsChg, hc, buttonLevel_chg, BitVec.toNat_eq, and_assoc]
    · exact absurd (of_decide_eq_true hwf) (by omega)
  | trigger n =>
    rcases exec_trigger_cases h with ⟨v, -, rfl⟩ | ⟨-, rfl⟩ <;> simp [SetsChg, hc, argRangeError]
  | setDrumset n =>
    rcases exec_setDrumset_cases h with ⟨hn, rfl⟩ | ⟨hn, -⟩
    · simp [SetsChg, hc, Fin.ext_iff]
    · exact absurd (of_decide_eq_true hwf) (by omega)
  | readParam n =>
    rcases exec_readParam_cases h with ⟨v, -, rfl⟩ | ⟨-, rfl⟩ <;> simp [SetsChg, hc, argRangeError]
  | readStatus => cases h; simp [SetsChg]
  | reset => cases h; simp [SetsChg, resetAll, State.resetFor]
  | _ => cases h; simp [SetsChg, hc]

@[simp] theorem trigger_ctrl (v : Voice) (s : State) : (trigger v s).ctrl = s.ctrl := by cases v <;> rfl

/-- WRITE_CTRL and RESET are the commands that write CTRL (R107). -/
theorem Effect.ctrl_eq {i : Instr} {s t : State} (e : Effect i s t) (hw : ∀ u, i ≠ .writeCtrl u) (hr : i ≠ .reset) :
    t.ctrl = s.ctrl := by
  cases e with
  | writeCtrl u => exact absurd rfl (hw u)
  | reset => exact absurd rfl hr
  | argRange => simp [argRangeError]
  | _ => simp

theorem Effect.ctrl_eq_of_setsChg {i : Instr} {s t : State} (e : Effect i s t) (hset : SetsChg i s) :
    t.ctrl = s.ctrl := by
  rcases hset with ⟨j, rfl, -⟩ | ⟨inc, rfl, -⟩ | ⟨rfl, -⟩ <;> exact e.ctrl_eq (fun _ => nofun) nofun

/-- A command whose ARG is in range sets no error flag. -/
theorem exec_err_clear {i : Instr} {s t : State} (h : exec i s = .next t) (hwf : i.wellFormed = true)
    (he : s.err = false) : t.err = false := by
  by_cases hi : i = .readStatus ∨ i = .reset
  · obtain ⟨-, herr, -⟩ := exec_clears_flags h hi
    exact herr
  · obtain ⟨hs, hr⟩ := not_or.1 hi
    obtain ⟨herr, -, -⟩ := exec_errorKept h hwf hs hr
    exact herr.trans he

/-- With IRQ enabled and both flags clear, a command whose ARG is in range raises IRQ by setting CHG, or not at all. -/
theorem exec_irq_iff {i : Instr} {s t : State} (h : exec i s = .next t) (hwf : i.wellFormed = true)
    (hen : s.irqEn = true) (hc : s.chg = false) (he : s.err = false) : t.irq = true ↔ SetsChg i s := by
  have chg := exec_chg_iff h hwf hc
  constructor
  · intro hirq
    obtain ⟨-, hchg | herr⟩ := (irq_iff t).1 hirq
    · exact chg.1 hchg
    · exact absurd ((exec_err_clear h hwf he).symm.trans herr) Bool.false_ne_true
  · intro hset
    have enabled : t.irqEn = true := by
      rw [State.irqEn, (exec_effect h).ctrl_eq_of_setsChg hset]
      exact hen
    exact (irq_iff t).2 ⟨enabled, .inl (chg.2 hset)⟩

/-- Taking CommandError raises an enabled IRQ. -/
theorem takeError_irq (e : ErrCause) (cmd : Word) (s : State) : (takeError e cmd s).irq = s.irqEn := by
  simp [State.irq, State.irqEn]

theorem flags_clear_of_irq_low {s : State} (hen : s.irqEn = true) (hirq : s.irq = false) :
    s.chg = false ∧ s.err = false := by
  simpa [State.irq, hen] using hirq

/-- Settles O13: an error sets ERR and leaves CHG clear; a command that decodes leaves ERR clear, and IRQ follows CHG. -/
theorem irqRisesExactlyOnItsEvents : Obligations.IrqRisesExactlyOnItsEvents := by
  intro s t c rest hin hst hen hirq
  obtain ⟨hchg, herr⟩ := flags_clear_of_irq_low hen hirq
  cases hd : decode c.cmd c.data with
  | error e =>
    cases (step_of_decode_error hin hd).symm.trans hst
    have raised : (takeError e c.cmd { s with inbox := rest }).irq = true := (takeError_irq ..).trans hen
    exact ⟨iff_of_true raised (.inl ⟨e, rfl⟩), fun _ => ⟨rfl, hchg⟩, (fun _ ⟨_, hi⟩ => nomatch hi)⟩
  | ok i =>
    have hwf := decode_ok_wellFormed hd
    have hex : exec i { s with inbox := rest } = .next t := (step_of_decode_ok hin hd).symm.trans hst
    have irq := exec_irq_iff hex hwf hen hchg herr
    have chg := exec_chg_iff hex hwf hchg
    refine ⟨?events, (fun ⟨_, he⟩ => nomatch he), fun hi _ => ⟨chg.2 (irq.1 hi), exec_err_clear hex hwf herr⟩⟩
    case events => simpa only [SetsChg, Except.ok.injEq, reduceCtorEq, exists_false, false_or] using irq

end Sys2Proof.Laws

/-! Decoding and encoding are inverse to each other (spec 30_encoding.md R300 to R305; byte order by 20_memory.md R206): a
command word is its three fields, and each row of the opcode map encodes to the word it matches. -/

namespace Sys2Proof.Laws

/-- A command word is OPC, ARG and RSV, in this order (R301). -/
theorem cmd_eq_fields (cmd : Word) : cmd = Operand.opc cmd ++ Operand.arg cmd ++ Operand.rsv cmd := by
  have high : Operand.opc cmd ++ Operand.arg cmd = cmd.extractLsb' 16 16 :=
    BitVec.extractLsb'_append_extractLsb'_eq_extractLsb' rfl
  have whole : cmd.extractLsb' 16 16 ++ Operand.rsv cmd = cmd.extractLsb' 0 32 :=
    BitVec.extractLsb'_append_extractLsb'_eq_extractLsb' rfl
  rw [high, whole, BitVec.extractLsb'_eq_self]

theorem opc_cmdWord (opc arg : BitVec 8) : Operand.opc (cmdWord opc arg) = opc := by
  rw [Operand.opc, cmdWord, BitVec.extractLsb'_append_eq_of_le (by decide)]
  exact BitVec.extractLsb'_append_eq_left

theorem arg_cmdWord (opc arg : BitVec 8) : Operand.arg (cmdWord opc arg) = arg := by
  rw [Operand.arg, cmdWord, BitVec.extractLsb'_append_eq_of_le (by decide)]
  exact BitVec.extractLsb'_append_eq_right

/-- The mask of the formats with ARG clears ARG (R305). -/
theorem and_argMask (cmd : Word) : cmd &&& 0xFF00FFFF#32 = Operand.opc cmd ++ 0#8 ++ Operand.rsv cmd := by
  have mask : 0xFF00FFFF#32 = 0xFF#8 ++ 0x00#8 ++ 0xFFFF#16 := by decide
  calc cmd &&& 0xFF00FFFF#32
      = (Operand.opc cmd ++ Operand.arg cmd ++ Operand.rsv cmd) &&& (0xFF#8 ++ 0x00#8 ++ 0xFFFF#16) := by
        rw [← cmd_eq_fields, ← mask]
    _ = (Operand.opc cmd &&& BitVec.allOnes 8) ++ (Operand.arg cmd &&& 0#8) ++ (Operand.rsv cmd &&& BitVec.allOnes 16) := by
        rw [BitVec.and_append, BitVec.and_append]; rfl
    _ = _ := by rw [BitVec.and_allOnes, BitVec.and_allOnes, BitVec.and_zero]

/-- A command word that a format with ARG accepts has a zero RSV, so that its OPC and its ARG are all of it. -/
theorem cmdWord_of_argMask {cmd : Word} {opc : BitVec 8} (h : cmd &&& 0xFF00FFFF#32 = cmdWord opc 0#8) :
    cmdWord opc (Operand.arg cmd) = cmd := by
  rw [and_argMask] at h
  have hopc : Operand.opc cmd = opc := by
    have := congrArg (BitVec.extractLsb' 24 8) h
    rwa [show BitVec.extractLsb' 24 8 (cmdWord opc 0#8) = opc from opc_cmdWord opc 0#8,
      BitVec.extractLsb'_append_eq_of_le (by decide), BitVec.extractLsb'_append_eq_left] at this
  have hrsv : Operand.rsv cmd = 0#16 := by
    have := congrArg (BitVec.extractLsb' 0 16) h
    rwa [cmdWord, BitVec.extractLsb'_append_eq_right, BitVec.extractLsb'_append_eq_right] at this
  rw [cmdWord, ← hopc, ← hrsv, ← cmd_eq_fields]

theorem cmdWord_and_argMask (opc arg : BitVec 8) : cmdWord opc arg &&& 0xFF00FFFF#32 = cmdWord opc 0#8 := by
  rw [and_argMask, opc_cmdWord, cmdWord, Operand.rsv, cmdWord, BitVec.extractLsb'_append_eq_right]

/-- The decoder on the word of a format with ARG, from the row of its opcode. -/
theorem decode_cmdWord {opc arg : BitVec 8} {argOk : BitVec 8 → Bool} {build : BitVec 8 → Word → Instr}
    (hrow : opTable.find? (fun r => r.opc == opc) = some (argRow opc (cmdWord opc 0#8) argOk build))
    (harg : argOk arg = true) {data : Word} {i : Instr} (hbuild : build arg data = i) :
    decode (cmdWord opc arg) data = .ok i := by
  refine decode_of_row (r := argRow opc (cmdWord opc 0#8) argOk build) ?_ (cmdWord_and_argMask opc arg) ?_ ?_
  · rw [rowOf, opc_cmdWord, hrow]
  · rw [arg_cmdWord]; exact harg
  · rw [arg_cmdWord]; exact hbuild

/-- The decoder on the word of a format without ARG. -/
theorem decode_plainWord {opc : BitVec 8} {build : Word → Instr}
    (hrow : opTable.find? (fun r => r.opc == opc) = some (plainRow opc (cmdWord opc 0#8) build))
    {data : Word} {i : Instr} (hbuild : build data = i) : decode (cmdWord opc 0#8) data = .ok i := by
  have hmask : cmdWord opc 0#8 &&& (plainRow opc (cmdWord opc 0#8) build).mask = cmdWord opc 0#8 := BitVec.and_allOnes
  exact decode_of_row (by rw [rowOf, opc_cmdWord, hrow]) hmask rfl hbuild

/-- The words of a command whose ARG is in range decode to it. -/
theorem decode_encode {i : Instr} (h : i.wellFormed = true) : decode (encode i).cmd (encode i).data = .ok i := by
  cases i with
  | button b lvl => exact decode_cmdWord (argOk := Operand.buttonOk) rfl h (by cases lvl <;> simp [encode, Operand.level])
  | trigger v => exact decode_cmdWord (argOk := Operand.voiceOk) rfl h rfl
  | setDrumset j => exact decode_cmdWord (argOk := Operand.drumsetOk) rfl h rfl
  | readParam n => exact decode_cmdWord (argOk := Operand.regOk) rfl h rfl
  | _ => exact decode_plainWord rfl rfl

/-- A word is its four bytes, least significant first (R206). -/
theorem wordOfBytes_bytes (w : Word) :
    wordOfBytes (w.extractLsb' 0 8) (w.extractLsb' 8 8) (w.extractLsb' 16 8) (w.extractLsb' 24 8) = w := by
  have high : w.extractLsb' 24 8 ++ w.extractLsb' 16 8 = w.extractLsb' 16 16 :=
    BitVec.extractLsb'_append_extractLsb'_eq_extractLsb' rfl
  have upper : w.extractLsb' 16 16 ++ w.extractLsb' 8 8 = w.extractLsb' 8 24 :=
    BitVec.extractLsb'_append_extractLsb'_eq_extractLsb' rfl
  have whole : w.extractLsb' 8 24 ++ w.extractLsb' 0 8 = w.extractLsb' 0 32 :=
    BitVec.extractLsb'_append_extractLsb'_eq_extractLsb' rfl
  rw [wordOfBytes, high, upper, whole, BitVec.extractLsb'_eq_self]

/-- The first eight bytes of a stream are its first command (R300). -/
theorem decodeBytes_bytesOfWord {cmd data : Word} {i : Instr} (h : decode cmd data = .ok i) (rest : List Byte) :
    decodeBytes (bytesOfWord cmd ++ bytesOfWord data ++ rest) = .ok (i, rest) := by
  simp only [bytesOfWord, List.cons_append, List.nil_append, decodeBytes, wordOfBytes_bytes, h]

/-- Settles O1: the words by the row of each opcode, the bytes by the words they are. -/
theorem decodeInvertsEncode : Obligations.DecodeInvertsEncode :=
  fun _ rest hwf => ⟨decode_encode hwf, decodeBytes_bytesOfWord (decode_encode hwf) rest⟩

/-- What a command word that decodes went through (R305). -/
theorem decode_ok_row {cmd data : Word} {i : Instr} (h : decode cmd data = .ok i) :
    ∃ r ∈ opTable, cmd &&& r.mask = r.matchBits ∧ i = r.build (Operand.arg cmd) data := by
  rcases hrow : rowOf cmd with _ | r
  · cases (decode_of_no_row hrow data).symm.trans h
  · obtain ⟨hmem, -⟩ := rowOf_eq_some hrow
    by_cases hmask : cmd &&& r.mask = r.matchBits
    · cases harg : r.argOk (Operand.arg cmd) with
      | false => cases (decode_of_arg_out_of_range hrow hmask harg data).symm.trans h
      | true => exact ⟨r, hmem, hmask, Except.ok.inj (h.symm.trans (decode_of_row hrow hmask harg rfl))⟩
    · cases (decode_of_mask_ne hrow hmask data).symm.trans h

/-- What a row's commands encode to: the word the row matches, with their ARG in it where the format has one. -/
theorem row_encode : ∀ r ∈ opTable,
    (r.mask = BitVec.allOnes 32 ∧ ∀ a d, (encode (r.build a d)).cmd = r.matchBits) ∨
    (r.mask = 0xFF00FFFF#32 ∧ r.matchBits = cmdWord r.opc 0#8 ∧
      ∀ a d, (encode (r.build a d)).cmd = cmdWord r.opc a) := by
  simp [opTable, plainRow, argRow, encode, cmdWord]

/-- A command word that decodes is the word of the command it decodes to. -/
theorem encode_decode {cmd data : Word} {i : Instr} (h : decode cmd data = .ok i) : (encode i).cmd = cmd := by
  obtain ⟨r, hmem, hmask, rfl⟩ := decode_ok_row h
  rcases row_encode r hmem with ⟨hall, hword⟩ | ⟨hmask', hmatch, hword⟩
  · rw [hword, ← hmask, hall, BitVec.and_allOnes]
  · rw [hword]
    exact cmdWord_of_argMask (by rw [← hmask', hmask, hmatch])

/-- Settles O2: every word that decodes to the command is the one it encodes to. -/
theorem decodedCommandHasOneWord : Obligations.DecodedCommandHasOneWord :=
  fun _ _ _ h => ⟨decode_ok_wellFormed h, encode_decode h, fun _ _ h' => (encode_decode h').symm.trans (encode_decode h)⟩

end Sys2Proof.Laws

/-! Every step keeps each part of the invariants by itself (spec 10_state.md R105, R112, R119), and what a step is in each of
its cases (20_memory.md R209, R210; 60_exceptions.md R900, R920, R928). -/

namespace Sys2Proof.Laws

open Sys2Proof.Machine Sys2Proof.Safety

/-- A property that does not speak of the port, that a CommandError keeps and that every effect of a command keeps, is kept
by the step. -/
theorem step_keeps {P : State → Prop} (port : ∀ cs s, P s → P { s with inbox := cs })
    (error : ∀ e cmd s, P s → P (takeError e cmd s)) (effect : ∀ i s t, Effect i s t → P s → P t)
    {s t : State} (h : P s) (hst : step s = .next t) : P t := by
  rcases step_cases s with ⟨-, hs⟩ | ⟨c, rest, -, ⟨e, -, hs⟩ | ⟨i, -, hs⟩⟩
  · cases hs.symm.trans hst
    exact h
  · cases hs.symm.trans hst
    exact error e c.cmd _ (port rest s h)
  · exact effect i _ t (exec_effect (hs.symm.trans hst)) (port rest s h)

/-- Settles O18, from what each effect does to the structure. -/
theorem stepKeepsStructureOk : Obligations.StepKeepsStructureOk :=
  fun _ _ => step_keeps (fun _ _ h => { h with }) (fun e cmd _ => takeError_structureOk e cmd)
    (fun _ _ _ e => e.structureOk)

/-- Settles O19: a derived register is written only with its source. -/
theorem stepKeepsDerivedOk : Obligations.StepKeepsDerivedOk :=
  fun _ _ => step_keeps (fun _ _ h => { h with }) (fun _ _ _ h => { h with }) (fun _ _ _ e => e.derivedOk)

/-- Settles O20: the voice parameters are written only by the load of a drum set, with DRUMSET. -/
theorem stepKeepsVoicesTuned : Obligations.StepKeepsVoicesTuned :=
  fun _ _ => step_keeps (fun _ _ h => { h with }) (fun _ _ _ h => { h with }) (fun _ _ _ e => e.voicesTuned)

/-- Settles O17. -/
theorem resetIsGood : Obligations.ResetIsGood := reset_good

/-- Settles O6. -/
theorem stepRunsDecodedCommand : Obligations.StepRunsDecodedCommand :=
  fun _ _ _ _ hin hd => step_of_decode_ok hin hd

/-- The step with an empty port holds (R928). -/
theorem step_of_inbox_nil {s : State} (h : s.inbox = []) : step s = .next s := by
  simp only [step, fetch_eq_none h]

/-- Settles O8. -/
theorem stepHoldsWithoutCommand : Obligations.StepHoldsWithoutCommand := fun _ h => step_of_inbox_nil h

/-- Settles O14: R920's formula; the flags are clear after reset. -/
theorem irqOutputIsItsFormula : Obligations.IrqOutputIsItsFormula := ⟨irq_iff, by decide⟩

/-- No arm of `exec` is a fault or a refusal (R900). -/
theorem exec_answers (i : Instr) (s : State) : ∃ t, exec i s = .next t := by
  cases i <;> exact ⟨_, rfl⟩

/-- Settles O9: the step holds, takes an error or executes, and `exec` answers. -/
theorem noCommandStopsTheBlock : Obligations.NoCommandStopsTheBlock := by
  refine ⟨fun s => ?step, exec_answers⟩
  case step =>
    rcases step_cases s with ⟨-, hs⟩ | ⟨c, rest, -, ⟨e, -, hs⟩ | ⟨i, -, hs⟩⟩
    · exact ⟨s, hs⟩
    · exact ⟨_, hs⟩
    · rw [hs]
      exact exec_answers i _

/-! Only SAMPLE and RESET reach the clocks, the phases, the filters, the noise and the delay memory. -/

/-- What only SAMPLE advances: the registers of R924 and what runs with them, but SUBDIV_COUNT, which an arm clears (R605). -/
structure TimeKept (s t : State) : Prop where
  beatCount : t.beatCount = s.beatCount
  lfsr : t.lfsr = s.lfsr
  kickPhase : t.kick.phase = s.kick.phase
  clickPhase : t.click.phase = s.click.phase
  snareIc1 : t.snare.ic1 = s.snare.ic1
  snareIc2 : t.snare.ic2 = s.snare.ic2
  hatIc1 : t.hat.ic1 = s.hat.ic1
  hatIc2 : t.hat.ic2 = s.hat.ic2
  dcX1 : t.dcX1 = s.dcX1
  dcY1 : t.dcY1 = s.dcY1
  fbState : t.fbState = s.fbState
  lfoPhase : t.lfoPhase = s.lfoPhase
  writeIndex : t.writeIndex = s.writeIndex
  dbuf : t.dbuf = s.dbuf
  lastPre : t.lastPre = s.lastPre
  lastL : t.lastL = s.lastL
  lastWet : t.lastWet = s.lastWet
  lastDrumBus : t.lastDrumBus = s.lastDrumBus

theorem TimeKept.refl (s : State) : TimeKept s s :=
  ⟨rfl, rfl, rfl, rfl, rfl, rfl, rfl, rfl, rfl, rfl, rfl, rfl, rfl, rfl, rfl, rfl, rfl, rfl⟩

theorem trigger_timeKept (v : Voice) (s : State) : TimeKept s (trigger v s) := by
  cases v <;> exact { TimeKept.refl s with }

theorem Effect.timeKept {i : Instr} {s t : State} (e : Effect i s t) (hx : ∀ x, i ≠ .sample x) (hr : i ≠ .reset) :
    TimeKept s t := by
  cases e with
  | sample x => exact absurd rfl (hx x)
  | reset => exact absurd rfl hr
  | buttonTrigger _ _ p v => exact { trigger_timeKept v { s with btnPrev := p } with }
  | trigger _ v => exact { trigger_timeKept v s with }
  | _ => exact { TimeKept.refl s with }

@[simp] theorem trigger_subdivCount (v : Voice) (s : State) : (trigger v s).subdivCount = s.subdivCount := by
  cases v <;> rfl

/-- SUBDIV_COUNT is kept, but for the arm's clearing (R605). -/
theorem Effect.subdivCount {i : Instr} {s t : State} (e : Effect i s t) (hx : ∀ x, i ≠ .sample x) (hr : i ≠ .reset) :
    t.subdivCount = s.subdivCount ∨ (∃ b lvl, i = .button b lvl) ∧ t.subdivCount = Config.zero := by
  cases e with
  | sample x => exact absurd rfl (hx x)
  | reset => exact absurd rfl hr
  | buttonPlay b lvl => exact .inr ⟨⟨b, lvl, rfl⟩, rfl⟩
  | argRange => exact .inl rfl
  | _ => exact .inl (by simp)

/-- Settles O15, over the effects of the commands. -/
theorem onlySampleAdvancesTime : Obligations.OnlySampleAdvancesTime := by
  intro i s t hx hr h
  have e := exec_effect h
  have k := e.timeKept hx hr
  exact ⟨k.beatCount, k.lfsr, k.kickPhase, k.clickPhase, k.snareIc1, k.snareIc2, k.hatIc1, k.hatIc2, k.dcX1, k.dcY1,
    k.fbState, k.lfoPhase, k.writeIndex, fun n => by rw [State.cell, State.cell, k.dbuf], k.lastPre, k.lastL,
    k.lastWet, k.lastDrumBus, e.subdivCount hx hr⟩

end Sys2Proof.Laws

/-! SAMPLE by its stages (spec 41_delay_line.md R401 to R408; 42_drum_voices.md R501 to R514; 43_clock_sequencer.md R600 to
R604; 45_sample_pipeline.md R800 to R806): each register it writes, as the value that its stage gives. -/

namespace Sys2Proof.Laws

open Sys2Proof.Machine Sys2Proof.Safety

theorem exec_sample (x : F32) (s : State) : exec (.sample x) s = .next (sampleStep Config.cfg x s) := rfl

/-- Settles O34, field by field. -/
theorem sampleFrame : Obligations.SampleFrame :=
  fun x s => ⟨_, exec_sample x s, sampleStep_delayTime .., sampleStep_feedback .., sampleStep_lfoRate ..,
    sampleStep_lfoDepth ..,
    sampleStep_mix .., sampleStep_tempoKnob .., sampleStep_bpm .., sampleStep_volume .., sampleStep_baseDelay ..,
    sampleStep_lfoInc .., sampleStep_drumset .., sampleStep_ctrl .., sampleStep_chg .., sampleStep_err ..,
    sampleStep_ovf .., sampleStep_errInfo .., sampleStep_btnPrev .., sampleStep_inbox ..⟩

/-! DelayProcess and MixStep. Each equation gives a register from the registers before the SAMPLE and from those that an
earlier step of the same SAMPLE wrote. -/

/-- The delay line's input (R803, R804). -/
theorem sampleStep_dcX1_eq (cfg : Cfg) (x : F32) (s : State) :
    (sampleStep cfg x s).dcX1 = delayInput cfg (sampleNan cfg s) x (sampleStep cfg x s).lastDrumBus := by
  simp only [sampleStep_dcX1, delayProcess_dcX1, sampleStep_lastDrumBus]

/-- Step 1 (R401). -/
theorem sampleStep_dcY1_eq (cfg : Cfg) (x : F32) (s : State) :
    (sampleStep cfg x s).dcY1 = dcBlock (sampleNan cfg s) (sampleStep cfg x s).dcX1 s.dcX1 s.dcY1 := by
  simp only [sampleStep_dcX1, sampleStep_dcY1, delayProcess_dcX1, delayProcess_dcY1, voicesStep_dcX1, voicesStep_dcY1,
    clockStep_dcX1, clockStep_dcY1]

/-- Steps 2 and 3 (R402, R403). -/
theorem sampleStep_lastL_eq (cfg : Cfg) (x : F32) (s : State) :
    (sampleStep cfg x s).lastL =
      delayLength cfg (sampleNan cfg s) s.baseDelay s.lfoDepth (sineAt cfg (sampleNan cfg s) s.lfoPhase) := by
  simp only [sampleStep_lastL, delayProcess_lastL, voicesStep_baseDelay, voicesStep_lfoDepth, voicesStep_lfoPhase,
    clockStep_baseDelay, clockStep_lfoDepth, clockStep_lfoPhase]

/-- Steps 4 and 5 (R404, R405). -/
theorem sampleStep_lastWet_eq (cfg : Cfg) (x : F32) (s : State) :
    (sampleStep cfg x s).lastWet = interpolate cfg (sampleNan cfg s) s.dbuf
      (readPos cfg (sampleNan cfg s) s.writeIndex (sampleStep cfg x s).lastL) := by
  rw [sampleStep_lastWet, delayProcess_lastWet, ← sampleStep_lastL]
  simp only [voicesStep_dbuf, clockStep_dbuf, voicesStep_writeIndex, clockStep_writeIndex]

/-- Step 6 (R406). -/
theorem sampleStep_fbState_eq (cfg : Cfg) (x : F32) (s : State) :
    (sampleStep cfg x s).fbState =
      feedbackFilter (sampleNan cfg s) s.fbState s.feedback (sampleStep cfg x s).lastWet := by
  rw [sampleStep_fbState, delayProcess_fbState, ← sampleStep_lastWet]
  simp only [voicesStep_fbState, clockStep_fbState, voicesStep_feedback, clockStep_feedback]

/-- Step 7 (R407). -/
theorem sampleStep_dbuf_eq (cfg : Cfg) (x : F32) (s : State) :
    (sampleStep cfg x s).dbuf = Memory.write s.dbuf (s.writeIndex % cfg.cap)
      (F32.add (sampleNan cfg s) (sampleStep cfg x s).dcY1 (sampleStep cfg x s).fbState) := by
  rw [sampleStep_dbuf, delayProcess_dbuf, ← sampleStep_fbState, sampleStep_dcY1, delayProcess_dcY1]
  simp only [voicesStep_dbuf, clockStep_dbuf, voicesStep_writeIndex, clockStep_writeIndex]

/-- Step 8 and MixStep (R408, R803, R804). -/
theorem sampleStep_lastPre (cfg : Cfg) (x : F32) (s : State) :
    (sampleStep cfg x s).lastPre = mixedOut cfg (sampleNan cfg s)
      (wetDryMix (sampleNan cfg s) s.mix (sampleStep cfg x s).dcY1 (sampleStep cfg x s).lastWet)
      (sampleStep cfg x s).lastDrumBus := (mk_lastPre ..).trans (by
  simp only [delayProcess_mix, voicesStep_mix, clockStep_mix, voicesStep_lastDrumBus, sampleStep_dcY1,
    sampleStep_lastWet, sampleStep_lastDrumBus])

/-- The output sample (R805). -/
theorem sampleStep_rsp (cfg : Cfg) (x : F32) (s : State) :
    (sampleStep cfg x s).rsp = outputSample cfg (sampleNan cfg s) s.volume (sampleStep cfg x s).lastPre :=
  (mk_rsp ..).trans (congrArg _ (mk_lastPre ..).symm)

/-- A SAMPLE writes no cell but the one at WRITE_INDEX (R407). -/
theorem sampleStep_cell_other {cfg : Cfg} (x : F32) {s : State} {n : Nat} (hw : s.writeIndex < cfg.cap)
    (hn : n < cfg.cap) (h : n ≠ s.writeIndex) : (sampleStep cfg x s).cell cfg n = s.cell cfg n := by
  rw [State.cell, Memory.cell, sampleStep_dbuf_eq, Nat.mod_eq_of_lt hn, Nat.mod_eq_of_lt hw, mem_read_write_other _ h,
    State.cell, Memory.cell, Nat.mod_eq_of_lt hn]

/-- The cell that a SAMPLE writes. -/
theorem sampleStep_cell_same {cfg : Cfg} (x : F32) {s : State} (hwf : Memory.wf s.dbuf) :
    (sampleStep cfg x s).cell cfg s.writeIndex =
      F32.add (sampleNan cfg s) (sampleStep cfg x s).dcY1 (sampleStep cfg x s).fbState := by
  rw [State.cell, Memory.cell, sampleStep_dbuf_eq, mem_read_write_same _ _ hwf]

/-- Settles O29: the eight steps in their order, each from the values of those before it. -/
theorem sampleDelayLine : Obligations.SampleDelayLine := by
  intro x s hwf hw
  refine ⟨_, exec_sample x s, ?_⟩
  intro nu capF xin xf lfo p len r1 r2 rp i0 frac b0 b1 d fb
  have hx : (sampleStep Config.cfg x s).dcX1 = xin := sampleStep_dcX1_eq ..
  have hf : (sampleStep Config.cfg x s).dcY1 = xf := (sampleStep_dcY1_eq ..).trans (by rw [hx]; rfl)
  have hl : (sampleStep Config.cfg x s).lastL = len := sampleStep_lastL_eq ..
  have hd : (sampleStep Config.cfg x s).lastWet = d := (sampleStep_lastWet_eq ..).trans (by rw [hl]; rfl)
  have hb : (sampleStep Config.cfg x s).fbState = fb := (sampleStep_fbState_eq ..).trans (by rw [hd]; rfl)
  refine ⟨hx, hf, sampleStep_lfoPhase .., hl, hd, hb, sampleStep_writeIndex .., fun n hn => ?_⟩
  split
  · next h => rw [h, sampleStep_cell_same x hwf, hf, hb]
  · next h => exact sampleStep_cell_other x hw hn h

/-- Settles O30: the default configuration mixes the drum bus in before the delay line. -/
theorem sampleOutput : Obligations.SampleOutput :=
  fun x s => ⟨_, exec_sample x s, sampleStep_lastPre .., sampleStep_rsp ..⟩

/-- Settles O31: the two forms of MixStep. -/
theorem mixStepFollowsDrumsIntoDelay : Obligations.MixStepFollowsDrumsIntoDelay := by
  intro cfg x s nu t out
  have hx : t.dcX1 = delayInput cfg nu x t.lastDrumBus := sampleStep_dcX1_eq ..
  have hpre : t.lastPre = mixedOut cfg nu out t.lastDrumBus := sampleStep_lastPre ..
  constructor <;> intro h <;> simp only [hx, hpre, delayInput, mixedOut, h, if_true, Bool.false_eq_true, if_false, and_self]

/-! ClockStep. -/

/-- SeqFire runs when the subdivision counter wraps while PLAYING (R602). -/
theorem seqFires_iff (cfg : Cfg) (nu : NanRule) (s : State) : seqFires cfg nu s = true ↔
    counterWraps nu s.subdivCount (subInterval cfg nu s.bpm) = true ∧ s.seqState = .playing := by
  simp only [seqFires, State.playing, Bool.and_eq_true, beq_iff_eq]

/-- Settles O32: the last step of the pattern, an earlier step, and no step. -/
theorem sampleClockAndSequencer : Obligations.SampleClockAndSequencer := by
  intro x s
  refine ⟨_, exec_sample x s, ?_⟩
  intro nu beatIv subIv b c
  have fires : seqFires Config.cfg nu s = true ↔ F32.ge c subIv = true ∧ s.seqState = .playing := seqFires_iff ..
  refine ⟨(sampleStep_beatCount ..).trans (clockStep_beatCount ..),
    (sampleStep_subdivCount ..).trans (clockStep_subdivCount ..), fun hf => ⟨fun hend => ?last, fun hend => ?next⟩,
    fun hf => ?none, sampleStep_chg ..⟩
  case last =>
    have ends : patternEnds Config.cfg nu s = true := by simp [patternEnds, fires.2 hf, hend]
    rw [sampleStep_stepIdx, sampleStep_seqState, clockStep_stepIdx, clockStep_seqState]
    exact ⟨if_pos ends, if_pos ends⟩
  case next =>
    have ends : ¬ patternEnds Config.cfg nu s = true := by simp [patternEnds, fires.2 hf, hend]
    rw [sampleStep_stepIdx, sampleStep_seqState, clockStep_stepIdx, clockStep_seqState]
    exact ⟨(if_neg ends).trans (if_pos (fires.2 hf)), (if_neg ends).trans hf.2⟩
  case none =>
    have noFire : ¬ seqFires Config.cfg nu s = true := mt fires.1 hf
    have ends : ¬ patternEnds Config.cfg nu s = true := by simp [patternEnds, noFire]
    rw [sampleStep_stepIdx, sampleStep_seqState, clockStep_stepIdx, clockStep_seqState]
    exact ⟨(if_neg ends).trans (if_neg noFire), if_neg ends⟩

/-! What a trigger leaves of a voice's next state and output: only the envelope is another. -/

theorem osc_next_withEnv (nu : NanRule) (v : OscVoice) (e : Envelope) :
    OscVoice.next nu { v with env := e } = { v with phase := phaseNext nu v.phase v.inc, env := e.next nu } := (rfl)

theorem filter_next_withEnv (nu : NanRule) (n : F32) (v : FilterVoice) (e : Envelope) :
    FilterVoice.next nu n { v with env := e } = { v with
      ic1 := F32.sub nu (F32.mul nu Config.two (v.band nu n)) v.ic1
      ic2 := F32.sub nu (F32.mul nu Config.two (v.low nu n)) v.ic2
      env := e.next nu } := (rfl)

theorem osc_out_withEnv (cfg : Cfg) (nu : NanRule) (gain : F32) (v : OscVoice) (e : Envelope) :
    OscVoice.out cfg nu gain { v with env := e } = voiceOut nu (sineAt cfg nu v.phase) e.level gain := (rfl)

theorem band_withEnv (nu : NanRule) (n : F32) (v : FilterVoice) (e : Envelope) :
    FilterVoice.band nu n { v with env := e } = v.band nu n := (rfl)

theorem high_withEnv (nu : NanRule) (n : F32) (v : FilterVoice) (e : Envelope) :
    FilterVoice.high nu n { v with env := e } = v.high nu n := (rfl)

/-- The drum bus of a SAMPLE: each source times its voice's level after the triggers of ClockStep, before EnvStep. -/
theorem drumBus_clockStep (cfg : Cfg) (nu : NanRule) (s : State) : drumBus cfg nu (clockStep cfg nu s) =
    F32.add nu (F32.add nu (F32.add nu
      (voiceOut nu (sineAt cfg nu s.kick.phase) (s.kick.env.triggerIf (stepFires cfg nu .kick s)).level (cfg.voiceGain .kick))
      (voiceOut nu (s.snare.band nu (noiseValue nu s.lfsr)) (s.snare.env.triggerIf (stepFires cfg nu .snare s)).level
        (cfg.voiceGain .snare)))
      (voiceOut nu (s.hat.high nu (noiseValue nu s.lfsr)) (s.hat.env.triggerIf (stepFires cfg nu .hat s)).level
        (cfg.voiceGain .hat)))
      (voiceOut nu (sineAt cfg nu s.click.phase) (s.click.env.triggerIf (beatWraps cfg nu s)).level
        (cfg.voiceGain .click)) := by
  simp only [drumBus, clockStep_lfsr, clockStep_kick, clockStep_snare, clockStep_hat, clockStep_click, osc_out_withEnv,
    band_withEnv, high_withEnv]

/-- Settles O33: ClockStep's triggers, then each voice's step and the bus. -/
theorem sampleVoices : Obligations.SampleVoices := by
  intro x s
  refine ⟨_, exec_sample x s, ?_⟩
  intro nu beatIv subIv fires started eKick eSnare eHat eClick n turn wave band low high filtered out
  have triggered (b : Bool) (e : Envelope) : e.triggerIf b = started b e := by cases b <;> rfl
  have kick : s.kick.env.triggerIf (stepFires Config.cfg nu .kick s) = eKick := triggered _ _
  have snare : s.snare.env.triggerIf (stepFires Config.cfg nu .snare s) = eSnare := triggered _ _
  have hat : s.hat.env.triggerIf (stepFires Config.cfg nu .hat s) = eHat := triggered _ _
  have click : s.click.env.triggerIf (beatWraps Config.cfg nu s) = eClick := triggered _ _
  refine ⟨sampleStep_lfsr .., ?_, ?_, ?_, ?_, ?_⟩
  · rw [sampleStep_kick, clockStep_kick, osc_next_withEnv, kick]; rfl
  · rw [sampleStep_snare, clockStep_snare, filter_next_withEnv, snare]; rfl
  · rw [sampleStep_hat, clockStep_hat, filter_next_withEnv, hat]; rfl
  · rw [sampleStep_click, clockStep_click, osc_next_withEnv, click]; rfl
  · rw [sampleStep_lastDrumBus, drumBus_clockStep, kick, snare, hat, click]; rfl

/-- A sequencer that is not PLAYING fires no step (R602). -/
theorem seqFires_of_not_playing {cfg : Cfg} {nu : NanRule} {s : State} (h : s.seqState ≠ .playing) :
    seqFires cfg nu s = false :=
  Bool.eq_false_iff.2 fun hf => h ((seqFires_iff ..).1 hf).2

/-- Settles O46: with no step fired, no trigger precedes EnvStep. -/
theorem stoppedSequencerFiresNothing : Obligations.StoppedSequencerFiresNothing := by
  intro x s h
  have noFire := seqFires_of_not_playing (cfg := Config.cfg) (nu := sampleNan Config.cfg s) h
  have noTrigger (v : PatVoice) : stepFires Config.cfg (sampleNan Config.cfg s) v s = false := by simp [stepFires, noFire]
  refine ⟨_, exec_sample x s, ?_, ?_, ?_, ?_, ?_⟩
  · rw [sampleStep_seqState, clockStep_seqState, patternEnds, noFire]; rfl
  · rw [sampleStep_stepIdx, clockStep_stepIdx, patternEnds, noFire]; rfl
  · rw [sampleStep_kick, clockStep_kick, noTrigger]; rfl
  · rw [sampleStep_snare, clockStep_snare, noTrigger]; rfl
  · rw [sampleStep_hat, clockStep_hat, noTrigger]; rfl

/-! Runs of SAMPLEs, and what a SAMPLE does not depend on. -/

/-- The state after the SAMPLEs of a list of inputs. -/
def samples (cfg : Cfg) (xs : List F32) (s : State) : State := xs.foldl (fun u x => sampleStep cfg x u) s

theorem samples_writeIndex {cfg : Cfg} (xs : List F32) {s : State} (hw : s.writeIndex < cfg.cap) :
    (samples cfg xs s).writeIndex = (s.writeIndex + xs.length) % cfg.cap := by
  induction xs generalizing s with
  | nil => exact (Nat.mod_eq_of_lt hw).symm
  | cons x xs ih =>
    have hnext : (sampleStep cfg x s).writeIndex < cfg.cap := by
      rw [sampleStep_writeIndex]
      exact Nat.mod_lt _ (by omega)
    rw [samples, List.foldl_cons, ← samples, ih hnext, sampleStep_writeIndex, Nat.mod_add_mod, List.length_cons]
    congr 1
    omega

/-- A cell that the run does not pass is unchanged. -/
theorem samples_cell_other {cfg : Cfg} (xs : List F32) {s : State} {n : Nat} (hw : s.writeIndex < cfg.cap)
    (hn : n < cfg.cap) (h : ∀ k, k < xs.length → n ≠ (s.writeIndex + k) % cfg.cap) :
    (samples cfg xs s).cell cfg n = s.cell cfg n := by
  induction xs generalizing s with
  | nil => rfl
  | cons x xs ih =>
    have first : n ≠ s.writeIndex := by
      have := h 0 (by simp)
      rwa [Nat.add_zero, Nat.mod_eq_of_lt hw] at this
    have rest : ∀ k, k < xs.length → n ≠ ((sampleStep cfg x s).writeIndex + k) % cfg.cap := fun k hk => by
      rw [sampleStep_writeIndex, Nat.mod_add_mod, Nat.add_assoc, Nat.add_comm 1 k]
      exact h (k + 1) (by simpa using hk)
    rw [samples, List.foldl_cons, ← samples, ih (by rw [sampleStep_writeIndex]; exact Nat.mod_lt _ (by omega)) rest]
    exact sampleStep_cell_other x hw hn first

/-- Settles O36, by induction on the list of inputs. -/
theorem samplesWriteConsecutiveCells : Obligations.SamplesWriteConsecutiveCells := by
  intro xs s hw t
  have run : t = samples Config.cfg xs s := rfl
  rw [run]
  exact ⟨samples_writeIndex xs hw, fun n hn h => samples_cell_other xs hw hn h⟩

/-- The state with other contents of VOLUME, the port and the response. -/
def withPorts (volume : F32) (inbox : List Command) (rsp : Word) (s : State) : State := { s with volume, inbox, rsp }

/-- No stage of a SAMPLE reads the port or the response, and only the output sample reads VOLUME (R806). -/
theorem sampleStep_withPorts (cfg : Cfg) (x volume : F32) (inbox : List Command) (rsp : Word) (s : State) :
    sampleStep cfg x (withPorts volume inbox rsp s) =
      withPorts volume inbox (outputSample cfg (sampleNan cfg s) volume (sampleStep cfg x s).lastPre)
        (sampleStep cfg x s) := (rfl)

/-- Settles O35: the two runs differ in VOLUME and the response alone. -/
theorem outputDoesNotReachTheNextState : Obligations.OutputDoesNotReachTheNextState := by
  intro x v r s t t' ht ht'
  cases (exec_sample x s).symm.trans ht
  cases (exec_sample x (withPorts v s.inbox r s)).symm.trans ht'
  rw [sampleStep_withPorts]
  refine ⟨?_, rfl⟩
  rw [withPorts, sampleStep_inbox]

end Sys2Proof.Laws

/-! The commands one by one (spec 43_clock_sequencer.md R605, R620, R621; 44_host_commands.md R701 to R715; 41_delay_line.md
R410 to R414): what `exec` answers in each branch. -/

namespace Sys2Proof.Laws

open Sys2Proof.Machine Sys2Proof.Safety

/-! Each command with more than one outcome, by the condition that decides. -/

theorem exec_button_of_ok {b : BitVec 8} (hb : b.toNat ≤ 2) (lvl : Bool) (s : State) :
    exec (.button b lvl) s = .next (respond 0#32 (buttonLevel b.toNat lvl s)) := by
  simp only [exec, execButton, Operand.buttonOk, hb, decide_true, if_true]

theorem exec_button_of_not_ok {b : BitVec 8} (hb : 2 < b.toNat) (lvl : Bool) (s : State) :
    exec (.button b lvl) s = .next (argRangeError (.button b lvl) s) := by
  simp only [exec, execButton, Operand.buttonOk, decide_eq_false (Nat.not_le.2 hb), Bool.false_eq_true, if_false]

theorem exec_trigger_of_none {n : BitVec 8} (hn : voiceOf n = none) (s : State) :
    exec (.trigger n) s = .next (argRangeError (.trigger n) s) := by
  simp only [exec, execTrigger, hn]

theorem exec_setDrumset_of_ge {j : BitVec 8} (hj : 6 ≤ j.toNat) (s : State) :
    exec (.setDrumset j) s = .next (argRangeError (.setDrumset j) s) := by
  simp only [exec, execSetDrumset, dif_neg (Nat.not_lt.2 hj)]

theorem exec_readParam_of_some {n : BitVec 8} {s : State} {v : Word} (hv : readReg s n = some v) :
    exec (.readParam n) s = .next (respond v s) := by
  simp only [exec, execReadParam, hv]

theorem exec_readParam_of_none {n : BitVec 8} {s : State} (hn : readReg s n = none) :
    exec (.readParam n) s = .next (argRangeError (.readParam n) s) := by
  simp only [exec, execReadParam, hn]

theorem encStep_of_manual {s : State} (h : s.seqState = .manual) (cfg : Cfg) (inc : Int) :
    encStep cfg inc s = selectDrumSet cfg (encDrumset s.drumset inc) s := by
  simp only [encStep, h]

theorem encStep_of_not_manual {s : State} (h : s.seqState ≠ .manual) (cfg : Cfg) (inc : Int) :
    encStep cfg inc s = { s with
      mix := F32.clamp (F32.add (setupNan cfg) s.mix (F32.mul (setupNan cfg) (F32.ofInt inc) cfg.mixStep))
        Config.zero Config.one } := by
  rcases encStep_cases cfg inc s with ⟨hm, -⟩ | ⟨-, he⟩
  · exact absurd hm h
  · exact he

/-! The port plays no part in a command's execution. -/

/-- The state with other commands presented. -/
def withInbox (q : List Command) (s : State) : State := { s with inbox := q }

theorem trigger_withInbox (v : Voice) (q : List Command) (s : State) :
    trigger v (withInbox q s) = withInbox q (trigger v s) := by cases v <;> rfl

theorem risingEdge_withInbox (b : Nat) (q : List Command) (s : State) :
    risingEdge b (withInbox q s) = withInbox q (risingEdge b s) := by
  rcases b with _ | _ | _ | b <;> rcases hs : s.seqState <;> simp [risingEdge, withInbox, hs, trigger]

theorem buttonLevel_withInbox (b : Nat) (lvl : Bool) (q : List Command) (s : State) :
    buttonLevel b lvl (withInbox q s) = withInbox q (buttonLevel b lvl s) := by
  rcases buttonLevel_cases b lvl s with ⟨hp, hl, h⟩ | ⟨hp, h⟩ <;> rw [h]
  · rw [← risingEdge_withInbox, buttonLevel]
    exact if_pos (by simp [withInbox, hp, hl])
  · rw [buttonLevel]
    exact if_neg (by rcases hp with hp | hp <;> simp [withInbox, hp])

theorem encStep_withInbox (cfg : Cfg) (inc : Int) (q : List Command) (s : State) :
    encStep cfg inc (withInbox q s) = withInbox q (encStep cfg inc s) := by
  by_cases h : s.seqState = .manual
  · rw [encStep_of_manual h, encStep_of_manual (s := withInbox q s) h]; rfl
  · rw [encStep_of_not_manual h, encStep_of_not_manual (s := withInbox q s) h]; rfl

/-- A command has the same effect whatever else is presented. -/
theorem exec_withInbox {i : Instr} {s t : State} (h : exec i s = .next t) (q : List Command) :
    exec i (withInbox q s) = .next (withInbox q t) := by
  cases i with
  | encInc n =>
    cases h
    exact congrArg (fun u => Host.Outcome.next (respond 0#32 u)) (encStep_withInbox Config.cfg _ q s)
  | button b lvl =>
    rcases exec_button_cases h with ⟨hb, rfl⟩ | ⟨hb, rfl⟩
    · rw [exec_button_of_ok hb, buttonLevel_withInbox]; rfl
    · exact exec_button_of_not_ok hb lvl _
  | trigger n =>
    rcases exec_trigger_cases h with ⟨v, hv, rfl⟩ | ⟨hv, rfl⟩
    · rw [exec_trigger_of_voice hv, trigger_withInbox]; rfl
    · exact exec_trigger_of_none hv _
  | setDrumset j =>
    rcases exec_setDrumset_cases h with ⟨hj, rfl⟩ | ⟨hj, rfl⟩
    · exact exec_setDrumset_of_lt hj _
    · exact exec_setDrumset_of_ge hj _
  | readParam n =>
    rcases exec_readParam_cases h with ⟨v, hv, rfl⟩ | ⟨hv, rfl⟩
    · exact exec_readParam_of_some hv
    · exact exec_readParam_of_none hv
  | _ => cases h; rfl

/-- Settles O10: the step takes the oldest command from either port, and executes it alike. -/
theorem laterCommandsDoNotAffectAStep : Obligations.LaterCommandsDoNotAffectAStep := by
  intro s t c r₁ r₂ hin hst
  have hin₂ : (withInbox (c :: r₂) s).inbox = c :: r₂ := rfl
  cases hd : decode c.cmd c.data with
  | error e =>
    cases (step_of_decode_error hin hd).symm.trans hst
    exact step_of_decode_error hin₂ hd
  | ok i => exact (step_of_decode_ok hin₂ hd).trans (exec_withInbox ((step_of_decode_ok hin hd).symm.trans hst) r₂)

/-! Setters and knobs. -/

/-- Settles O49. -/
theorem delaySettersClampAndStore : Obligations.DelaySettersClampAndStore := fun _ _ => ⟨rfl, rfl, rfl, rfl, rfl⟩

/-- Settles O50. -/
theorem knobsClampAndMap : Obligations.KnobsClampAndMap := fun _ _ => ⟨rfl, rfl, rfl, rfl⟩

/-- Settles O57. -/
theorem resetIsPowerOn : Obligations.ResetIsPowerOn := fun _ => rfl

/-! The register space has no register at the numbers that R118 reserves. -/

theorem readControlReg_eq_none (s : State) {k : Nat} (h : 0xE ≤ k) (hk : k < 16) : s.readControlReg k = none := by
  interval_cases k <;> rfl

theorem readDelayReg_eq_none (s : State) {k : Nat} (h : 0x5 ≤ k) (hk : k < 16) : s.readDelayReg k = none := by
  interval_cases k <;> rfl

theorem oscVoice_readReg_eq_none (v : OscVoice) {k : Nat} (h : 0xD ≤ k) (hk : k < 16) : v.readReg k = none := by
  interval_cases k <;> rfl

theorem filterVoice_readReg_eq_none (v : FilterVoice) {k : Nat} (h : 0xD ≤ k) (hk : k < 16) : v.readReg k = none := by
  interval_cases k <;> rfl

theorem readSeqReg_eq_none (s : State) {k : Nat} (h : 0xA ≤ k) (hk : k < 16) : s.readSeqReg k = none := by
  interval_cases k <;> rfl

theorem readReg_eq_none (s : State) {n : BitVec 8} (h : Operand.regOk n = false) : readReg s n = none := by
  have hn : Operand.regReserved n = true := by simpa [Operand.regOk] using h
  rw [regReserved_iff] at hn
  have hblock : n.toNat / 16 < 16 := by omega
  rw [readReg]
  interval_cases hb : n.toNat / 16
  · exact readControlReg_eq_none s (by omega) (by omega)
  · exact readDelayReg_eq_none s (by omega) (by omega)
  · exact oscVoice_readReg_eq_none s.kick (by omega) (by omega)
  · exact filterVoice_readReg_eq_none s.snare (by omega) (by omega)
  · exact filterVoice_readReg_eq_none s.hat (by omega) (by omega)
  · exact oscVoice_readReg_eq_none s.click (by omega) (by omega)
  · exact readSeqReg_eq_none s (by omega) (by omega)
  all_goals rfl

/-- Settles O59: the four commands whose ARG has a range, each outside it. -/
theorem execOutsideTheArgRangeRecordsArgRange : Obligations.ExecOutsideTheArgRangeRecordsArgRange := by
  intro i s hwf
  have recorded : exec i s = .next (argRangeError i s) := by
    cases i with
    | button b lvl => exact exec_button_of_not_ok (Nat.not_le.1 (of_decide_eq_false hwf)) lvl s
    | trigger v =>
      refine exec_trigger_of_none ?_ s
      have hv := of_decide_eq_false hwf
      revert v; decide
    | setDrumset j => exact exec_setDrumset_of_ge (Nat.not_le.1 (of_decide_eq_false hwf)) s
    | readParam n => exact exec_readParam_of_none (readReg_eq_none s hwf)
    | _ => cases hwf
  rw [recorded, argRangeError_eq, errInfoWord_eq]
  rfl

/-- Settles O53: the register space answers each number of the state file with its register. -/
theorem readParamAnswersTheRegister : Obligations.ReadParamAnswersTheRegister := by
  intro s stage sequencer controlRegs delayLineRegs kickRegs snareRegs hatRegs clickRegs clockRegs
  have registers : ∀ r ∈ controlRegs ++ delayLineRegs ++ kickRegs ++ snareRegs ++ hatRegs ++ clickRegs ++ clockRegs,
      readReg s r.1 = some r.2 := by
    simp only [controlRegs, delayLineRegs, kickRegs, snareRegs, hatRegs, clickRegs, clockRegs, List.forall_mem_append,
      List.forall_mem_cons, List.not_mem_nil, false_implies, implies_true, and_true, BitVec.ofNat_toNat]
    and_intros <;> rfl
  exact fun r hr => exec_readParam_of_some (registers r hr)

/-! READ_STATUS. -/

/-- The fields of a STATUS word (R108). -/
theorem statusWord_fields : ∀ (d : Fin 6) (mode playing chg err ovf : Bool),
    let w := BitVec.ofNat 32 d.val ||| flagAt mode 4 ||| flagAt playing 5 ||| flagAt chg 8 ||| flagAt err 9 ||| flagAt ovf 10
    (w &&& 0x7#32).toNat = d.val ∧ w.getLsbD 3 = false ∧ w.getLsbD 4 = mode ∧ w.getLsbD 5 = playing ∧
    w.getLsbD 6 = false ∧ w.getLsbD 7 = false ∧ w.getLsbD 8 = chg ∧ w.getLsbD 9 = err ∧ w.getLsbD 10 = ovf ∧
    w >>> 11 = 0#32 := by decide +kernel

/-- Settles O52: the response is the STATUS word, read field by field. -/
theorem readStatusAnswersAndClears : Obligations.ReadStatusAnswersAndClears := by
  intro s
  obtain ⟨hset, h3, hmode, hplaying, h6, h7, hchg, herr, hovf, hrest⟩ :=
    statusWord_fields s.drumset s.mode s.playing s.chg s.err s.ovf
  refine ⟨s.status, exec_readStatus s, hset, h3, ?mode, ?playing, h6, h7, hchg, herr, hovf, hrest⟩
  case mode => exact (iff_of_eq (congrArg (· = true) hmode)).trans bne_iff_ne
  case playing => exact (iff_of_eq (congrArg (· = true) hplaying)).trans beq_iff_eq

/-! BUTTON. -/

/-- Recording a level writes the button's bit of BTN_PREV alone. -/
theorem recordLevel_getLsbD : ∀ b ≤ 2, ∀ lvl (p : BitVec 3), ∀ n < 3,
    (recordLevel b lvl p).getLsbD n = if n = b then lvl else p.getLsbD n := by decide

@[simp] theorem trigger_btnPrev (v : Voice) (s : State) : (trigger v s).btnPrev = s.btnPrev := by cases v <;> rfl

theorem risingEdge_btnPrev (b : Nat) (s : State) : (risingEdge b s).btnPrev = s.btnPrev := by
  rcases risingEdge_cases b s with ⟨-, h⟩ | ⟨-, -, h⟩ | ⟨-, -, h⟩ | ⟨-, -, -, h⟩ | ⟨-, -, -, h⟩ <;> rw [h]
  all_goals exact trigger_btnPrev _ s

theorem buttonLevel_btnPrev (b : Nat) (lvl : Bool) (s : State) :
    (buttonLevel b lvl s).btnPrev = recordLevel b lvl s.btnPrev := by
  rcases buttonLevel_cases b lvl s with ⟨-, -, h⟩ | ⟨-, h⟩ <;> rw [h]
  exact risingEdge_btnPrev ..

theorem buttonLevel_of_edge {b : Nat} {lvl : Bool} {s t : State} (h : s.btnPrev.getLsbD b = false ∧ lvl = true)
    (ht : risingEdge b { s with btnPrev := recordLevel b lvl s.btnPrev } = t) : buttonLevel b lvl s = t := by
  obtain ⟨hp, rfl⟩ := h
  simp only [buttonLevel, hp, Bool.not_false, Bool.and_self, if_true, ht]

theorem buttonLevel_of_no_edge {b : Nat} {lvl : Bool} {s : State} (h : ¬ (s.btnPrev.getLsbD b = false ∧ lvl = true)) :
    buttonLevel b lvl s = { s with btnPrev := recordLevel b lvl s.btnPrev } := by
  rcases buttonLevel_cases b lvl s with ⟨hp, hl, -⟩ | ⟨-, he⟩
  · exact absurd ⟨hp, hl⟩ h
  · exact he

/-- The transition table of R605, button by button. -/
theorem risingEdge_b0_manual {s : State} (h : s.seqState = .manual) : risingEdge 0 s = trigger .kick s := by
  simp only [risingEdge, h]

theorem risingEdge_b0_armed {s : State} (h : s.seqState = .armed) :
    risingEdge 0 s = { s with seqState := .playing, stepIdx := 0, subdivCount := Config.zero } := by
  simp only [risingEdge, h]

theorem risingEdge_b0_playing {s : State} (h : s.seqState = .playing) : risingEdge 0 s = s := by
  simp only [risingEdge, h]

theorem risingEdge_b1_manual {s : State} (h : s.seqState = .manual) : risingEdge 1 s = trigger .snare s := by
  simp only [risingEdge, h]

theorem risingEdge_b1_not_manual {s : State} (h : s.seqState ≠ .manual) : risingEdge 1 s = s := by
  rcases hs : s.seqState
  · exact absurd hs h
  · simp only [risingEdge, hs]
  · simp only [risingEdge, hs]

/-- Settles O47: the level recorded, then the row of the transition table. -/
theorem buttonDrivesTheSequencer : Obligations.ButtonDrivesTheSequencer := by
  intro b lvl s hb
  refine ⟨_, exec_button_of_ok hb lvl s, ?_⟩
  have recorded : (respond 0#32 (buttonLevel b.toNat lvl s)).btnPrev = recordLevel b.toNat lvl s.btnPrev :=
    buttonLevel_btnPrev ..
  rw [recorded]
  refine ⟨recordLevel_getLsbD b.toNat hb lvl s.btnPrev, ?none, ?enc, ?kick, ?play, ?idle, ?snare, ?other⟩
  case none => intro h; rw [buttonLevel_of_no_edge h]; rfl
  case enc => rintro h rfl; rw [buttonLevel_of_edge h rfl]; rfl
  case kick => rintro h rfl hs; rw [buttonLevel_of_edge h (risingEdge_b0_manual hs)]; rfl
  case play => rintro h rfl hs; rw [buttonLevel_of_edge h (risingEdge_b0_armed hs)]; rfl
  case idle => rintro h rfl hs; rw [buttonLevel_of_edge h (risingEdge_b0_playing hs)]; rfl
  case snare => rintro h rfl hs; rw [buttonLevel_of_edge h (risingEdge_b1_manual hs)]; rfl
  case other => rintro h rfl hs; rw [buttonLevel_of_edge h (risingEdge_b1_not_manual hs)]; rfl

/-! ENC_INC and SET_DRUMSET. -/

/-- SET_DRUMSET of an index as READ_PARAM shows it (R521). -/
theorem exec_setDrumset_index (i : Fin 6) (s : State) :
    exec (.setDrumset (BitVec.ofNat 8 i.val)) s = .next (respond 0#32 (selectDrumSet Config.cfg i s)) := by
  have hval : (BitVec.ofNat 8 i.val).toNat = i.val := by
    rw [BitVec.toNat_ofNat]
    exact Nat.mod_eq_of_lt (by omega)
  rw [exec_setDrumset_of_lt (hval.trans_lt i.isLt)]
  simp only [hval]

/-- R621's index is Euclidean. -/
theorem encDrumset_val (i : Fin 6) (inc : Int) : ((encDrumset i inc).val : Int) = ((i.val : Int) + inc) % 6 := by
  simp only [encDrumset, Fin.val_ofNat]
  omega

/-- Settles O48: in MANUAL the index of R621, selected as SET_DRUMSET does; else MIX. -/
theorem encIncTurnsTheSetOrTheMix : Obligations.EncIncTurnsTheSetOrTheMix := by
  refine ⟨fun inc s hm => ?manual, fun inc s hm => ?preset⟩
  case manual =>
    have answer : exec (.encInc inc) s =
        .next (respond 0#32 (selectDrumSet Config.cfg (encDrumset s.drumset inc.toInt) s)) :=
      congrArg (fun u => Host.Outcome.next (respond 0#32 u)) (encStep_of_manual hm Config.cfg inc.toInt)
    exact ⟨_, answer, encDrumset_val .., exec_setDrumset_index ..⟩
  case preset =>
    exact congrArg (fun u => Host.Outcome.next (respond 0#32 u)) (encStep_of_not_manual hm Config.cfg inc.toInt)

/-- Loading the parameters that a kick already holds changes nothing. -/
theorem osc_load_of_tuned {attack decay freq : F32} {v : OscVoice} (h : OscTuned attack decay freq v) :
    v.load Config.cfg freq decay = v := by
  rw [OscVoice.load, ← h.inc, ← h.dinc, ← h.freq_eq]

/-- Loading the parameters that a snare or hat already holds changes nothing. -/
theorem filter_load_of_tuned {attack decay freq res : F32} {v : FilterVoice}
    (h : FilterTuned attack decay freq res v) : v.load Config.cfg freq decay = v := by
  rw [FilterVoice.load, h.k, ← h.a1, ← h.a2, ← h.a3, ← h.dinc, ← h.freq_eq, ← h.k]

/-- Settles O45: DRUMSET keeps its value, so CHG does, and each load changes nothing. -/
theorem selectingTheCurrentSetChangesNothing : Obligations.SelectingTheCurrentSetChangesNothing := by
  intro s h
  have same : selectDrumSet Config.cfg s.drumset s = s := by
    simp only [selectDrumSet, applyDrumSet, osc_load_of_tuned h.kick, filter_load_of_tuned h.snare,
      filter_load_of_tuned h.hat, ne_eq, not_true_eq_false, decide_false, Bool.or_false]
  rw [exec_setDrumset_index, same]
  rfl

end Sys2Proof.Laws

/-! Envelopes, coefficients and the values at reset (spec 42_drum_voices.md R502 to R508; 70_reset_and_hazards.md R1000 to
R1003), and the delay memory as data (20_memory.md R200). -/

namespace Sys2Proof.Laws

open Sys2Proof.Machine Sys2Proof.Safety

/-! EnvStep, stage by stage (R502). -/

section EnvStep

variable {nu : NanRule} {e : Envelope}

theorem next_of_idle (h : e.stage = .idle) : e.next nu = e := by simp only [Envelope.next, h]

theorem next_of_attack_top (h : e.stage = .attack) (htop : F32.ge (F32.add nu e.level e.ainc) Config.one = true) :
    e.next nu = { e with level := Config.one, stage := .decay } := by
  simp only [Envelope.next, h, htop, if_true]

theorem next_of_attack_below (h : e.stage = .attack) (htop : F32.ge (F32.add nu e.level e.ainc) Config.one = false) :
    e.next nu = { e with level := F32.add nu e.level e.ainc } := by
  simp only [Envelope.next, h, htop, Bool.false_eq_true, if_false]

theorem next_of_decay_bottom (h : e.stage = .decay) (hlow : F32.le (F32.sub nu e.level e.dinc) Config.zero = true) :
    e.next nu = { e with level := Config.zero, stage := .idle } := by
  simp only [Envelope.next, h, hlow, if_true]

theorem next_of_decay_above (h : e.stage = .decay) (hlow : F32.le (F32.sub nu e.level e.dinc) Config.zero = false) :
    e.next nu = { e with level := F32.sub nu e.level e.dinc } := by
  simp only [Envelope.next, h, hlow, Bool.false_eq_true, if_false]

end EnvStep

/-- Settles O38. -/
theorem envStepFollowsItsStages : Obligations.EnvStepFollowsItsStages :=
  fun _ _ => ⟨next_of_idle, next_of_attack_top, next_of_attack_below, next_of_decay_bottom, next_of_decay_above⟩

/-- The running sum of an increment (R517). -/
def runningSum (nu : NanRule) (inc : F32) (k : Nat) : F32 := (fun l => F32.add nu l inc)^[k] Config.zero

theorem runningSum_succ (nu : NanRule) (inc : F32) (k : Nat) :
    runningSum nu inc (k + 1) = F32.add nu (runningSum nu inc k) inc := Function.iterate_succ_apply' ..

/-- While the sum stays below 1.0, the level of a triggered envelope is the sum. -/
theorem attack_of_sum_below {nu : NanRule} {e : Envelope} {k : Nat}
    (h : ∀ j, 1 ≤ j → j ≤ k → F32.ge (runningSum nu e.ainc j) Config.one = false) :
    (Envelope.next nu)^[k] e.trigger = { e with stage := .attack, level := runningSum nu e.ainc k } := by
  induction k with
  | zero => rfl
  | succ k ih =>
    have below := h (k + 1) (by omega) (Nat.le_refl _)
    rw [runningSum_succ] at below ⊢
    rw [Function.iterate_succ_apply', ih fun j h1 hj => h j h1 (by omega)]
    exact next_of_attack_below (e := { e with stage := .attack, level := runningSum nu e.ainc k }) rfl below

/-- Settles O39, by induction on the number of EnvSteps. -/
theorem attackIsTheSumOfIncrements : Obligations.AttackIsTheSumOfIncrements := by
  intro nu e k sum h
  have ramp := attack_of_sum_below (nu := nu) (e := e) (k := k) h
  refine ⟨ramp, fun htop => ?_⟩
  have top : F32.ge (F32.add nu (runningSum nu e.ainc k) e.ainc) Config.one = true := by
    rw [← runningSum_succ]
    exact htop
  rw [Function.iterate_succ_apply', ramp]
  exact next_of_attack_top (e := { e with stage := .attack, level := runningSum nu e.ainc k }) rfl top

/-! The increments and coefficients. -/

theorem envInc_of_gt {cfg : Cfg} {t : F32} (h : F32.gt (F32.mul (setupNan cfg) t (fsF cfg)) Config.one = true) :
    envInc cfg t = F32.div (setupNan cfg) Config.one (F32.mul (setupNan cfg) t (fsF cfg)) := if_pos h

theorem envInc_of_not_gt {cfg : Cfg} {t : F32} (h : F32.gt (F32.mul (setupNan cfg) t (fsF cfg)) Config.one = false) :
    envInc cfg t = Config.one := if_neg (Bool.eq_false_iff.1 h)

/-- EnvInc of the attack times and of the click's decay time, at 48000 Hz whatever the rest of the configuration is. -/
theorem envInc_atkKick : envInc Config.cfg Config.atkKick = 0x3CAAAAAA#32 := by decide +kernel
theorem envInc_atkClick : envInc Config.cfg Config.atkClick = 0x3D2AAAAA#32 := by decide +kernel
theorem envInc_decClick : envInc Config.cfg Config.decClick = 0x3B088889#32 := by decide +kernel

/-- The damping of both filters (R508). -/
theorem svfK_resonance : svfK Config.cfg Config.resSnare = 0x3F19999A#32 := by decide +kernel

/-- What no command but RESET writes: the attack increments and the click's decay increment (R503). -/
structure IncrementsKept (s t : State) : Prop where
  kick : t.kick.env.ainc = s.kick.env.ainc
  snare : t.snare.env.ainc = s.snare.env.ainc
  hat : t.hat.env.ainc = s.hat.env.ainc
  click : t.click.env.ainc = s.click.env.ainc
  clickDecay : t.click.env.dinc = s.click.env.dinc

theorem IncrementsKept.refl (s : State) : IncrementsKept s s := ⟨rfl, rfl, rfl, rfl, rfl⟩

theorem trigger_incrementsKept (v : Voice) (s : State) : IncrementsKept s (trigger v s) := by
  cases v <;> exact { IncrementsKept.refl s with }

theorem sampleStep_incrementsKept (cfg : Cfg) (x : F32) (s : State) : IncrementsKept s (sampleStep cfg x s) where
  kick := by rw [sampleStep_kick, clockStep_kick, osc_next_env, next_ainc, triggerIf_ainc]
  snare := by rw [sampleStep_snare, clockStep_snare, filter_next_env, next_ainc, triggerIf_ainc]
  hat := by rw [sampleStep_hat, clockStep_hat, filter_next_env, next_ainc, triggerIf_ainc]
  click := by rw [sampleStep_click, clockStep_click, osc_next_env, next_ainc, triggerIf_ainc]
  clickDecay := by rw [sampleStep_click, clockStep_click, osc_next_env, next_dinc, triggerIf_dinc]

theorem Effect.incrementsKept {i : Instr} {s t : State} (e : Effect i s t) (hr : i ≠ .reset) : IncrementsKept s t := by
  cases e with
  | sample x => exact sampleStep_incrementsKept ..
  | reset => exact absurd rfl hr
  | buttonTrigger _ _ p v => exact { trigger_incrementsKept v { s with btnPrev := p } with }
  | trigger _ v => exact { trigger_incrementsKept v s with }
  | _ => exact { IncrementsKept.refl s with }

/-- Settles O41: the two branches of EnvInc, its values at reset, and who writes them. -/
theorem envIncFollowsItsRule : Obligations.EnvIncFollowsItsRule := by
  refine ⟨fun t => ⟨envInc_of_gt, envInc_of_not_gt⟩, rfl, envInc_atkKick, envInc_atkKick, envInc_atkClick,
    envInc_atkClick, envInc_decClick, fun i s t hr h => ?kept⟩
  case kept =>
    have k := (exec_effect h).incrementsKept hr
    exact ⟨k.kick, k.snare, k.hat, k.click, k.clickDecay⟩

/-- Settles O44. -/
theorem svfCoefFollowsItsRule : Obligations.SvfCoefFollowsItsRule :=
  ⟨fun _ _ => ⟨rfl, rfl, rfl⟩, svfK_resonance, svfK_resonance⟩

/-! The state after reset. -/

theorem reset_bpm : State.reset.bpm = 0x42700000#32 := by decide +kernel
theorem reset_baseDelay : State.reset.baseDelay = 0x43F00000#32 := by decide +kernel
theorem reset_lfoInc : State.reset.lfoInc = 0x345FB23B#32 := by decide +kernel
theorem reset_clickInc : State.reset.click.inc = 0x3CAAAAAB#32 := by decide +kernel

/-- A filtered-noise voice at reset holds the coefficients of its frequency at the damping 0x3F19999A. -/
theorem resetFilterVoice_coefficients (attack decay freq : F32) :
    let v := resetFilterVoice Config.cfg attack decay freq Config.resSnare
    v.a1 = svfA1 Config.cfg freq 0x3F19999A#32 ∧ v.a2 = svfA2 Config.cfg freq 0x3F19999A#32 ∧
    v.a3 = svfA3 Config.cfg freq 0x3F19999A#32 := by
  rw [← svfK_resonance]
  exact ⟨rfl, rfl, rfl⟩

/-- Settles O58: the computed values, and the fields that `State.resetFor` gives as they stand. -/
theorem resetValuesAreTheTable : Obligations.ResetValuesAreTheTable := by
  unfold Obligations.ResetValuesAreTheTable
  intro s row
  obtain ⟨snareA1, snareA2, snareA3⟩ := resetFilterVoice_coefficients Config.atkSnare row.snareDec row.snareF
  obtain ⟨hatA1, hatA2, hatA3⟩ := resetFilterVoice_coefficients Config.atkHat row.hatDec row.hatF
  refine ⟨rfl, reset_baseDelay, rfl, reset_lfoInc, rfl, rfl, rfl, rfl, rfl, reset_bpm, rfl, rfl, by decide, rfl,
    rfl, rfl, rfl, rfl, rfl, rfl, rfl, rfl, rfl, rfl, rfl, rfl, rfl, envInc_atkKick, envInc_atkKick, envInc_atkClick,
    envInc_atkClick, envInc_decClick, svfK_resonance, svfK_resonance, rfl, rfl, rfl, rfl, rfl, snareA1, snareA2, snareA3,
    rfl, rfl, hatA1, hatA2, hatA3, rfl, reset_clickInc, rfl, rfl, rfl, rfl, rfl, rfl, rfl, rfl, rfl, rfl, rfl, rfl, rfl,
    rfl, rfl, rfl, fun _ => rfl, by decide⟩

/-! The delay memory as data. -/

theorem mem_read_head (j : Nat) (v : F32) (m : Memory) : Memory.read ((j, v) :: m) j = v := if_pos rfl

theorem mem_read_tail {i j : Nat} (h : i ≠ j) (v : F32) (m : Memory) :
    Memory.read ((j, v) :: m) i = Memory.read m i := if_neg h

/-- The first listed index of a memory is read as blank in no memory that reads alike. -/
theorem mem_read_head_ne_blank {j : Nat} {v : F32} {m m' : Memory} (hv : v ≠ Memory.blank)
    (h : ∀ n, Memory.read ((j, v) :: m) n = Memory.read m' n) : Memory.read m' j ≠ Memory.blank := by
  rw [← h j, mem_read_head]
  exact hv

/-- Two canonical memories that read alike begin with the same index: an index below all listed ones reads as blank. -/
theorem mem_head_index_le {i j : Nat} {v w : F32} {m m' : Memory} (hm' : Memory.wf ((j, w) :: m'))
    (hv : v ≠ Memory.blank) (h : ∀ n, Memory.read ((i, v) :: m) n = Memory.read ((j, w) :: m') n) : j ≤ i := by
  by_contra hlt
  obtain ⟨above, -, -⟩ := mem_wf_cons.1 hm'
  refine mem_read_head_ne_blank hv h (mem_read_of_lt fun c hc => ?_)
  rcases List.mem_cons.1 hc with rfl | hc
  · exact Nat.not_le.1 hlt
  · exact Nat.lt_trans (Nat.not_le.1 hlt) (above c hc)

/-- A canonical memory is determined by its reads. -/
theorem mem_ext {m₁ m₂ : Memory} (h₁ : Memory.wf m₁) (h₂ : Memory.wf m₂)
    (h : ∀ n, Memory.read m₁ n = Memory.read m₂ n) : m₁ = m₂ := by
  induction m₁ generalizing m₂ with
  | nil =>
    cases m₂ with
    | nil => rfl
    | cons c m₂ =>
      obtain ⟨-, hc, -⟩ := mem_wf_cons.1 h₂
      exact absurd (mem_read_nil c.1) (mem_read_head_ne_blank hc fun n => (h n).symm)
  | cons c m₁ ih =>
    obtain ⟨above₁, hc, hm₁⟩ := mem_wf_cons.1 h₁
    cases m₂ with
    | nil => exact absurd (mem_read_nil c.1) (mem_read_head_ne_blank hc h)
    | cons d m₂ =>
      obtain ⟨above₂, hd, hm₂⟩ := mem_wf_cons.1 h₂
      have index : c.1 = d.1 :=
        Nat.le_antisymm (mem_head_index_le h₁ hd fun n => (h n).symm) (mem_head_index_le h₂ hc h)
      have value : c.2 = d.2 := by
        have := h c.1
        rwa [mem_read_head, index, mem_read_head] at this
      have tails : ∀ n, Memory.read m₁ n = Memory.read m₂ n := fun n => by
        by_cases hn : n = c.1
        · rw [hn, mem_read_of_lt above₁, mem_read_of_lt (index ▸ above₂)]
        · have := h n
          rwa [mem_read_tail hn, mem_read_tail (index ▸ hn)] at this
      rw [ih hm₁ hm₂ tails, Prod.ext index value]

/-- Settles O37. -/
theorem canonicalMemoriesAreEqualData : Obligations.CanonicalMemoriesAreEqualData := fun _ _ h₁ h₂ h => mem_ext h₁ h₂ h

end Sys2Proof.Laws

/-! Rounding to nearest, ties to even (spec 00_scope.md R12; log entry 17): `roundMag` answers the nearest representable
magnitude, and so each operation on finite values answers the nearest binary32 value. -/

namespace Sys2Proof.Laws

open Sys2Proof.F32 hiding min lt

/-- The two outcomes of rounding: with `l` the bits of the largest representable magnitude at most `n / d`, the answer is `l`
up to the midpoint of `l` and `l + 1`, and `l + 1` from there on; the midpoint itself goes to the even one. -/
theorem roundMag_cases (n : Nat) {d : Nat} (hd : 0 < d) :
    ∃ l, magN l * d ≤ n ∧ n < magN (l + 1) * d ∧
      (roundMag n d = min l infBits ∧
          (2 * n < (magN l + magN (l + 1)) * d ∨ 2 * n = (magN l + magN (l + 1)) * d ∧ l % 2 = 0) ∨
        roundMag n d = min (l + 1) infBits ∧
          ((magN l + magN (l + 1)) * d < 2 * n ∨ (magN l + magN (l + 1)) * d = 2 * n ∧ l % 2 = 1)) := by
  obtain ⟨k, m, hkm, lo, hi, hr⟩ := roundMag_mid n hd
  have mid : (2 * m + 1) * (d * 2 ^ k) = (magN (k * 2 ^ 23 + m) + magN (k * 2 ^ 23 + m + 1)) * d := by
    rw [Nat.add_assoc, magN_step (by omega), magN_step (by omega)]
    ring
  have parity : (k * 2 ^ 23 + m) % 2 = m % 2 := by omega
  refine ⟨k * 2 ^ 23 + m, lo, hi, ?_⟩
  rw [mid] at hr
  rw [parity]
  split at hr
  case isTrue up => exact .inr ⟨by rw [hr, Nat.add_assoc], up⟩
  case isFalse down => exact .inl ⟨hr, by omega⟩

/-- The magnitude from which rounding overflows, midway between the largest finite one and 2^128 (log entry 17). -/
def overflowMag : Nat := (2 ^ 25 - 1) * 2 ^ 252

theorem overflowMag_cast : (overflowMag : Int) = (2 ^ 25 - 1) * 2 ^ 252 := by decide +kernel

theorem overflowMag_mid : magN (infBits - 1) + magN infBits = 2 * overflowMag := by decide +kernel

theorem overflowMag_between : magN (infBits - 1) < overflowMag ∧ overflowMag < magN infBits := by decide +kernel

theorem roundMag_eq_inf_iff (n : Nat) {d : Nat} (hd : 0 < d) : roundMag n d = infBits ↔ overflowMag * d ≤ n := by
  obtain ⟨l, lo, hi, hr⟩ := roundMag_cases n hd
  obtain ⟨hlow, hhigh⟩ := overflowMag_between
  rcases Nat.lt_trichotomy (l + 1) infBits with hl | hl | hl
  · have hn : n < overflowMag * d := Nat.lt_of_lt_of_le hi
      (Nat.mul_le_mul_right d ((magN_le_iff.2 (Nat.le_pred_of_lt hl)).trans hlow.le))
    have finite : roundMag n d < infBits := by
      rcases hr with ⟨hr, -⟩ | ⟨hr, -⟩ <;> rw [hr] <;> exact Nat.lt_of_le_of_lt (Nat.min_le_left ..) (by omega)
    exact iff_of_false finite.ne (Nat.not_le.2 hn)
  · have top : l = infBits - 1 := by omega
    have odd : l % 2 = 1 := by rw [top]; decide
    have mid : (magN l + magN (l + 1)) * d = 2 * (overflowMag * d) := by
      rw [hl, top, overflowMag_mid, Nat.mul_assoc]
    rw [mid, odd] at hr
    generalize overflowMag * d = threshold at hr
    rcases hr with ⟨hr, below⟩ | ⟨hr, above⟩
    · have finite : roundMag n d < infBits := hr ▸ Nat.lt_of_le_of_lt (Nat.min_le_left ..) (by omega)
      exact iff_of_false finite.ne (by omega)
    · exact iff_of_true (hr.trans (Nat.min_eq_right hl.ge)) (by omega)
  · have hn : overflowMag * d ≤ n := Nat.le_trans
      (Nat.mul_le_mul_right d (hhigh.le.trans (magN_le_iff.2 (Nat.le_of_lt_succ hl)))) lo
    have infinite : roundMag n d = infBits := by
      rcases hr with ⟨hr, -⟩ | ⟨hr, -⟩ <;> rw [hr] <;> exact Nat.min_eq_right (by omega)
    exact iff_of_true infinite hn

/-- Of the two ends of an interval that holds `N`, the one on `N`'s side of the midpoint is nearest to `N` among all values
outside the interval's interior, and only at the midpoint is another as near. -/
theorem abs_sub_le_of_side {A B C X N : Int} (hA : A ≤ N) (hB : N < B)
    (hX : X = A ∧ 2 * N ≤ A + B ∨ X = B ∧ A + B ≤ 2 * N) (hC : C ≤ A ∨ B ≤ C) :
    |X - N| ≤ |C - N| ∧ (|X - N| = |C - N| → C = X ∨ 2 * N = A + B) := by
  rcases abs_cases (X - N) with ⟨hx, _⟩ | ⟨hx, _⟩ <;> rcases abs_cases (C - N) with ⟨hc, _⟩ | ⟨hc, _⟩ <;>
    rw [hx, hc] <;> omega

/-- No representable magnitude is nearer to `n / d` than the rounded one, and one as near leaves the rounded one even. -/
theorem roundMag_nearest {n d : Nat} (hd : 0 < d) (hr : roundMag n d < infBits) (c : Nat) :
    |(magN (roundMag n d) : Int) * d - n| ≤ |(magN c : Int) * d - n| ∧
    (|(magN (roundMag n d) : Int) * d - n| = |(magN c : Int) * d - n| → c = roundMag n d ∨ roundMag n d % 2 = 0) := by
  obtain ⟨l, lo, hi, hcases⟩ := roundMag_cases n hd
  have outside : magN c * d ≤ magN l * d ∨ magN (l + 1) * d ≤ magN c * d := by
    rcases Nat.lt_or_ge l c with h | h
    · exact .inr (Nat.mul_le_mul_right d (magN_le_iff.2 h))
    · exact .inl (Nat.mul_le_mul_right d (magN_le_iff.2 h))
  have side : (roundMag n d = l ∧ 2 * n ≤ magN l * d + magN (l + 1) * d) ∨
      (roundMag n d = l + 1 ∧ magN l * d + magN (l + 1) * d ≤ 2 * n) := by
    rw [← Nat.add_mul]
    rcases hcases with ⟨h, below⟩ | ⟨h, above⟩
    · exact .inl ⟨by omega, by omega⟩
    · exact .inr ⟨by omega, by omega⟩
  have tie : 2 * n = magN l * d + magN (l + 1) * d → roundMag n d % 2 = 0 := by
    rw [← Nat.add_mul]
    rcases hcases with ⟨h, below⟩ | ⟨h, above⟩ <;> omega
  obtain ⟨near, equal⟩ := abs_sub_le_of_side (A := (magN l * d : Nat)) (B := (magN (l + 1) * d : Nat))
    (C := (magN c * d : Nat)) (X := (magN (roundMag n d) * d : Nat)) (N := n) (by omega) (by omega)
    (by rcases side with ⟨h, hs⟩ | ⟨h, hs⟩ <;> rw [h] <;> omega) (by omega)
  push_cast at near equal
  refine ⟨near, fun h => (equal h).imp (fun hc => ?_) (fun hmid => tie (by exact_mod_cast hmid))⟩
  have : magN c * d = magN (roundMag n d) * d := by exact_mod_cast hc
  exact magN_strictMono.injective (Nat.eq_of_mul_eq_mul_right hd this)

/-! Signed values. -/

/-- `r` is the exact value `z / q` units, rounded to nearest with ties to even: infinite from the overflow threshold on, else
with no finite value nearer to `z / q`, and of an even significand if another is as near. -/
structure RoundsTo (r : F32) (z q : Int) : Prop where
  not_nan : isNaN r = false
  inf_iff : isInf r = true ↔ (2 ^ 25 - 1) * 2 ^ 252 * |q| ≤ |z|
  nearest : isFinite r = true → ∀ c : F32, isFinite c = true →
    |units r * q - z| ≤ |units c * q - z| ∧
    (|units r * q - z| = |units c * q - z| → units c = units r ∨ r.getLsbD 0 = false)

theorem ofBits_even {neg : Bool} {m : Nat} (h : m < 2 ^ 31) (he : m % 2 = 0) : (ofBits neg m).getLsbD 0 = false := by
  have := toNat_ofBits neg h
  simp only [BitVec.getLsbD, Nat.testBit_zero, this]
  split <;> simp <;> omega

theorem abs_sval (neg : Bool) (n : Nat) : |sval neg n| = n := by
  cases neg <;> simp [sval]

/-- A value of the sign of `z` is as far from `z` as their magnitudes are from each other; one of the other sign is farther
than zero by its own magnitude. -/
theorem abs_sval_mul_sub (s t : Bool) (m d n : Nat) :
    |sval s m * d - sval t n| = if s = t then |(m : Int) * d - n| else (m : Int) * d + n := by
  have hm : (0 : Int) ≤ (m : Int) * d := by positivity
  cases s <;> cases t <;> simp only [sval, if_true, Bool.false_eq_true, reduceCtorEq, if_false]
  · rw [sub_neg_eq_add, abs_of_nonneg (by omega)]
  · rw [show -(m : Int) * d - n = -((m : Int) * d + n) by ring, abs_neg, abs_of_nonneg (by omega)]
  · rw [show -(m : Int) * d - -(n : Int) = -((m : Int) * d - n) by ring, abs_neg]

/-- Rounding a magnitude and giving it the sign of the exact value rounds the exact value. -/
theorem roundsTo_ofBits (neg : Bool) (n : Nat) {d : Nat} (hd : 0 < d) :
    RoundsTo (ofBits neg (roundMag n d)) (sval neg n) d where
  not_nan := round_not_nan neg n d
  inf_iff := by
    rw [isInf_ofBits neg (roundMag_lt n d), roundMag_eq_inf_iff n hd, abs_sval, Nat.abs_cast, ← overflowMag_cast]
    norm_cast
  nearest hfin c hc := by
    have hr31 := roundMag_lt n d
    obtain ⟨-, hfin⟩ := (isFinite_iff _).1 hfin
    rw [← Bool.not_eq_true, isInf_ofBits neg hr31] at hfin
    have hr : roundMag n d < infBits := Nat.lt_of_le_of_ne (roundMag_le_inf n d) hfin
    obtain ⟨hcn, -⟩ := (isFinite_iff _).1 hc
    obtain ⟨k, hk, e⟩ := exists_ofBits hcn
    have hk31 : k < 2 ^ 31 := Nat.lt_of_le_of_lt hk (by decide)
    generalize sign c = t at e
    subst e
    have even : roundMag n d % 2 = 0 → (ofBits neg (roundMag n d)).getLsbD 0 = false := ofBits_even hr31
    rw [units_ofBits neg hr31, units_ofBits t hk31, abs_sval_mul_sub, abs_sval_mul_sub, if_pos rfl]
    by_cases ht : t = neg
    · obtain ⟨near, tie⟩ := roundMag_nearest hd hr k
      rw [if_pos ht]
      exact ⟨near, fun h => (tie h).imp (fun hk => by rw [hk, ht]) even⟩
    · obtain ⟨near, tie⟩ := roundMag_nearest hd hr 0
      have zero : |(magN 0 : Int) * d - n| = n := by
        rw [show magN 0 = 0 from rfl]; simp
      rw [zero] at near tie
      have far : (0 : Int) ≤ (magN k : Int) * d := by positivity
      rw [if_neg ht]
      refine ⟨by omega, fun h => (tie (by omega)).imp (fun h0 => ?_) even⟩
      have hk0 : (magN k : Int) * d = 0 := by omega
      have hk0 : magN k = 0 := by
        rcases Nat.mul_eq_zero.1 (show magN k * d = 0 by exact_mod_cast hk0) with h | h <;> omega
      rw [hk0, ← h0]
      cases t <;> cases neg <;> rfl

/-- A quotient with both signs flipped is the same value. -/
theorem RoundsTo.neg {r : F32} {z q : Int} (h : RoundsTo r z q) : RoundsTo r (-z) (-q) where
  not_nan := h.not_nan
  inf_iff := by rw [abs_neg, abs_neg]; exact h.inf_iff
  nearest hr c hc := by
    have flip (u : Int) : |u * -q - -z| = |u * q - z| := by
      rw [show u * -q - -z = -(u * q - z) by ring, abs_neg]
    rw [flip, flip]
    exact h.nearest hr c hc

/-! The operations on finite values. -/

section Operations

variable {nu : NanRule} {a b : F32}

/-- A finite sum is its exact value, rounded once; an exact zero too. -/
theorem addWith_eq_round {nan : F32} (ha : isFinite a = true) (hb : isFinite b = true) :
    ∃ s n, F32.addWith nan a b = ofBits s (roundMag n 1) ∧ sval s n = units a + units b := by
  rw [addWith_finite ha hb]
  split
  case isTrue h0 => exact ⟨_, 0, rfl, by rw [h0]; cases sign a && sign b <;> rfl⟩
  case isFalse => exact ⟨_, _, rfl, sval_natAbs _⟩

theorem addWith_roundsTo {nan : F32} (ha : isFinite a = true) (hb : isFinite b = true) :
    RoundsTo (F32.addWith nan a b) (units a + units b) 1 := by
  obtain ⟨s, n, h, hval⟩ := addWith_eq_round (nan := nan) ha hb
  rw [h, ← hval]
  exact roundsTo_ofBits s n Nat.one_pos

/-- A nonzero exact sum gives the result its sign. -/
theorem addWith_sign {nan : F32} (ha : isFinite a = true) (hb : isFinite b = true) (h0 : units a + units b ≠ 0) :
    sign (F32.addWith nan a b) = decide (units a + units b < 0) := by
  rw [addWith_finite ha hb, if_neg h0, sign_ofBits _ (roundMag_lt ..)]

theorem mul_roundsTo (ha : isFinite a = true) (hb : isFinite b = true) :
    RoundsTo (F32.mul nu a b) (units a * units b) (2 ^ 149) := by
  rw [mul_finite ha hb, units_eq a, units_eq b, ← sval_mul]
  exact roundsTo_ofBits _ _ (Nat.two_pow_pos 149)

theorem div_finite (ha : isFinite a = true) (hb : isFinite b = true) (h0 : units b ≠ 0) :
    F32.div nu a b = ofBits (sign a != sign b) (roundMag (mag a * 2 ^ 149) (mag b)) := by
  have hm : mag b ≠ 0 := fun h => h0 (by rw [units_eq, h]; cases sign b <;> rfl)
  rw [isFinite_iff] at ha hb
  simp [F32.div, ha.1, hb.1, ha.2, hb.2, hm]

theorem div_roundsTo (ha : isFinite a = true) (hb : isFinite b = true) (h0 : units b ≠ 0) :
    RoundsTo (F32.div nu a b) (units a * 2 ^ 149) (units b) := by
  have hm : 0 < mag b := by rw [← natAbs_units]; omega
  have rounded := roundsTo_ofBits (sign a != sign b) (mag a * 2 ^ 149) hm
  have scaled (s : Bool) : sval s (mag a * 2 ^ 149) = sval s (mag a) * 2 ^ 149 := by cases s <;> simp [sval]
  rw [div_finite ha hb h0]
  cases hs : sign b with
  | false =>
    rw [hs, Bool.bne_false, scaled] at rounded
    rw [Bool.bne_false, units_eq a, units_eq b, hs]
    exact rounded
  | true =>
    rw [hs, Bool.bne_true, scaled, sval_not] at rounded
    have flipped := rounded.neg
    rw [Int.neg_mul, neg_neg] at flipped
    rw [Bool.bne_true, units_eq a, units_eq b, hs]
    exact flipped

end Operations

/-- Settles O23: a sum rounds its exact value, and a difference is the sum with the second sign flipped. -/
theorem sumsRoundToNearestEven : Obligations.SumsRoundToNearestEven := by
  intro nu a b r z ha hb h
  have sum : ∃ nan b', isFinite b' = true ∧ r = F32.addWith nan a b' ∧ z = units a + units b' := by
    rcases h with ⟨rfl, rfl⟩ | ⟨rfl, rfl⟩
    · exact ⟨_, b, hb, rfl, rfl⟩
    · exact ⟨_, F32.neg b, (isFinite_neg b).trans hb, rfl, by rw [units_neg]; ring⟩
  obtain ⟨nan, b', hb', rfl, rfl⟩ := sum
  have rounded := addWith_roundsTo (nan := nan) ha hb'
  refine ⟨rounded.not_nan, ?_, addWith_sign ha hb', fun hr c hc => ?_⟩
  · simpa only [abs_one, mul_one] using rounded.inf_iff
  · simpa only [mul_one] using rounded.nearest hr c hc

/-- Settles O24: products and quotients of finite values round their exact values. -/
theorem productsAndQuotientsRoundToNearestEven : Obligations.ProductsAndQuotientsRoundToNearestEven := by
  intro nu a b r z q ha hb h
  have outcome : RoundsTo r z q ∧ sign r = (sign a != sign b) := by
    rcases h with ⟨rfl, rfl, rfl⟩ | ⟨rfl, h0, rfl, rfl⟩
    · exact ⟨mul_roundsTo ha hb, by rw [mul_finite ha hb, sign_ofBits _ (roundMag_lt ..)]⟩
    · exact ⟨div_roundsTo ha hb h0, by rw [div_finite ha hb h0, sign_ofBits _ (roundMag_lt ..)]⟩
  obtain ⟨rounded, hsign⟩ := outcome
  exact ⟨rounded.not_nan, hsign, rounded.inf_iff, rounded.nearest⟩

end Sys2Proof.Laws

/-! Values and ranges of the arithmetic that the rules apply (spec 00_scope.md R13, R14; 10_state.md R120; 41_delay_line.md
R404, R405; 42_drum_voices.md R509; 44_host_commands.md R705, R707). -/

namespace Sys2Proof.Laws

open Sys2Proof.Machine Sys2Proof.Safety
open Sys2Proof.F32 hiding min lt

/-- Settles O22: the advance of a phase is `phaseNext`. -/
theorem phaseAdvanceStaysInRange : Obligations.PhaseAdvanceStaysInRange :=
  fun nu _ _ hp hc => ⟨phaseNext_ok nu hp hc, rfl⟩

/-! clamp and min. -/

theorem clamp_of_low {x lo hi : F32} (h : isNaN x = true ∨ F32.lt x lo = true) : F32.clamp x lo hi = lo :=
  if_pos (by simpa using h)

theorem clamp_of_inside {x lo hi : F32} (hx : isNaN x = false) (hlo : F32.lt x lo = false) :
    F32.clamp x lo hi = if F32.gt x hi then hi else x := if_neg (by simp [hx, hlo])

/-- Settles O26. A value above `hi` is a number, and not below `lo`. -/
theorem clampSaturates : Obligations.ClampSaturates := by
  refine ⟨fun x lo hi hle => ⟨clamp_of_low, fun hgt => ?above, fun hx hlo hhi => ?inside⟩, fun _ _ => rfl⟩
  case above =>
    obtain ⟨-, -, hle⟩ := (f32_le_iff _ _).1 hle
    obtain ⟨hx, -, hu⟩ := (f32_gt_iff _ _).1 hgt
    have hlo : F32.lt x lo = false := Bool.eq_false_iff.2 fun hlt => by
      obtain ⟨-, -, hlt⟩ := (f32_lt_iff _ _).1 hlt
      omega
    rw [clamp_of_inside hx hlo, if_pos hgt]
  case inside => rw [clamp_of_inside hx hlo, hhi]; rfl

/-! floor_int. -/

/-- The integer part of a value in [0, 2^24), by its units. -/
theorem floorInt_units {x : F32} (h₀ : F32.le Config.zero x = true) :
    (F32.floorInt x : Int) * 2 ^ 149 ≤ units x ∧ units x < ((F32.floorInt x : Int) + 1) * 2 ^ 149 := by
  obtain ⟨-, -, hu⟩ := (f32_le_iff _ _).1 h₀
  have hmag := natAbs_units x
  rw [units_configZero] at hu
  rw [F32.floorInt]
  omega

/-- Settles O25: integers up to 2^24 convert exactly, and larger ones to no less than 2^24. -/
theorem floorIntIsTheLargestIntegerBelow : Obligations.FloorIntIsTheLargestIntegerBelow := by
  intro x h0 h1
  obtain ⟨hx, -, hlt⟩ := (f32_lt_iff _ _).1 h1
  obtain ⟨hlow, hhigh⟩ := floorInt_units h0
  have hmax : units 0x4B800000#32 = 2 ^ 24 * 2 ^ 149 := by decide +kernel
  have hfloor : F32.floorInt x ≤ 2 ^ 24 := by omega
  refine ⟨(f32_le_iff _ _).2 ⟨isNaN_ofNat hfloor, hx, (units_ofNat hfloor).1 ▸ hlow⟩, fun n hn => ?largest⟩
  case largest =>
    obtain ⟨-, -, hle⟩ := (f32_le_iff _ _).1 hn
    by_cases hsmall : n ≤ 2 ^ 24
    · rw [(units_ofNat hsmall).1] at hle
      omega
    · have big : F32.le 0x4B800000#32 (F32.ofNat n) = true := le_ofInt (by decide) (by rw [hmax]; omega)
      obtain ⟨-, -, hbig⟩ := (f32_le_iff _ _).1 big
      omega

/-! The noise value. -/

/-- Settles O40: f32 of a word's signed value lies in [-2^31, 2^31], and the scale is 2^-31. -/
theorem noiseValueInRange : Obligations.NoiseValueInRange := by
  refine ⟨fun nu w => ?range, fun w => noiseNext_ne_zero⟩
  case range =>
    have top : units 0x4F000000#32 = 2 ^ 31 * 2 ^ 149 := by decide +kernel
    have bottom : units 0xCF000000#32 = -(2 ^ 31 * 2 ^ 149) := by decide +kernel
    have scale : units Config.noiseScale = 2 ^ 118 := by decide +kernel
    have one : units 0x3F800000#32 = 2 ^ 149 := by decide +kernel
    have negOne : units 0xBF800000#32 = -2 ^ 149 := by decide +kernel
    have hlow := BitVec.le_toInt w
    have hhigh := BitVec.toInt_lt (x := w)
    have h1 : F32.le (F32.ofInt w.toInt) 0x4F000000#32 = true := ofInt_le (by decide) (by rw [top]; omega)
    have h2 : F32.le 0xCF000000#32 (F32.ofInt w.toInt) = true := le_ofInt (by decide) (by rw [bottom]; omega)
    have hfin := finite_of_between h2 h1 (by decide) (by decide)
    obtain ⟨-, -, hu1⟩ := (f32_le_iff _ _).1 h1
    obtain ⟨-, -, hu2⟩ := (f32_le_iff _ _).1 h2
    exact ⟨f32_le_mul hfin (by decide) (by decide) (by rw [scale, negOne]; omega),
      f32_mul_le hfin (by decide) (by decide) (by rw [scale, one]; omega)⟩

/-! The knobs. -/

theorem knobValue_between (k : F32) : Between Config.zero Config.one (knobValue k) := clamp_between (by decide)

/-- A finite positive span times a knob value lies in [0, span]. -/
theorem span_mul_knobValue_between (nu : NanRule) {span : F32} (hs : isFinite span = true) (h0 : 0 ≤ units span) (k : F32) :
    Between Config.zero span (F32.mul nu span (knobValue k)) := by
  obtain ⟨hkf, hk0, hk1⟩ := between_zero_units (by decide) (knobValue_between k)
  have one : units Config.one = 2 ^ 149 := by decide +kernel
  obtain ⟨hsn, -⟩ := (isFinite_iff _).1 hs
  refine ⟨f32_le_mul hs hkf (by decide) ?_, f32_mul_le hs hkf hsn ?_⟩
  · rw [units_configZero, Int.zero_mul]
    exact Int.mul_nonneg h0 hk0
  · rw [← one]
    exact Int.mul_le_mul_of_nonneg_left hk1 h0

/-- KNOB_TEMPO's BPM is in [60, 180] (R705). -/
theorem bpmOf_knobValue_between (k : F32) : Between 0x42700000#32 0x43340000#32 (bpmOf Config.cfg (knobValue k)) := by
  have sum : units Config.bpmBase + units Config.bpmSpan = units 0x43340000#32 := by decide +kernel
  obtain ⟨hf, h0, h1⟩ := between_zero_units (by decide)
    (span_mul_knobValue_between (setupNan Config.cfg) (span := Config.bpmSpan) (by decide) (by decide +kernel) k)
  exact ⟨f32_le_add (c := Config.bpmBase) (by decide) hf (by decide) (by omega),
    f32_add_le (by decide) hf (by decide) (by omega)⟩

/-- Rounding is monotone in the signed exact value. -/
theorem units_round_mono {s t : Bool} {m n d : Nat} (hd : 0 < d) (h : sval s m ≤ sval t n) :
    units (ofBits s (roundMag m d)) ≤ units (ofBits t (roundMag n d)) := by
  have mono {i j : Nat} (hij : i ≤ j) : (magN (roundMag i d) : Int) ≤ magN (roundMag j d) := by
    exact_mod_cast magN_le_iff.2 (roundMag_mono hd hd (Nat.mul_le_mul_right d hij))
  have zero : (magN (roundMag 0 d) : Int) = 0 := by
    exact_mod_cast magN_eq_zero.2 (Nat.le_zero.1 (roundMag_le hd (by decide) (Nat.zero_le _)))
  rw [units_ofBits s (roundMag_lt ..), units_ofBits t (roundMag_lt ..)]
  cases s <;> cases t <;> simp only [sval, if_true, Bool.false_eq_true, if_false] at h ⊢
  · exact mono (by omega)
  · obtain ⟨rfl, rfl⟩ : m = 0 ∧ n = 0 := by omega
    rw [zero]; rfl
  · omega
  · exact Int.neg_le_neg (mono (by omega))

/-- A sum is monotone in its second operand. -/
theorem f32_add_mono {nu : NanRule} {a b c : F32} (ha : isFinite a = true) (hb : isFinite b = true) (hc : isFinite c = true)
    (h : units b ≤ units c) : F32.le (F32.add nu a b) (F32.add nu a c) = true := by
  obtain ⟨s, m, e, hm⟩ := addWith_eq_round (nan := F32.nanOf (nu .add a b)) ha hb
  obtain ⟨t, n, e', hn⟩ := addWith_eq_round (nan := F32.nanOf (nu .add a c)) ha hc
  rw [F32.add, F32.add, e, e']
  exact (f32_le_iff _ _).2 ⟨round_not_nan .., round_not_nan .., units_round_mono Nat.one_pos (by omega)⟩

/-- KNOB_DELAY's delay time is in [0.010, 0.500] before SetDelayTime clamps it (R707). The exact sum of the two constants
is above 0.5; it rounds to 0.5. -/
theorem knobDelayTime_between (k : F32) : Between 0x3C23D70A#32 0x3F000000#32 (knobDelayTime Config.cfg k) := by
  obtain ⟨hf, h0, h1⟩ := between_zero_units (by decide)
    (span_mul_knobValue_between (setupNan Config.cfg) (span := Config.cfg.dkSpan) (by decide) (by decide +kernel) k)
  have top : F32.add (setupNan Config.cfg) Config.cfg.dkOff Config.cfg.dkSpan = 0x3F000000#32 := by decide +kernel
  refine ⟨f32_le_add (c := Config.cfg.dkOff) (by decide) hf (by decide) (by omega), ?_⟩
  rw [← top]
  exact f32_add_mono (by decide) hf (by decide) h1

/-- SetDelayTime's clamp leaves KNOB_DELAY's delay times alone. -/
theorem setDelayTime_knobDelayTime (k : F32) (s : State) :
    (setDelayTime Config.cfg (knobDelayTime Config.cfg k) s).delayTime = knobDelayTime Config.cfg k := by
  obtain ⟨hlow, hhigh⟩ := knobDelayTime_between k
  rw [setDelayTime_delayTime]
  exact clamp_of_between hlow (f32_le_trans hhigh (by decide))

/-- Settles O51: the two mappings, and their values at 0.0 and 1.0. -/
theorem tempoAndDelayKnobsReachTheirRanges : Obligations.TempoAndDelayKnobsReachTheirRanges := by
  refine fun s => ⟨fun k => ⟨_, rfl, bpmOf_knobValue_between k, ?_, ?_⟩, fun k => ⟨_, rfl, ?_⟩⟩
  · rintro rfl
    show bpmOf Config.cfg (knobValue 0x00000000#32) = _
    decide +kernel
  · rintro rfl
    show bpmOf Config.cfg (knobValue 0x3F800000#32) = _
    decide +kernel
  · rw [respond_delayTime, setDelayTime_knobDelayTime]
    refine ⟨knobDelayTime_between k, ?_, ?_⟩ <;> rintro rfl <;> decide +kernel

/-! The read position and the cell being written (R404, R405; 70_reset_and_hazards.md R1010). -/

/-- Every integer of at most 24 bits and a sign is a binary32 value. -/
theorem exists_units_eq {n : Int} (hn : n.natAbs ≤ 2 ^ 24) : ∃ c : F32, isFinite c = true ∧ units c = n * 2 ^ 149 := by
  obtain ⟨hu, hf⟩ := units_ofNat hn
  rcases Int.natAbs_eq n with h | h
  · exact ⟨_, hf, by rw [hu, ← h]⟩
  · exact ⟨F32.neg _, (isFinite_neg _).trans hf, by rw [units_neg, hu]; omega⟩

/-- Integer bounds of an exact sum bound the rounded one. -/
theorem addWith_int_between {nan a b : F32} (ha : isFinite a = true) (hb : isFinite b = true) {m n : Int}
    (hm : m.natAbs ≤ 2 ^ 24) (hn : n.natAbs ≤ 2 ^ 24) (hlow : m * 2 ^ 149 ≤ units a + units b)
    (hhigh : units a + units b ≤ n * 2 ^ 149) :
    isFinite (F32.addWith nan a b) = true ∧
    m * 2 ^ 149 ≤ units (F32.addWith nan a b) ∧ units (F32.addWith nan a b) ≤ n * 2 ^ 149 := by
  obtain ⟨lo, hlof, hlo⟩ := exists_units_eq hm
  obtain ⟨hi, hhif, hhi⟩ := exists_units_eq hn
  have h1 := le_addWith (nan := nan) ha hb ((isFinite_iff _).1 hlof).1 (hlo ▸ hlow)
  have h2 := addWith_le (nan := nan) ha hb ((isFinite_iff _).1 hhif).1 (hhi ▸ hhigh)
  obtain ⟨-, -, hu1⟩ := (f32_le_iff _ _).1 h1
  obtain ⟨-, -, hu2⟩ := (f32_le_iff _ _).1 h2
  exact ⟨finite_of_between h1 h2 hlof hhif, hlo ▸ hu1, hhi ▸ hu2⟩

theorem sub_int_between {nu : NanRule} {a b : F32} (ha : isFinite a = true) (hb : isFinite b = true) {m n : Int}
    (hm : m.natAbs ≤ 2 ^ 24) (hn : n.natAbs ≤ 2 ^ 24) (hlow : m * 2 ^ 149 ≤ units a - units b)
    (hhigh : units a - units b ≤ n * 2 ^ 149) :
    isFinite (F32.sub nu a b) = true ∧
    m * 2 ^ 149 ≤ units (F32.sub nu a b) ∧ units (F32.sub nu a b) ≤ n * 2 ^ 149 :=
  addWith_int_between ha ((isFinite_neg b).trans hb) hm hn (by rw [units_neg]; omega) (by rw [units_neg]; omega)

theorem f32_lt_iff_units {a b : F32} (ha : isFinite a = true) (hb : isFinite b = true) :
    F32.lt a b = true ↔ units a < units b := by
  rw [f32_lt_iff, ((isFinite_iff a).1 ha).1, ((isFinite_iff b).1 hb).1]
  simp

theorem f32_ge_iff_units {a b : F32} (ha : isFinite a = true) (hb : isFinite b = true) :
    F32.ge a b = true ↔ units b ≤ units a := by
  rw [f32_ge_iff, ((isFinite_iff a).1 ha).1, ((isFinite_iff b).1 hb).1]
  simp

/-- The difference of two values with the same units is a zero. -/
theorem units_sub_of_eq {nu : NanRule} {a b : F32} (ha : isFinite a = true) (hb : isFinite b = true)
    (h : units a = units b) : units (F32.sub nu a b) = 0 := by
  have hsum : units a + units (F32.neg b) = 0 := by rw [units_neg, h]; omega
  rw [F32.sub, addWith_finite ha ((isFinite_neg b).trans hb), if_pos hsum, units_zero]

section WrittenCell

variable {cfg : Cfg} (nu : NanRule) {w : Nat} {len : F32}

/-- The read position lies at or below WRITE_INDEX - 1, or, once wrapped, at or above WRITE_INDEX + 1; at WRITE_INDEX 0 it
does not exceed CAP - 1. Integers of at most 24 bits bound every rounded value on the way. -/
theorem readPos_units (hcfg : cfg.Legal) (hw : w < cfg.cap) (hlen : Between Config.one (F32.ofNat (cfg.cap - 1)) len) :
    isFinite (readPos cfg nu w len) = true ∧
    (units (readPos cfg nu w len) ≤ ((w : Int) - 1) * 2 ^ 149 ∨
      ((w : Int) + 1) * 2 ^ 149 ≤ units (readPos cfg nu w len) ∧
        units (readPos cfg nu w len) < (cfg.cap : Int) * 2 ^ 149 ∧
        (w = 0 → units (readPos cfg nu w len) ≤ ((cfg.cap : Int) - 1) * 2 ^ 149)) := by
  have hcap : cfg.cap ≤ 2 ^ 24 := hcfg.cap_le
  obtain ⟨hlow, hhigh⟩ := hlen
  obtain ⟨-, -, hu1⟩ := (f32_le_iff _ _).1 hlow
  obtain ⟨-, -, hu2⟩ := (f32_le_iff _ _).1 hhigh
  obtain ⟨huw, hwf⟩ := units_ofNat (n := w) (by omega)
  obtain ⟨hupred, hpredf⟩ := units_ofNat (n := cfg.cap - 1) (by omega)
  obtain ⟨hucap, hcapf⟩ := units_ofNat hcap
  have hone : units Config.one = 2 ^ 149 := by decide +kernel
  have hlenf : isFinite len = true := finite_of_between hlow hhigh (by decide) hpredf
  obtain ⟨hrf, hr1, hr2⟩ := sub_int_between (nu := nu) hwf hlenf (m := w + 1 - cfg.cap) (n := w - 1) (by omega)
    (by omega) (by omega) (by omega)
  unfold readPos capF
  dsimp only
  generalize F32.sub nu (F32.ofNat w) len = r at hrf hr1 hr2
  by_cases hneg : units r < 0
  · obtain ⟨hsf, hs1, hs2⟩ := addWith_int_between (nan := F32.nanOf (nu .add r (F32.ofNat cfg.cap))) hrf hcapf
      (m := w + 1) (n := if w = 0 then cfg.cap - 1 else cfg.cap) (by omega) (by split <;> omega) (by omega)
      (by split <;> omega)
    rw [if_pos ((f32_lt_iff_units hrf (by decide)).2 (by rw [units_configZero]; exact hneg)), F32.add]
    generalize F32.addWith (F32.nanOf (nu .add r (F32.ofNat cfg.cap))) r (F32.ofNat cfg.cap) = r' at hsf hs1 hs2
    by_cases htop : units (F32.ofNat cfg.cap) ≤ units r'
    · rw [if_pos ((f32_ge_iff_units hsf hcapf).2 htop)]
      split at hs2
      case isTrue => omega
      case isFalse hw0 =>
        obtain ⟨hzf, -, hz⟩ := sub_int_between (nu := nu) hsf hcapf (m := 0) (n := 0) (by decide) (by decide) (by omega)
          (by omega)
        exact ⟨hzf, .inl (by omega)⟩
    · rw [if_neg (mt (f32_ge_iff_units hsf hcapf).1 htop)]
      exact ⟨hsf, .inr ⟨hs1, by omega, fun hw0 => by rw [if_pos hw0] at hs2; exact hs2⟩⟩
  · rw [if_neg (mt (f32_lt_iff_units hrf (by decide)).1 (by rw [units_configZero]; exact hneg)),
      if_neg (mt (f32_ge_iff_units hrf hcapf).1 (by omega))]
    exact ⟨hrf, .inl hr2⟩

/-- Settles O28: below WRITE_INDEX the last cell read is reached only by an integer position, above it only past the wrap. -/
theorem writtenCellHasNoWeightInItsOwnSample : Obligations.WrittenCellHasNoWeightInItsOwnSample := by
  intro cfg nu w len hcfg hw hlen
  have hcap : cfg.cap ≤ 2 ^ 24 := hcfg.cap_le
  obtain ⟨hpos, hlt⟩ := readPos_inRange nu hcfg hw hlen
  obtain ⟨hfin, hunits⟩ := readPos_units nu hcfg hw hlen
  obtain ⟨hlow, hhigh⟩ := floorInt_units hpos
  have hfloor := floorInt_lt hcap hpos hlt
  have whole : units (readPos cfg nu w len) ≤ (F32.floorInt (readPos cfg nu w len) : Int) * 2 ^ 149 →
      units (F32.sub nu (readPos cfg nu w len) (F32.ofNat (F32.floorInt (readPos cfg nu w len)))) = 0 := fun h => by
    obtain ⟨hun, hnf⟩ := units_ofNat (n := F32.floorInt (readPos cfg nu w len)) (by omega)
    exact units_sub_of_eq hfin hnf (by omega)
  generalize F32.floorInt (readPos cfg nu w len) = i at *
  rcases hunits with hbelow | ⟨habove, hcapu, hfirst⟩
  · refine ⟨by omega, fun hi => whole ?_⟩
    rw [Nat.mod_eq_of_lt (by omega)] at hi
    omega
  · refine ⟨by omega, fun hi => whole ?_⟩
    rcases Nat.lt_or_ge (i + 1) cfg.cap with h | h
    · rw [Nat.mod_eq_of_lt h] at hi
      omega
    · have hend : i + 1 = cfg.cap := by omega
      rw [hend, Nat.mod_self] at hi
      have := hfirst hi.symm
      omega

end WrittenCell

end Sys2Proof.Laws

/-! The unit left alone after reset (spec 45_sample_pipeline.md section 3): which values stay zero, and when the click first
sounds. -/

namespace Sys2Proof.Laws

open Sys2Proof.Machine Sys2Proof.Safety
open Sys2Proof.F32 hiding min lt

/-! The NaN rule plays no part in operations on finite values, so that a constant result holds under every rule. -/

section Constants

variable {nu : NanRule} {a b c : F32}

theorem add_const (ha : isFinite a = true) (hb : isFinite b = true) (h : F32.add (fun _ _ _ => 0#32) a b = c) :
    F32.add nu a b = c := by
  rw [← h, F32.add, F32.add, addWith_finite ha hb, addWith_finite ha hb]

theorem sub_const (ha : isFinite a = true) (hb : isFinite b = true) (h : F32.sub (fun _ _ _ => 0#32) a b = c) :
    F32.sub nu a b = c := by
  have hb' := (isFinite_neg b).trans hb
  rw [← h, F32.sub, F32.sub, addWith_finite ha hb', addWith_finite ha hb']

theorem mul_const (ha : isFinite a = true) (hb : isFinite b = true) (h : F32.mul (fun _ _ _ => 0#32) a b = c) :
    F32.mul nu a b = c := by
  rw [← h, mul_finite ha hb, mul_finite ha hb]

theorem div_const (ha : isFinite a = true) (hb : isFinite b = true) (h0 : units b ≠ 0)
    (h : F32.div (fun _ _ _ => 0#32) a b = c) : F32.div nu a b = c := by
  rw [← h, div_finite ha hb h0, div_finite ha hb h0]

end Constants

/-! Zeros. -/

section Zeros

variable {nu : NanRule} {a b : F32}

theorem mag_zero (s : Bool) : mag (ofBits s 0) = 0 := by rw [mag_ofBits s (by decide)]; rfl

theorem isFinite_zero (s : Bool) : isFinite (ofBits s 0) = true := by cases s <;> decide

theorem mul_zero_of_finite (ha : isFinite a = true) (s : Bool) :
    F32.mul nu a (ofBits s 0) = ofBits (sign a != s) 0 := by
  rw [mul_finite ha (isFinite_zero s), mag_zero, sign_ofBits s (by decide), Nat.mul_zero]
  rfl

theorem zero_mul_of_finite (s : Bool) (hb : isFinite b = true) :
    F32.mul nu (ofBits s 0) b = ofBits (s != sign b) 0 := by
  rw [mul_finite (isFinite_zero s) hb, mag_zero, sign_ofBits s (by decide), Nat.zero_mul]
  rfl

theorem zero_add_zero (s t : Bool) : F32.add nu (ofBits s 0) (ofBits t 0) = ofBits (s && t) 0 := by
  rw [F32.add, addWith_finite (isFinite_zero s) (isFinite_zero t), units_zero, units_zero, sign_ofBits s (by decide),
    sign_ofBits t (by decide)]
  rfl

theorem zero_sub_zero : F32.sub nu Config.zero Config.zero = Config.zero :=
  sub_const (by decide) (by decide) (by decide +kernel)

/-- A zero of either sign, or a NaN: what a product with a zero is. -/
def ZeroOrNaN (a : F32) : Prop := isNaN a = true ∨ ∃ s, a = ofBits s 0

theorem zeroOrNaN_zero : ZeroOrNaN Config.zero := .inr ⟨false, rfl⟩

theorem zeroOrNaN_nanOf (w : Word) : ZeroOrNaN (F32.nanOf w) := .inl (isNaN_nanOf w)

theorem mul_of_nan (h : (isNaN a || isNaN b) = true) : F32.mul nu a b = F32.nanOf (nu .mul a b) := if_pos h

theorem mul_of_inf_zero (ha : isInf a = true) (hb : mag b = 0) (hn : (isNaN a || isNaN b) = false) :
    F32.mul nu a b = F32.nanOf (nu .mul a b) := by
  simp [F32.mul, hn, ha, hb]

theorem mul_zero_inf (ha : mag a = 0) (hb : isInf b = true) (hn : (isNaN a || isNaN b) = false) :
    F32.mul nu a b = F32.nanOf (nu .mul a b) := by
  simp [F32.mul, hn, ha, hb]

theorem ZeroOrNaN.mul_right (a : F32) (hb : ZeroOrNaN b) : ZeroOrNaN (F32.mul nu a b) := by
  by_cases hn : (isNaN a || isNaN b) = true
  · rw [mul_of_nan hn]; exact zeroOrNaN_nanOf _
  obtain ⟨hna, hnb⟩ := by simpa using hn
  obtain hb | ⟨s, rfl⟩ := hb
  · simp [hb] at hnb
  by_cases hi : isInf a = true
  · rw [mul_of_inf_zero hi (mag_zero s) (by simpa using hn)]; exact zeroOrNaN_nanOf _
  · rw [mul_zero_of_finite ((isFinite_iff a).2 ⟨hna, by simpa using hi⟩)]; exact .inr ⟨_, rfl⟩

theorem ZeroOrNaN.mul_left (ha : ZeroOrNaN a) (b : F32) : ZeroOrNaN (F32.mul nu a b) := by
  by_cases hn : (isNaN a || isNaN b) = true
  · rw [mul_of_nan hn]; exact zeroOrNaN_nanOf _
  obtain ⟨hna, hnb⟩ := by simpa using hn
  obtain ha | ⟨s, rfl⟩ := ha
  · simp [ha] at hna
  by_cases hi : isInf b = true
  · rw [mul_zero_inf (mag_zero s) hi (by simpa using hn)]; exact zeroOrNaN_nanOf _
  · rw [zero_mul_of_finite s ((isFinite_iff b).2 ⟨hnb, by simpa using hi⟩)]; exact .inr ⟨_, rfl⟩

theorem ZeroOrNaN.add (ha : ZeroOrNaN a) (hb : ZeroOrNaN b) : ZeroOrNaN (F32.add nu a b) := by
  by_cases hn : (isNaN a || isNaN b) = true
  · rw [F32.add, F32.addWith, if_pos hn]; exact zeroOrNaN_nanOf _
  obtain ⟨hna, hnb⟩ := by simpa using hn
  obtain ha | ⟨s, rfl⟩ := ha
  · simp [ha] at hna
  obtain hb | ⟨t, rfl⟩ := hb
  · simp [hb] at hnb
  rw [zero_add_zero]
  exact .inr ⟨_, rfl⟩

theorem voiceOut_zero_level (src gain : F32) : ZeroOrNaN (voiceOut nu src Config.zero gain) :=
  (zeroOrNaN_zero.mul_right src).mul_left gain

end Zeros

/-- A SAMPLE before which every level is 0.0 has a drum bus of zero, or a NaN: a trigger starts from level 0.0 too. -/
theorem sampleStep_bus_of_zero_levels {cfg : Cfg} (x : F32) {s : State} (hkick : s.kick.env.level = Config.zero)
    (hsnare : s.snare.env.level = Config.zero) (hhat : s.hat.env.level = Config.zero)
    (hclick : s.click.env.level = Config.zero) : ZeroOrNaN (sampleStep cfg x s).lastDrumBus := by
  rw [sampleStep_lastDrumBus, drumBus_clockStep]
  simp only [triggerIf_level, hkick, hsnare, hhat, hclick, ite_self]
  exact (((voiceOut_zero_level ..).add (voiceOut_zero_level ..)).add (voiceOut_zero_level ..)).add (voiceOut_zero_level ..)

/-- At VOLUME +0.0 a finite `pre` is answered by a zero of its sign (R805). -/
theorem sampleStep_rsp_of_volume_zero {cfg : Cfg} (hcfg : cfg.Legal) (x : F32) {s : State} (hv : s.volume = Config.zero)
    (hpre : isFinite (sampleStep cfg x s).lastPre = true) :
    (sampleStep cfg x s).rsp = ofBits (sign (sampleStep cfg x s).lastPre) 0 := by
  have product : F32.mul (sampleNan cfg s) Config.zero (sampleStep cfg x s).lastPre =
      ofBits (false != sign (sampleStep cfg x s).lastPre) 0 := zero_mul_of_finite false hpre
  rw [sampleStep_rsp, hv, outputSample, product, hcfg.tanh_zero, Bool.false_bne]

/-! The envelopes of a sequencer in MANUAL. -/

/-- An envelope at rest. -/
structure EnvIdle (e : Envelope) : Prop where
  stage : e.stage = .idle
  level : e.level = Config.zero

theorem EnvIdle.next {nu : NanRule} {e : Envelope} (h : EnvIdle e) : EnvIdle (e.next nu) := by
  rwa [next_of_idle h.stage]

/-- MANUAL, with the three voices that a pattern fires at rest. -/
structure DrumsIdle (s : State) : Prop where
  manual : s.seqState = .manual
  kick : EnvIdle s.kick.env
  snare : EnvIdle s.snare.env
  hat : EnvIdle s.hat.env

theorem DrumsIdle.sampleStep {cfg : Cfg} {s : State} (h : DrumsIdle s) (x : F32) : DrumsIdle (sampleStep cfg x s) := by
  have noFire : seqFires cfg (sampleNan cfg s) s = false := seqFires_of_not_playing (by rw [h.manual]; decide)
  have noTrigger (v : PatVoice) : stepFires cfg (sampleNan cfg s) v s = false := by simp [stepFires, noFire]
  refine ⟨(sampleStep_manual_iff ..).2 h.manual, ?_, ?_, ?_⟩
  · rw [sampleStep_kick, clockStep_kick, noTrigger, osc_next_env]; exact h.kick.next
  · rw [sampleStep_snare, clockStep_snare, noTrigger, filter_next_env]; exact h.snare.next
  · rw [sampleStep_hat, clockStep_hat, noTrigger, filter_next_env]; exact h.hat.next

/-! The beat counter at 60 BPM and 48000 Hz, and the click. -/

/-- Whole numbers up to 2^24 are counted exactly. -/
theorem ofNat_add_one {nu : NanRule} {n : Nat} (h : n ≤ 2 ^ 24) :
    F32.add nu (F32.ofNat n) Config.one = F32.ofNat (n + 1) := by
  obtain ⟨hu, hf⟩ := units_ofNat h
  have sum : units (F32.ofNat n) + units Config.one = ((n + 1 : Nat) : Int) * 2 ^ 149 := by
    have one : units Config.one = 2 ^ 149 := by decide +kernel
    rw [hu, one]; push_cast; ring
  have pos : 0 < ((n + 1 : Nat) : Int) * 2 ^ 149 := by positivity
  have size : (((n + 1 : Nat) : Int) * 2 ^ 149).natAbs = (n + 1) * 2 ^ 149 := by
    rw [Int.natAbs_mul, Int.natAbs_pow]; rfl
  rw [F32.add, addWith_finite hf (by decide), sum, if_neg pos.ne', size, decide_eq_false pos.not_gt]
  rfl

theorem ofNat_ge_iff {m n : Nat} (hm : m ≤ 2 ^ 24) (hn : n ≤ 2 ^ 24) :
    F32.ge (F32.ofNat m) (F32.ofNat n) = true ↔ n ≤ m := by
  obtain ⟨hum, hfm⟩ := units_ofNat hm
  obtain ⟨hun, hfn⟩ := units_ofNat hn
  rw [f32_ge_iff_units hfm hfn, hum, hun]
  omega

theorem counterWraps_ofNat_iff {nu : NanRule} {n iv : Nat} (hn : n < 2 ^ 24) (hiv : iv ≤ 2 ^ 24) :
    counterWraps nu (F32.ofNat n) (F32.ofNat iv) = true ↔ iv ≤ n + 1 := by
  rw [counterWraps, ofNat_add_one hn.le, ofNat_ge_iff hn hiv]

/-- The beat counter, by whether its beat ends (R601). -/
theorem sampleStep_beatCount_eq (cfg : Cfg) (x : F32) (s : State) : (sampleStep cfg x s).beatCount =
    if beatWraps cfg (sampleNan cfg s) s then
      F32.sub (sampleNan cfg s) (F32.add (sampleNan cfg s) s.beatCount Config.one)
        (beatInterval cfg (sampleNan cfg s) s.bpm)
    else F32.add (sampleNan cfg s) s.beatCount Config.one :=
  (sampleStep_beatCount ..).trans (clockStep_beatCount ..)

theorem bpmOf_zero (cfg : Cfg) : bpmOf cfg Config.zero = 0x42700000#32 := by
  have product : F32.mul (setupNan cfg) Config.bpmSpan Config.zero = Config.zero :=
    mul_const (by decide) (by decide) (by decide +kernel)
  rw [bpmOf, product]
  exact add_const (by decide) (by decide) (by decide +kernel)

section At48000

variable {cfg : Cfg} (hfs : cfg.fs = 48000)
include hfs

/-- One beat per second. -/
theorem beatInterval_60 (nu : NanRule) : beatInterval cfg nu 0x42700000#32 = F32.ofNat 48000 := by
  rw [beatInterval, hfs]
  exact div_const (by decide +kernel) (by decide) (by decide +kernel) (by decide +kernel)

/-- The click's attack time is 24 samples, rounded up. -/
theorem envInc_atkClick_at_48000 : envInc cfg Config.atkClick = 0x3D2AAAAA#32 := by
  have length : F32.mul (setupNan cfg) Config.atkClick (fsF cfg) = 0x41C00001#32 := by
    rw [fsF, hfs]
    exact mul_const (by decide) (by decide +kernel) (by decide +kernel)
  rw [envInc_of_gt (by rw [length]; decide +kernel), length]
  exact div_const (by decide) (by decide) (by decide +kernel) (by decide +kernel)

end At48000

/-- `n` SAMPLEs into the first beat, the click has not sounded. -/
structure ClickWaits (n : Nat) (s : State) : Prop where
  bpm : s.bpm = 0x42700000#32
  beatCount : s.beatCount = F32.ofNat n
  idle : EnvIdle s.click.env
  ainc : s.click.env.ainc = 0x3D2AAAAA#32

namespace ClickWaits

variable {cfg : Cfg} {n : Nat} {s : State}

theorem beatWraps_iff (hfs : cfg.fs = 48000) (h : ClickWaits n s) (hn : n < 48000) (nu : NanRule) :
    beatWraps cfg nu s = true ↔ 48000 ≤ n + 1 := by
  rw [beatWraps, h.bpm, h.beatCount, beatInterval_60 hfs, counterWraps_ofNat_iff (by omega) (by decide)]

/-- Before the last SAMPLE of the beat. -/
theorem sampleStep (hfs : cfg.fs = 48000) (h : ClickWaits n s) (hn : n + 1 < 48000) (x : F32) :
    ClickWaits (n + 1) (sampleStep cfg x s) := by
  have noWrap : beatWraps cfg (sampleNan cfg s) s = false :=
    Bool.eq_false_iff.2 (mt (h.beatWraps_iff hfs (by omega) _).1 (by omega))
  refine ⟨(sampleStep_bpm ..).trans h.bpm, ?_, ?_, ?_⟩
  · rw [sampleStep_beatCount_eq, noWrap, h.beatCount, ofNat_add_one (by omega)]; rfl
  · rw [sampleStep_click, clockStep_click, noWrap, osc_next_env]; exact h.idle.next
  · rw [sampleStep_click, clockStep_click, osc_next_env, next_ainc, triggerIf_ainc, h.ainc]

/-- The last SAMPLE of the beat wraps the counter and triggers the click, whose first EnvStep is in the same SAMPLE. -/
theorem sampleStep_last (hfs : cfg.fs = 48000) (h : ClickWaits n s) (hn : n + 1 = 48000) (x : F32) :
    (Machine.sampleStep cfg x s).click.env.stage = .attack ∧
    (Machine.sampleStep cfg x s).click.env.level = 0x3D2AAAAA#32 ∧
    (Machine.sampleStep cfg x s).beatCount = Config.zero := by
  have wraps : beatWraps cfg (sampleNan cfg s) s = true := (h.beatWraps_iff hfs (by omega) _).2 hn.ge
  have first : F32.add (sampleNan cfg s) s.click.env.trigger.level s.click.env.trigger.ainc = 0x3D2AAAAA#32 := by
    rw [show s.click.env.trigger.ainc = 0x3D2AAAAA#32 from h.ainc]
    exact add_const (a := Config.zero) (by decide) (by decide) (by decide +kernel)
  have env : (Machine.sampleStep cfg x s).click.env = { s.click.env.trigger with level := 0x3D2AAAAA#32 } := by
    rw [sampleStep_click, clockStep_click, wraps, osc_next_env, triggerIf_true,
      next_of_attack_below rfl (by rw [first]; decide +kernel), first]
  refine ⟨by rw [env]; rfl, by rw [env], ?_⟩
  rw [sampleStep_beatCount_eq, if_pos wraps, h.beatCount, h.bpm, beatInterval_60 hfs, ofNat_add_one (by omega), hn]
  exact sub_const (by decide +kernel) (by decide +kernel) (by decide +kernel)

end ClickWaits

/-! The delay line over cells of +0.0. -/

/-- The delay length lies in [1, CAP - 1], whatever the LFO and the base delay are (R403). -/
theorem delayLength_between {cfg : Cfg} (hcfg : cfg.Legal) (nu : NanRule) (baseDelay depth lfo : F32) :
    Between Config.one (F32.ofNat (cfg.cap - 1)) (delayLength cfg nu baseDelay depth lfo) := by
  have low := hcfg.cap_ge
  have high := hcfg.cap_le
  exact clamp_between ((ofNat_ge_iff (m := cfg.cap - 1) (n := 1) (by omega) (by decide)).2 (by omega))

/-- The weight of the second cell read is finite (R405). -/
theorem readWeight_finite {cfg : Cfg} (hcfg : cfg.Legal) (nu : NanRule) {w : Nat} {len : F32} (hw : w < cfg.cap)
    (hlen : Between Config.one (F32.ofNat (cfg.cap - 1)) len) :
    isFinite (F32.sub nu (readPos cfg nu w len) (F32.ofNat (F32.floorInt (readPos cfg nu w len)))) = true := by
  have hcap : cfg.cap ≤ 2 ^ 24 := hcfg.cap_le
  obtain ⟨hlow, hhigh⟩ := readPos_inRange nu hcfg hw hlen
  obtain ⟨hf, -⟩ := readPos_units nu hcfg hw hlen
  obtain ⟨hucap, hcapf⟩ := units_ofNat hcap
  rw [f32_lt_iff_units hf hcapf, hucap] at hhigh
  obtain ⟨hfloor, hceil⟩ := floorInt_units hlow
  obtain ⟨hun, hnf⟩ := units_ofNat (n := F32.floorInt (readPos cfg nu w len)) (by omega)
  exact (sub_int_between hf hnf (m := 0) (n := 1) (by decide) (by decide) (by omega) (by omega)).1

theorem interpolate_blank {cfg : Cfg} {nu : NanRule} {rp : F32}
    (hf : isFinite (F32.sub nu rp (F32.ofNat (F32.floorInt rp))) = true) :
    interpolate cfg nu [] rp = Config.zero := by
  have product : F32.mul nu (F32.sub nu rp (F32.ofNat (F32.floorInt rp))) Config.zero = ofBits (_ != false) 0 :=
    mul_zero_of_finite hf false
  have cell (i : Nat) : Memory.cell cfg [] i = Config.zero := rfl
  rw [interpolate, cell, cell, zero_sub_zero, product]
  exact zero_add_zero false _

/-! The arithmetic of the other steps on +0.0. -/

section OnZero

variable (nu : NanRule)

theorem zero_mul_zero : F32.mul nu Config.zero Config.zero = Config.zero :=
  mul_const (by decide) (by decide) (by decide +kernel)

theorem pos_zero_add_zero (s : Bool) : F32.add nu Config.zero (ofBits s 0) = Config.zero := zero_add_zero false s

theorem dcBlock_zero : dcBlock nu Config.zero Config.zero Config.zero = Config.zero := by
  have decayed : F32.mul nu Config.dcR Config.zero = Config.zero := mul_const (by decide) (by decide) (by decide +kernel)
  rw [dcBlock, zero_sub_zero, decayed]
  exact pos_zero_add_zero nu false

theorem feedbackFilter_zero : feedbackFilter nu Config.zero Config.zero Config.zero = Config.zero := by
  have filtered : F32.mul nu Config.cFb Config.zero = Config.zero := mul_const (by decide) (by decide) (by decide +kernel)
  rw [feedbackFilter, zero_mul_zero, zero_sub_zero, filtered]
  exact pos_zero_add_zero nu false

theorem wetDryMix_zero : wetDryMix nu Config.zero Config.zero Config.zero = Config.zero := by
  have dry : F32.sub nu Config.one Config.zero = Config.one := sub_const (by decide) (by decide) (by decide +kernel)
  have mixed : F32.mul nu Config.zero Config.one = Config.zero := mul_const (by decide) (by decide) (by decide +kernel)
  rw [wetDryMix, dry, mixed, zero_mul_zero]
  exact pos_zero_add_zero nu false

theorem delayInput_zero (cfg : Cfg) (s : Bool) : delayInput cfg nu Config.zero (ofBits s 0) = Config.zero := by
  rw [delayInput, pos_zero_add_zero, ite_self]

theorem mixedOut_zero (cfg : Cfg) (s : Bool) : mixedOut cfg nu Config.zero (ofBits s 0) = Config.zero := by
  rw [mixedOut, pos_zero_add_zero, ite_self]

end OnZero

theorem write_blank_blank (i : Nat) : Memory.write [] i Config.zero = [] := if_pos rfl

/-- Nothing in the delay line, and the knobs that scale the signal at +0.0. -/
structure Silent (cfg : Cfg) (s : State) : Prop where
  writeIndex : s.writeIndex < cfg.cap
  volume : s.volume = Config.zero
  mix : s.mix = Config.zero
  feedback : s.feedback = Config.zero
  dcX1 : s.dcX1 = Config.zero
  dcY1 : s.dcY1 = Config.zero
  fbState : s.fbState = Config.zero
  dbuf : s.dbuf = []
  lastPre : s.lastPre = Config.zero

namespace Silent

variable {cfg : Cfg} {s : State}

theorem lastWet (hcfg : cfg.Legal) (h : Silent cfg s) (x : F32) : (Machine.sampleStep cfg x s).lastWet = Config.zero := by
  have len := delayLength_between hcfg (sampleNan cfg s) s.baseDelay s.lfoDepth (sineAt cfg (sampleNan cfg s) s.lfoPhase)
  rw [sampleStep_lastWet_eq, sampleStep_lastL_eq, h.dbuf]
  exact interpolate_blank (readWeight_finite hcfg _ h.writeIndex len)

/-- An input of +0.0 with a drum bus of zero keeps the silence. -/
theorem sampleStep (hcfg : cfg.Legal) (h : Silent cfg s) {b : Bool}
    (hbus : (Machine.sampleStep cfg Config.zero s).lastDrumBus = ofBits b 0) :
    Silent cfg (Machine.sampleStep cfg Config.zero s) := by
  have wet := h.lastWet hcfg Config.zero
  have input : (Machine.sampleStep cfg Config.zero s).dcX1 = Config.zero := by
    rw [sampleStep_dcX1_eq, hbus, delayInput_zero]
  have dry : (Machine.sampleStep cfg Config.zero s).dcY1 = Config.zero := by
    rw [sampleStep_dcY1_eq, input, h.dcX1, h.dcY1, dcBlock_zero]
  have fed : (Machine.sampleStep cfg Config.zero s).fbState = Config.zero := by
    rw [sampleStep_fbState_eq, wet, h.fbState, h.feedback, feedbackFilter_zero]
  have written : F32.add (sampleNan cfg s) Config.zero Config.zero = Config.zero := pos_zero_add_zero _ false
  exact {
    writeIndex := by rw [sampleStep_writeIndex]; exact Nat.mod_lt _ (Nat.zero_lt_of_lt h.writeIndex)
    volume := (sampleStep_volume ..).trans h.volume
    mix := (sampleStep_mix ..).trans h.mix
    feedback := (sampleStep_feedback ..).trans h.feedback
    dcX1 := input
    dcY1 := dry
    fbState := fed
    dbuf := by rw [sampleStep_dbuf_eq, h.dbuf, dry, fed, written, write_blank_blank]
    lastPre := by rw [sampleStep_lastPre, h.mix, dry, wet, hbus, wetDryMix_zero, mixedOut_zero] }

theorem cell (h : Silent cfg s) (m : Nat) : s.cell cfg m = Config.zero := by
  rw [State.cell, h.dbuf]
  rfl

end Silent

/-! The run from reset. -/

/-- The state after `n` SAMPLEs of input +0.0 from reset. -/
def idleRun (cfg : Cfg) (n : Nat) : State := (sampleStep cfg Config.zero)^[n] (State.resetFor cfg)

theorem idleRun_succ (cfg : Cfg) (n : Nat) : idleRun cfg (n + 1) = sampleStep cfg Config.zero (idleRun cfg n) :=
  Function.iterate_succ_apply' ..

theorem idleRun_drumsIdle (cfg : Cfg) (n : Nat) : DrumsIdle (idleRun cfg n) := by
  induction n with
  | zero => exact ⟨rfl, ⟨rfl, rfl⟩, ⟨rfl, rfl⟩, ⟨rfl, rfl⟩⟩
  | succ n ih => rw [idleRun_succ]; exact ih.sampleStep _

section IdleRun

variable {cfg : Cfg}

theorem idleRun_clickWaits (hfs : cfg.fs = 48000) {n : Nat} (hn : n < 48000) : ClickWaits n (idleRun cfg n) := by
  induction n with
  | zero => exact ⟨bpmOf_zero cfg, rfl, ⟨rfl, rfl⟩, envInc_atkClick_at_48000 hfs⟩
  | succ n ih => rw [idleRun_succ]; exact (ih (by omega)).sampleStep hfs hn _

theorem idleRun_bus (hfs : cfg.fs = 48000) {n : Nat} (hn : n ≤ 48000) : ZeroOrNaN (idleRun cfg n).lastDrumBus := by
  cases n with
  | zero => exact zeroOrNaN_zero
  | succ n =>
    have drums := idleRun_drumsIdle cfg n
    rw [idleRun_succ]
    exact sampleStep_bus_of_zero_levels _ drums.kick.level drums.snare.level drums.hat.level
      (idleRun_clickWaits hfs hn).idle.level

theorem idleRun_bus_zero (hfs : cfg.fs = 48000) {n : Nat} (hn : n ≤ 48000)
    (hnan : isNaN (idleRun cfg n).lastDrumBus = false) : ∃ s, (idleRun cfg n).lastDrumBus = ofBits s 0 :=
  (idleRun_bus hfs hn).resolve_left (Bool.eq_false_iff.1 hnan)

theorem idleRun_silent (hcfg : cfg.Legal) (hfs : cfg.fs = 48000) {n : Nat} (hn : n ≤ 48000)
    (hnan : ∀ k, k ≤ n → isNaN (idleRun cfg k).lastDrumBus = false) : Silent cfg (idleRun cfg n) := by
  induction n with
  | zero => exact ⟨Nat.zero_lt_of_lt hcfg.cap_ge, rfl, rfl, rfl, rfl, rfl, rfl, rfl, rfl⟩
  | succ n ih =>
    obtain ⟨s, hbus⟩ := idleRun_bus_zero hfs hn (hnan _ (Nat.le_refl _))
    have before := ih (by omega) fun k hk => hnan k (by omega)
    rw [idleRun_succ] at hbus ⊢
    exact before.sampleStep hcfg hbus

/-- The response of a silent SAMPLE. -/
theorem idleRun_rsp (hcfg : cfg.Legal) {n : Nat} (before : Silent cfg (idleRun cfg n))
    (after : Silent cfg (idleRun cfg (n + 1))) : (idleRun cfg (n + 1)).rsp = Config.zero := by
  have pre := after.lastPre
  rw [idleRun_succ] at pre ⊢
  rw [sampleStep_rsp_of_volume_zero hcfg _ before.volume (by rw [pre]; decide), pre]
  rfl

end IdleRun

/-- Settles O60: the drums never leave rest, the click waits for the end of the beat, and a silent SAMPLE follows a silent
one as long as no bus was a NaN. -/
theorem idleFromReset : Obligations.IdleFromReset := by
  refine ⟨exec_sample, cfg_legal, fun cfg hcfg => ⟨fun x s hv hpre => ?volumeZero, fun hfs => ?atReset⟩⟩
  case volumeZero =>
    rw [sampleStep_rsp_of_volume_zero hcfg x hv hpre]
    cases sign (sampleStep cfg x s).lastPre <;> rfl
  case atReset =>
    intro after idle
    have run : after = idleRun cfg := rfl
    clear_value after
    subst run
    have waits : ClickWaits 47999 (idleRun cfg 47999) := idleRun_clickWaits hfs (by decide)
    refine ⟨fun n _ => ?drums, fun n hn => ?click, ?rings, fun n hn => ?bus, fun n hn hnan => ?silent⟩
    case drums =>
      have h := idleRun_drumsIdle cfg n
      exact ⟨⟨h.kick.stage, h.kick.level⟩, ⟨h.snare.stage, h.snare.level⟩, ⟨h.hat.stage, h.hat.level⟩⟩
    case click =>
      have h := idleRun_clickWaits hfs hn
      exact ⟨⟨h.idle.stage, h.idle.level⟩, h.beatCount⟩
    case rings =>
      rw [idleRun_succ cfg 47999]
      exact waits.sampleStep_last hfs rfl _
    case bus =>
      obtain h | ⟨s, h⟩ := idleRun_bus hfs hn
      · exact .inl h
      · cases s
        · exact .inr (.inl h)
        · exact .inr (.inr h)
    case silent =>
      have h := idleRun_silent hcfg hfs hn hnan
      refine ⟨h.lastPre, fun h1 => ?_, h.dcX1, h.cell⟩
      obtain ⟨k, rfl⟩ := Nat.exists_eq_add_of_le' h1
      exact idleRun_rsp hcfg (idleRun_silent hcfg hfs (by omega) fun j hj => hnan j (by omega)) h

end Sys2Proof.Laws
